-- ==== Sys2Proof/Word.lean ====
section
/-! DEFINITION. The three word types of the machine: bytes, 16-bit words, 20-bit addresses
(spec: 00_scope.md R8 `REGW`, `ABUS`; 20_memory.md R41). -/

namespace Sys2Proof

/-- One memory location, one byte on the bus (R41). -/
abbrev Byte := BitVec 8

/-- A register of the processor, an offset, a word on the bus (R8 `REGW = 16`). -/
abbrev Word := BitVec 16

/-- A physical address on `A19..A0` (R8 `ABUS = 20`, R41). -/
abbrev Addr := BitVec 20

end Sys2Proof
end

