-- ==== Sys2Proof/Config.lean ====
section
/-! DEFINITION. What an implementation fixes: the parameters of 00_scope.md R8 as plain data, and the
free values of the open points (93_implementation_defined.md U5 to U8, U12, U13) as constants
without a body. -/

namespace Sys2Proof

/-- Which of the two parts (R1, R8 `CHIP`). -/
inductive Chip where
  | i8086
  | i8088
  deriving DecidableEq, Repr

/-- The level of the `MN/MX` strap (R8 `MODE`, R86): `min` is logic 1, `max` is logic 0. -/
inductive Mode where
  | min
  | max
  deriving DecidableEq, Repr

/-- `OPC` (R8, R72): the byte 0 of each instruction of the subset. -/
structure OpcodeMap where
  lock : Byte
  nop : Byte
  wait : Byte
  int3 : Byte
  intN : Byte
  into : Byte
  iret : Byte
  hlt : Byte
  cli : Byte
  sti : Byte
  deriving DecidableEq, Repr

/-- The ten opcode bytes, in the order of R72. -/
def OpcodeMap.bytes (o : OpcodeMap) : List Byte :=
  [o.lock, o.nop, o.wait, o.int3, o.intN, o.into, o.iret, o.hlt, o.cli, o.sti]

/-- No byte is the opcode of two instructions (R69: byte 0 alone decides). -/
def OpcodeMap.wf (o : OpcodeMap) : Bool := decide o.bytes.Nodup

/-- Which function forms a physical address (R43, D4, U20): the one the spec gives from general knowledge, or any
other. -/
inductive PhysRule where
  | gk
  /-- `Config.otherPhys k`, of which nothing is known. -/
  | other (k : Nat)
  deriving DecidableEq, Repr

/-- The parameters of R8 that are arguments of the model. They are part of the state so that a claim
about every state is a claim about every part and every strap; no step changes them. -/
structure Params where
  chip : Chip
  mode : Mode
  /-- `QLEN`, capacity of the instruction queue in bytes (R28, D10). -/
  qlen : Nat
  /-- `IOW`, width of a port address in bits (R42, D30). -/
  iow : Nat
  /-- `INTA_CYCLES`, acknowledge cycles per accepted `INTR` (R140, D18). -/
  intaCycles : Nat
  /-- `FLAGS_FIXED`, what the bits of the flags image that hold no flag read as (R23, D19). -/
  flagsFixed : Word
  /-- `OPC`, the opcode bytes of the admitted instructions (R72, D3). -/
  opc : OpcodeMap
  /-- `phys`, how a physical address is formed (R43, D4, U20). -/
  physRule : PhysRule
  deriving DecidableEq, Repr

/-- `DBUS`, the width of the data bus in bits (R1, R8). -/
def Params.dbus (p : Params) : Nat :=
  match p.chip with
  | .i8086 => 16
  | .i8088 => 8

/-- What the parameters must satisfy for the rules to make sense: room in the queue for one fetch (R56),
at least one acknowledge cycle (R140), a port number that fits the address pins (R42), a fixed image that is
0 wherever R23 puts a flag, and ten different opcode bytes (R69, R72). That `IOW` may be 17 to 20, so that
`A19..A16` may differ from 0 in an I/O cycle (R42 and R100 have them 0 with `IOW = 16`), is a DESIGN CHOICE
(log 31). -/
def Params.wf (p : Params) : Bool :=
  decide (2 ≤ p.qlen) && decide (1 ≤ p.intaCycles) && decide (p.iow ≤ 20) &&
    (p.flagsFixed &&& 0x0FD5#16 == 0#16) && p.opc.wf

/-- Free value: a byte the spec leaves open (U5 undeclared memory, U12 a write cut short by RESET, U13 an
unanswered acknowledge, a port read by another master). Nothing constrains it. -/
opaque Config.freeByte : Nat → Byte

/-- Free value: `S4 S3` on a cycle that uses no segment register (R65, U6). Nothing constrains it. -/
opaque Config.freeSeg : Nat → BitVec 2

/-- Free value: the address pins of a `Halt` or `IntAck` cycle (R130, R140). Nothing constrains it. -/
opaque Config.freeAddr : Nat → Addr

/-- Free value: a status level the spec leaves open (`S7` R99, U7; `BHE` R103, U8; `S5` while another
master drives the bus R98). Nothing constrains it. -/
opaque Config.freeBit : Nat → Bool

/-- Free value: a physical address formed in another way than R43's (U20). Nothing constrains it. -/
opaque Config.otherPhys : Nat → Word → Word → Addr

end Sys2Proof
end

