-- ==== Sys2Proof/Syntax.lean ====
section
/-! DEFINITION. The instructions: one constructor per row of spec/opcode_table.json
(30_encoding.md R72). -/

namespace Sys2Proof

/-- The ten rows of the opcode map (R72). -/
inductive Instr where
  /-- `LOCK`, the bus lock prefix (R129): the instruction that follows it is the next one decoded. -/
  | lock
  /-- `NOP` (R128). -/
  | nop
  /-- `WAIT` (R127). -/
  | wait
  /-- `INT 3`, the one-byte form (R132). -/
  | int3
  /-- `INT n`, with the type number of R70: unsigned, 0 to 255. -/
  | intN (n : Nat)
  /-- `INTO` (R133). -/
  | into
  /-- `IRET` (R134). -/
  | iret
  /-- `HLT` (R130). -/
  | hlt
  /-- `CLI` (R125). -/
  | cli
  /-- `STI` (R126). -/
  | sti
  deriving DecidableEq, Repr

end Sys2Proof
end

