-- ==== Sys2Proof/WellFormed.lean ====
section
/-! DEFINITION. Which instructions are well formed: the type number of `INT n` fits its one
immediate byte (30_encoding.md R70). No other row has an operand (R68). -/

namespace Sys2Proof

/-- R70: `n` is 0 to 255. -/
def Instr.wf : Instr → Bool
  | .lock => true
  | .nop => true
  | .wait => true
  | .int3 => true
  | .intN n => decide (n < 256)
  | .into => true
  | .iret => true
  | .hlt => true
  | .cli => true
  | .sti => true

end Sys2Proof
end

