-- ==== Sys2Proof/Decode.lean ====
section
/-! DEFINITION. The default opcode bytes (30_encoding.md R72, D3), the decoder and the encoder written from a
map of opcode bytes (R68 to R71, R75), and the reader of a table word. -/

namespace Sys2Proof

/-- `OPC` by default (R8): the table of R72, all of it general knowledge (GK1). -/
def gkOpcodes : OpcodeMap where
  lock := 0xF0#8
  nop := 0x90#8
  wait := 0x9B#8
  int3 := 0xCC#8
  intN := 0xCD#8
  into := 0xCE#8
  iret := 0xCF#8
  hlt := 0xF4#8
  cli := 0xFA#8
  sti := 0xFB#8

/-- Why bytes are not an instruction of the subset. -/
inductive DecodeError where
  /-- The first byte is none of the ten of R72 (R75). -/
  | outOfScope (b : Byte)
  /-- The bytes end before the instruction does. -/
  | truncated
  deriving DecidableEq, Repr

/-- The one-byte opcodes of format `OP1`, and the prefix code (R68, R72). -/
def decodeOp1 (o : OpcodeMap) (b : Byte) : Option Instr :=
  if b = o.lock then some .lock
  else if b = o.nop then some .nop
  else if b = o.wait then some .wait
  else if b = o.int3 then some .int3
  else if b = o.into then some .into
  else if b = o.iret then some .iret
  else if b = o.hlt then some .hlt
  else if b = o.cli then some .cli
  else if b = o.sti then some .sti
  else none

/-- R69: the first byte decides the length. Answers the instruction and the bytes after it. -/
def decode (o : OpcodeMap) : List Byte → Except DecodeError (Instr × List Byte)
  | [] => .error .truncated
  | b :: rest =>
    if b = o.intN then
      match rest with
      | [] => .error .truncated
      | n :: more => .ok (.intN n.toNat, more)
    else
      match decodeOp1 o b with
      | some i => .ok (i, rest)
      | none => .error (.outOfScope b)

/-- R68, R72: the bytes of an instruction. -/
def encode (o : OpcodeMap) : Instr → List Byte
  | .lock => [o.lock]
  | .nop => [o.nop]
  | .wait => [o.wait]
  | .int3 => [o.int3]
  | .intN n => [o.intN, BitVec.ofNat 8 n]
  | .into => [o.into]
  | .iret => [o.iret]
  | .hlt => [o.hlt]
  | .cli => [o.cli]
  | .sti => [o.sti]

/-- The longest instruction of the subset, in bytes (R68). -/
def maxInstrBytes : Nat := 2

/-- The bytes of a table word, first byte in bits 7..0; above `nbits`, up to the longest instruction,
every bit is 0. -/
def tableBytes (nbits w : Nat) : List Byte :=
  (List.range (max maxInstrBytes ((nbits + 7) / 8))).map fun k =>
    if 8 * k < nbits then BitVec.ofNat 8 (w / 256 ^ k) else 0#8

/-- What the decoder reads, with the default opcode bytes, from an instruction whose bits are `w`. -/
def decodeTableWord (nbits w : Nat) : Option Instr :=
  match decode gkOpcodes (tableBytes nbits w) with
  | .ok (i, _) => some i
  | .error _ => none

end Sys2Proof
end

