-- ==== Sys2Proof/Machine/Params.lean ====
section
/-! DEFINITION. The default values of the open parameters (00_scope.md R8), all from general knowledge
(GK1, GK3, GK4, GK10, GK12, GK18), and the fixed numbers of R8. -/

namespace Sys2Proof.Machine

/-- `QLEN` by default: 6 on the 8086, 4 on the 8088 (R8, GK12). -/
def gkQlen : Chip → Nat
  | .i8086 => 6
  | .i8088 => 4

/-- The parameters of a part in a mode with the general-knowledge defaults of R8. -/
def gkParams (chip : Chip) (mode : Mode) : Params where
  chip := chip
  mode := mode
  qlen := gkQlen chip
  iow := 16
  intaCycles := 2
  flagsFixed := 0xF002#16
  opc := gkOpcodes
  physRule := .gk

/-- `ABUS` (R8, R41). -/
def addressBits : Nat := 20

/-- `NPINS` (R1, R8). -/
def packagePins : Nat := 40

end Sys2Proof.Machine
end

