-- ==== Sys2Proof/Machine/State.lean ====
section
/-! DEFINITION. The state of the machine (10_state.md R17 to R40), the reasons a step can stop, and the
state after RESET (R39). -/

namespace Sys2Proof.Machine

open Sys2Proof

/-- Who runs a bus cycle, and who owns the bus (R34). -/
inductive Master where
  | cpu
  | hold
  | gt0
  | gt1
  deriving DecidableEq, Repr

/-- The kinds of bus cycle (R94). -/
inductive CycleKind where
  | intAck
  | ioRead
  | ioWrite
  | halt
  | codeAccess
  | memRead
  | memWrite
  | passive
  deriving DecidableEq, Repr

/-- The four segments of R96. -/
inductive Seg where
  | es
  | ss
  | cs
  | ds
  deriving DecidableEq, Repr

/-- The nine flags (R20 to R23). `ifl` is `IF`. -/
structure Flags where
  cf : Bool
  pf : Bool
  af : Bool
  zf : Bool
  sf : Bool
  tf : Bool
  ifl : Bool
  df : Bool
  of : Bool
  deriving DecidableEq, Repr

/-- The eight general registers (R25). -/
structure GenRegs where
  ax : Word
  bx : Word
  cx : Word
  dx : Word
  sp : Word
  bp : Word
  si : Word
  di : Word
  deriving DecidableEq, Repr

/-- The levels the environment holds on the input pins (R37), logic 1 as `true` (R12), and the byte the
interrupt controller would put on `D7..D0` (R140; `none`: no device answers, U13). -/
structure InPins where
  reset : Bool
  ready : Bool
  test : Bool
  intr : Bool
  nmi : Bool
  hold : Bool
  mnmx : Bool
  vector : Option Byte
  deriving DecidableEq, Repr

/-- One bus cycle the processor asks for (R47). `width` is 0, 8 or 16 bits; `data` is what a write
drives; `seg` is the segment of the address, `none` where the cycle uses none (R65). -/
structure Cycle where
  kind : CycleKind
  pa : Addr
  width : Nat
  data : Word
  seg : Option Seg
  deriving DecidableEq, Repr

/-- The bus cycle in progress while `READY = 0` (R110): the next code access, or a cycle an instruction or
entry asked for. -/
inductive Held where
  | fetch
  | data (c : Cycle)
  deriving DecidableEq, Repr

/-- A record of the bus-cycle history (R47 g). `bhe` and `s7` are the levels of pin 34 of the 8086
(`none` on the 8088, R103); `seg` is `S4 S3`; `ifl` is `S5`. -/
structure BusRecord where
  master : Master
  kind : CycleKind
  pa : Addr
  bhe : Option Bool
  width : Nat
  data : Option Word
  seg : BitVec 2
  ifl : Bool
  locked : Bool
  s7 : Option Bool
  deriving DecidableEq, Repr

/-- An entry of the queue-status history (R101, R102). -/
inductive QueueOp where
  | first
  | next
  | flush
  deriving DecidableEq, Repr

/-- Where the two vector reads of an entry stand among its three stack writes (R147, U19): the first read
comes after `first` writes, the second after `second`. -/
structure EntryOrder where
  first : Nat
  second : Nat
  deriving DecidableEq, Repr

/-- The choices of one turn of the processor: how many bus cycles it may still run before another agent
moves (`none`: no limit; R114, D7), the open two-way choice (`take_anyway` of R138 at the boundary after
`STI`; an interrupt before the release of an idle `WAIT`, D23), and the order of an entry (U19). -/
structure Turn where
  cycles : Option Nat
  alt : Bool
  order : EntryOrder
  deriving DecidableEq, Repr

/-- The turn of the default schedule: no limit, no second choice, the order in which R147 lists the
accesses. -/
def Turn.free : Turn := ⟨none, false, ⟨3, 3⟩⟩

/-- The two request/grant lines (R117). -/
inductive Line where
  | gt0
  | gt1
  deriving DecidableEq, Repr

/-- A pulse by which the processor grants a request line (R9, R118), and how many records the bus-cycle
history held when it came (log 28). -/
structure GrantPulse where
  line : Line
  cycles : Nat
  deriving DecidableEq, Repr

/-- The input pins with a level (R37). -/
inductive InPin where
  | reset
  | ready
  | test
  | intr
  | nmi
  | hold
  | mnmx
  deriving DecidableEq, Repr

/-- What the bus interface may do by itself (R10 b): run a code fetch (or go on with the one in
progress), grant or take back the bus (R114), grant a request line (R118). -/
inductive BusAct where
  | codeFetch
  | grantHold
  | releaseHold
  | grantLine (l : Line)
  deriving DecidableEq, Repr

/-- What the environment may do (R10 c to h): set a pin, prepare the controller's byte, pulse a request
or a release on a line (R118), run a bus cycle as the master that owns the bus (R124). -/
inductive EnvAct where
  | pin (p : InPin) (level : Bool)
  | vector (b : Option Byte)
  | request (l : Line)
  | release (l : Line)
  | master (kind : CycleKind) (pa : Addr) (width : Nat) (data : Word)
  deriving DecidableEq, Repr

/-- One move of one agent (R10). -/
inductive Act where
  | cpu (t : Turn)
  | bus (b : BusAct)
  | env (e : EnvAct)
  deriving DecidableEq, Repr

/-- Why a run has no meaning in the model (R14 `refuse`). All of them stop the run where the hardware goes
on, so each is safe. -/
inductive Refusal where
  /-- An instruction without a meaning in `exec`; raised by no arm of this model. Safe. -/
  | notModelled (mnemonic : String)
  /-- A first byte that is none of the ten of R72, or a second `LOCK` code after a first (R71, R75).
  Raised by the fetch and by `LOCK`. Safe. -/
  | opcodeOutOfScope (b : Byte)
  /-- A word access at offset `FFFFH` or at physical address `FFFFFH` (R55). Raised by pushes and pops.
  Safe. -/
  | wordAtSegmentEnd
  /-- A write to an address whose byte is in the queue (R62). Raised by every memory write. Safe. -/
  | staleQueue
  /-- The strap `MN/MX` changed during a run (R86). Raised by the environment's pin change. Safe. -/
  | modeChanged
  /-- A single-step trap due together with `NMI` or `INTR` (R138, R146). Raised at the boundary. Safe. -/
  | simultaneousWithSingleStep
  /-- The stack bytes of an entry overlap its vector bytes (R147). Raised by the interrupt entry. Safe. -/
  | stackOverVector
  deriving DecidableEq, Repr

/-- Why the machine stops. The spec's own fault (R25) cannot occur, since every register holds a value. -/
inductive Fault where
  /-- The script makes an agent take a step that the spec does not enable (R114, R118, R124). Raised by
  `busAct` and `envAct`. Safe: the spec has no such run. -/
  | notEnabled (a : Act)
  deriving DecidableEq, Repr

/-- The parts of an instruction or entry that may have to wait for the bus (R47, R110, R115). -/
inductive Micro where
  /-- Run one bus cycle. -/
  | cycle (c : Cycle)
  /-- `SP <- v` (R14 `push`, `pop`). -/
  | setSp (v : Word)
  /-- `IF <- 0; TF <- 0` of an entry (R147). -/
  | clearIfTf
  /-- Load `CS:IP` from the vector just read, empty the queue, leave halt and wait (R147). -/
  | enterHandler
  /-- Load `IP`, `CS` and the flags from the three words just popped, empty the queue (R134). -/
  | leaveHandler
  /-- Start the entry whose type number the acknowledge has read, saving offset `ip` (R140). -/
  | enterType (ip : Word)
  /-- `halted <- 1` at the end of `HLT` (R130). -/
  | enterHalt
  /-- The end of an instruction begun with `TF = tfb` (R129, R138). -/
  | endInstr (tfb : Bool)
  /-- The end of an interrupt entry taken at a boundary (R138). -/
  | endEntry
  /-- The access here has no meaning (R55, R147). -/
  | refuse (r : Refusal)
  deriving DecidableEq, Repr

/-- An address range, both ends included, that the launch declares to hold no memory (R64). -/
structure AddrRange where
  lo : Nat
  hi : Nat
  deriving DecidableEq, Repr

/-- The whole state. The first groups are the spec's, the last one the model's own (INVENTORY.md). -/
structure State where
  /-- The parameters of R8; no step changes them. -/
  cfg : Params
  /-- General registers (R25). -/
  gen : GenRegs
  cs : Word
  ds : Word
  ss : Word
  es : Word
  ip : Word
  flags : Flags
  /-- The instruction queue (R28): bytes in order, each with the physical address it was read from. -/
  queue : List Host.Cell
  /-- Offset of the next byte to fetch (R28). -/
  fetchOff : Word
  nmiPending : Bool
  halted : Bool
  waiting : Bool
  busOwner : Master
  req0 : Bool
  req1 : Bool
  lockActive : Bool
  intInhibit : Bool
  /-- Memory (R41): canonical list, see `Machine/Memory.lean`. -/
  mem : List Host.Cell
  /-- Where the launch declares no memory (R64). -/
  absent : List AddrRange
  /-- The bus-cycle history, oldest first (R9, R47 g, R58). -/
  history : List BusRecord
  /-- The queue-status history, oldest first (R102); maximum mode only. -/
  qsHistory : List QueueOp
  /-- The grant pulses on `RQ/GT0` and `RQ/GT1`, oldest first (R9, R118); maximum mode only. -/
  grants : List GrantPulse
  pins : InPins
  /-- Bytes of the current instruction taken from the queue so far (R69, R102). -/
  opbuf : List Byte
  /-- Offset of the first byte of the current instruction, prefix included (R127, R151). -/
  insnStart : Word
  /-- A boundary still to be examined, with its `tf_before` (R138). -/
  boundary : Option Bool
  /-- The bus cycle in progress while `READY = 0` (R110). -/
  busy : Option Held
  /-- What is left of the instruction or entry that waits for the bus. -/
  micro : List Micro
  /-- The bytes it has read so far, in order. -/
  latch : List Byte
  /-- The choices of the turn being played. -/
  turn : Turn
  /-- What the agents do next; when empty, the default schedule. -/
  script : List Act
  /-- How many free values have been drawn. -/
  draws : Nat
  deriving DecidableEq, Repr

/-- The state RESET leaves (R39) for given parameters. General registers: log 3. Pins: log 6. -/
def State.resetWith (p : Params) : State where
  cfg := p
  gen := ⟨0#16, 0#16, 0#16, 0#16, 0#16, 0#16, 0#16, 0#16⟩
  cs := 0xFFFF#16
  ds := 0x0000#16
  ss := 0x0000#16
  es := 0x0000#16
  ip := 0x0000#16
  flags := ⟨false, false, false, false, false, false, false, false, false⟩
  queue := []
  fetchOff := 0x0000#16
  nmiPending := false
  halted := false
  waiting := false
  busOwner := .cpu
  req0 := false
  req1 := false
  lockActive := false
  intInhibit := false
  mem := []
  absent := []
  history := []
  qsHistory := []
  grants := []
  pins := ⟨false, true, false, false, false, false, decide (p.mode = .min), none⟩
  opbuf := []
  insnStart := 0x0000#16
  boundary := none
  busy := none
  micro := []
  latch := []
  turn := .free
  script := []
  draws := 0

/-- The machine right after RESET: an 8086 in minimum mode (log 7) with the default parameters of R8. -/
def State.reset : State := State.resetWith (gkParams .i8086 .min)

end Sys2Proof.Machine
end

