-- ==== Sys2Proof/Machine/Memory.lean ====
section
/-! DEFINITION. Address formation, bytes and words, and memory as a canonical list (20_memory.md R41,
R43, R54, R64). -/

namespace Sys2Proof.Machine

open Sys2Proof

/-- R43, general knowledge GK3: `((seg << 4) + off) mod 2^20`. -/
def gkPhys (seg off : Word) : Addr :=
  (seg.setWidth 20 <<< 4) + off.setWidth 20

/-- R43, D4, U20: `phys(seg, off)`, a function of the configuration and the one place where an address is formed.
A claim that needs the formula of general knowledge has `physRule = .gk` among its premises. -/
def phys (p : Params) (seg off : Word) : Addr :=
  match p.physRule with
  | .gk => gkPhys seg off
  | .other k => Config.otherPhys k seg off

/-- The least significant byte of a word (R54). -/
def loByte (w : Word) : Byte := w.setWidth 8

/-- The most significant byte of a word (R54). -/
def hiByte (w : Word) : Byte := (w >>> 8).setWidth 8

/-- `a ++ b` with `a` in the high bits (R13). -/
def joinBytes (hi lo : Byte) : Word := hi ++ lo

/-- What an address that memory does not list reads as (log 4). -/
def unwritten : Byte := 0#8

/-- The byte memory holds at an address. -/
def Memory.read : List Host.Cell → Nat → Byte
  | [], _ => unwritten
  | (a, b) :: rest, x => if x = a then b else Memory.read rest x

/-- Put a byte at an address, keeping the canonical form. -/
def Memory.write : List Host.Cell → Nat → Byte → List Host.Cell
  | [], x, v => if v = unwritten then [] else [(x, v)]
  | (a, b) :: rest, x, v =>
    if x < a then
      if v = unwritten then (a, b) :: rest else (x, v) :: (a, b) :: rest
    else if x = a then
      if v = unwritten then rest else (x, v) :: rest
    else (a, b) :: Memory.write rest x v

/-- The canonical form from address `lo` on: addresses rise strictly, stay below `2^20` (R41), and no
entry equals what an unlisted address reads as. -/
def Memory.wfFrom : Nat → List Host.Cell → Bool
  | _, [] => true
  | lo, (a, b) :: rest =>
    decide (lo ≤ a) && decide (a < 2 ^ 20) && decide (b ≠ unwritten) && Memory.wfFrom (a + 1) rest

/-- Memory is in its canonical form. -/
def Memory.wf (m : List Host.Cell) : Bool := Memory.wfFrom 0 m

/-- The launch declares no memory at this address (R64). -/
def State.isAbsent (s : State) (a : Addr) : Bool :=
  s.absent.any fun r => decide (r.lo ≤ a.toNat) && decide (a.toNat ≤ r.hi)

/-- The byte a read at `a` takes from the data lines: memory's, or a free value where the launch declares
none (R64, U5). `k` tells apart the bytes of one cycle. -/
def State.byteAt (s : State) (a : Addr) (k : Nat) : Byte :=
  if s.isAbsent a then Config.freeByte (s.draws + k) else Memory.read s.mem a.toNat

/-- A byte write reaches memory where there is memory (R64). -/
def State.storeByte (s : State) (a : Addr) (v : Byte) : State :=
  if s.isAbsent a then s else { s with mem := Memory.write s.mem a.toNat v }

end Sys2Proof.Machine
end

