-- ==== Sys2Proof/Machine/Flags.lean ====
section
/-! DEFINITION. The flags image (10_state.md R23) and the writes of single flags (R21, R24). No
instruction of the subset computes a flag from a result (45_interrupt_instructions.md R177). -/

namespace Sys2Proof.Machine

open Sys2Proof

/-- One flag at its bit of the image (R23). -/
def flagBit (b : Bool) (k : Nat) : Word := (BitVec.ofBool b).setWidth 16 <<< k

/-- R23: the image of the flags; the bits that hold no flag read as `fixed` (`FLAGS_FIXED`). -/
def Flags.image (f : Flags) (fixed : Word) : Word :=
  flagBit f.of 11 ||| flagBit f.df 10 ||| flagBit f.ifl 9 ||| flagBit f.tf 8 ||| flagBit f.sf 7 |||
    flagBit f.zf 6 ||| flagBit f.af 4 ||| flagBit f.pf 2 ||| flagBit f.cf 0 ||| fixed

/-- R134: the nine flags of a popped image; bits 15 to 12, 5, 3 and 1 are ignored. -/
def Flags.ofImage (w : Word) : Flags where
  cf := w.getLsbD 0
  pf := w.getLsbD 2
  af := w.getLsbD 4
  zf := w.getLsbD 6
  sf := w.getLsbD 7
  tf := w.getLsbD 8
  ifl := w.getLsbD 9
  df := w.getLsbD 10
  of := w.getLsbD 11

/-- `FLAGS.IF <- b` (R125, R126). -/
def State.setIf (s : State) (b : Bool) : State :=
  { s with flags := { s.flags with ifl := b } }

/-- `FLAGS.IF <- 0; FLAGS.TF <- 0`, the flags an entry writes (R24, R147). -/
def State.clearIfTf (s : State) : State :=
  { s with flags := { s.flags with ifl := false, tf := false } }

end Sys2Proof.Machine
end

