-- ==== Sys2Proof/Machine/Operands.lean ====
section
/-! DEFINITION. The operand forms: the eight general registers and the halves of the first four
(10_state.md R25), the segment registers (R17), and the one immediate (30_encoding.md R70). The subset
has no memory operand (45_interrupt_instructions.md R179). -/

namespace Sys2Proof.Machine

open Sys2Proof

/-- The 16-bit general registers (R25). -/
inductive Reg16 where
  | ax
  | bx
  | cx
  | dx
  | sp
  | bp
  | si
  | di
  deriving DecidableEq, Repr

/-- The 8-bit halves of `AX`, `BX`, `CX`, `DX` (R25). -/
inductive Reg8 where
  | ah
  | al
  | bh
  | bl
  | ch
  | cl
  | dh
  | dl
  deriving DecidableEq, Repr

/-- Read a general register; none is hardwired (R25). -/
def GenRegs.get (g : GenRegs) : Reg16 → Word
  | .ax => g.ax
  | .bx => g.bx
  | .cx => g.cx
  | .dx => g.dx
  | .sp => g.sp
  | .bp => g.bp
  | .si => g.si
  | .di => g.di

/-- Write a general register. -/
def GenRegs.set (g : GenRegs) (r : Reg16) (v : Word) : GenRegs :=
  match r with
  | .ax => { g with ax := v }
  | .bx => { g with bx := v }
  | .cx => { g with cx := v }
  | .dx => { g with dx := v }
  | .sp => { g with sp := v }
  | .bp => { g with bp := v }
  | .si => { g with si := v }
  | .di => { g with di := v }

/-- Which register a half belongs to. -/
def Reg8.whole : Reg8 → Reg16
  | .ah => .ax
  | .al => .ax
  | .bh => .bx
  | .bl => .bx
  | .ch => .cx
  | .cl => .cx
  | .dh => .dx
  | .dl => .dx

/-- Whether a half is the high one. -/
def Reg8.isHigh : Reg8 → Bool
  | .ah => true
  | .al => false
  | .bh => true
  | .bl => false
  | .ch => true
  | .cl => false
  | .dh => true
  | .dl => false

/-- Read a half (R25). -/
def GenRegs.getHalf (g : GenRegs) (h : Reg8) : Byte :=
  if h.isHigh then hiByte (g.get h.whole) else loByte (g.get h.whole)

/-- Write a half, leaving the other half (R25). -/
def GenRegs.setHalf (g : GenRegs) (h : Reg8) (v : Byte) : GenRegs :=
  let w := g.get h.whole
  g.set h.whole (if h.isHigh then joinBytes v (loByte w) else joinBytes (hiByte w) v)

/-- Read a segment register (R17). -/
def State.segReg (s : State) : Seg → Word
  | .es => s.es
  | .ss => s.ss
  | .cs => s.cs
  | .ds => s.ds

/-- `SP <- v` (R14), through the register file. -/
def State.setSp (s : State) (v : Word) : State :=
  { s with gen := s.gen.set .sp v }

/-- R70: `n = zext_16(imm8)`. -/
def immediate (b : Byte) : Word := b.setWidth 16

end Sys2Proof.Machine
end

