-- ==== Sys2Proof/Machine/Status.lean ====
section
/-! DEFINITION. The codes the processor reports (41_status_signals.md R94, R96, R101) and the level of
`BHE` (R103, 20_memory.md R46). -/

namespace Sys2Proof.Machine

open Sys2Proof

/-- R94: the code `S2 S1 S0` of a bus-cycle kind. -/
def CycleKind.code : CycleKind → BitVec 3
  | .intAck => 0b000#3
  | .ioRead => 0b001#3
  | .ioWrite => 0b010#3
  | .halt => 0b011#3
  | .codeAccess => 0b100#3
  | .memRead => 0b101#3
  | .memWrite => 0b110#3
  | .passive => 0b111#3

/-- R94 read the other way: the eight codes are exhaustive. -/
def kindOfCode (c : BitVec 3) : CycleKind :=
  if c = 0b000#3 then .intAck
  else if c = 0b001#3 then .ioRead
  else if c = 0b010#3 then .ioWrite
  else if c = 0b011#3 then .halt
  else if c = 0b100#3 then .codeAccess
  else if c = 0b101#3 then .memRead
  else if c = 0b110#3 then .memWrite
  else .passive

/-- R96: the code `S4 S3` of a segment. -/
def Seg.code : Seg → BitVec 2
  | .es => 0b00#2
  | .ss => 0b01#2
  | .cs => 0b10#2
  | .ds => 0b11#2

/-- R96 read the other way. -/
def segOfCode (c : BitVec 2) : Seg :=
  if c = 0b00#2 then .es
  else if c = 0b01#2 then .ss
  else if c = 0b10#2 then .cs
  else .ds

/-- R101: the code `QS1 QS0`; `none` is "No operation". -/
def queueCode : Option QueueOp → BitVec 2
  | none => 0b00#2
  | some .first => 0b01#2
  | some .flush => 0b10#2
  | some .next => 0b11#2

/-- R101 read the other way. -/
def queueOfCode (c : BitVec 2) : Option QueueOp :=
  if c = 0b00#2 then none
  else if c = 0b01#2 then some .first
  else if c = 0b10#2 then some .flush
  else some .next

/-- `A0` of a physical address (R13): odd exactly when it is 1. -/
def isOdd (pa : Addr) : Bool := pa.getLsbD 0

/-- R103: the level of `BHE` for a cycle that moves `width` bits at `pa`: 0 exactly when a byte travels on
`D15..D8`, that is for a byte at an odd address and for a word. -/
def bheLevel (pa : Addr) (width : Nat) : Bool := !(isOdd pa || decide (width = 16))

end Sys2Proof.Machine
end

