-- ==== Sys2Proof/Machine/Bus.lean ====
section
/-! DEFINITION. The bus cycle (20_memory.md R47 to R53, R62, R65; 42_bus_control.md R110, R114, R115)
and the code fetch that fills the queue (10_state.md R28, 20_memory.md R56, D10). -/

namespace Sys2Proof.Machine

open Sys2Proof

/-- How a part of an instruction ends: done, waiting for the bus or for `READY`, or without a meaning. -/
inductive MicroRes where
  | ok (s : State)
  | parked (s : State)
  | refused (r : Refusal)
  deriving DecidableEq, Repr

/-- How many free values one bus cycle may use. -/
def drawsPerCycle : Nat := 4

/-- The level recorded for `BHE` (R47 g, R103): none on the 8088, open on `IntAck` and `Halt` (U8). -/
def State.bheOf (s : State) (kind : CycleKind) (pa : Addr) (width : Nat) : Option Bool :=
  match s.cfg.chip with
  | .i8088 => none
  | .i8086 =>
    if kind = .intAck ∨ kind = .halt then some (Config.freeBit s.draws) else some (bheLevel pa width)

/-- `S7` of the record: the 8086 only, open (R99, U7). -/
def State.s7Of (s : State) : Option Bool :=
  match s.cfg.chip with
  | .i8088 => none
  | .i8086 => some (Config.freeBit (s.draws + 1))

/-- `S4 S3` of the record (R96); open where the cycle uses no segment (R65, U6). -/
def State.segOf (s : State) : Option Seg → BitVec 2
  | some g => g.code
  | none => Config.freeSeg s.draws

/-- The address of the record; open on `Halt` (R130) and `IntAck` (R140). -/
def State.paOf (s : State) (kind : CycleKind) (pa : Addr) : Addr :=
  if kind = .intAck ∨ kind = .halt then Config.freeAddr s.draws else pa

/-- R47 g: append the record of a cycle the processor has run. -/
def State.logCycle (s : State) (c : Cycle) (data : Option Word) : State :=
  { s with
    history := s.history ++ [{
      master := .cpu, kind := c.kind, pa := s.paOf c.kind c.pa
      bhe := s.bheOf c.kind c.pa c.width, width := c.width, data := data
      seg := s.segOf c.seg, ifl := s.flags.ifl, locked := s.lockActive, s7 := s.s7Of }]
    draws := s.draws + drawsPerCycle }

/-- The physical addresses a cycle of this width at `pa` touches (R48 to R53). -/
def targets (pa : Addr) (width : Nat) : List Addr :=
  if width = 16 then [pa, pa + 1#20] else if width = 8 then [pa] else []

/-- The bytes a read takes, least significant first (R54). -/
def State.readBytes (s : State) (pa : Addr) (width : Nat) : List Byte :=
  if width = 16 then [s.byteAt pa 0, s.byteAt (pa + 1#20) 1]
  else if width = 8 then [s.byteAt pa 0] else []

/-- The word that stands for the bytes on the data lines. -/
def wordOfBytes : List Byte → Word
  | [] => 0#16
  | [b] => b.setWidth 16
  | lo :: hi :: _ => joinBytes hi lo

/-- Store what a write drives, least significant byte first (R54). -/
def State.storeBytes (s : State) (pa : Addr) (width : Nat) (data : Word) : State :=
  if width = 16 then (s.storeByte pa (loByte data)).storeByte (pa + 1#20) (hiByte data)
  else if width = 8 then s.storeByte pa (loByte data) else s

/-- R62: the queue holds a byte fetched from one of the addresses. -/
def State.inQueue (s : State) (as : List Addr) : Bool :=
  as.any fun a => s.queue.any fun q => q.1 == a.toNat

/-- Steps (f) and (g) of R47 for a cycle an instruction or entry asked for. -/
def State.completeData (s : State) (c : Cycle) : MicroRes :=
  match c.kind with
  | .memRead =>
    let bs := s.readBytes c.pa c.width
    .ok ({ s with latch := s.latch ++ bs }.logCycle c (some (wordOfBytes bs)))
  | .memWrite =>
    if s.inQueue (targets c.pa c.width) then .refused .staleQueue
    else .ok ((s.storeBytes c.pa c.width c.data).logCycle c (some c.data))
  | .intAck =>
    if c.width = 8 then
      let b := s.pins.vector.getD (Config.freeByte s.draws)
      .ok ({ s with latch := s.latch ++ [b] }.logCycle c (some (b.setWidth 16)))
    else .ok (s.logCycle c none)
  | _ => .ok (s.logCycle c none)

/-- The code access that would come next (R28, R56): a word at an even address on the 8086, else a byte. With
another `phys` than R43's a word only where its second byte is the next one of the code segment (log 32); with
R43's it always is (`State.codeCycle_gk`). -/
def State.codeCycle (s : State) : Cycle :=
  let pa := phys s.cfg s.cs s.fetchOff
  { kind := .codeAccess, pa := pa
    width := if s.cfg.chip = .i8086 ∧ isOdd pa = false ∧ phys s.cfg s.cs (s.fetchOff + 1#16) = pa + 1#20 then 16
      else 8
    data := 0#16, seg := some .cs }

/-- How many bytes it fetches. -/
def State.codeBytes (s : State) : Nat := s.codeCycle.width / 8

/-- The queue has room for what it would fetch (D10). -/
def State.hasRoom (s : State) : Bool := decide (s.queue.length + s.codeBytes ≤ s.cfg.qlen)

/-- A code access ends: its bytes join the queue with their addresses (R28, R59). -/
def State.completeFetch (s : State) : State :=
  let c := s.codeCycle
  let bs := s.readBytes c.pa c.width
  { s with
    queue := s.queue ++ ((targets c.pa c.width).map BitVec.toNat).zip bs
    fetchOff := s.fetchOff + BitVec.ofNat 16 s.codeBytes
    busy := none }.logCycle c (some (wordOfBytes bs))

/-- A cycle in progress is a code access. -/
def State.fetching (s : State) : Bool := decide (s.busy = some .fetch)

/-- R47 a, R114, R115: the processor may start a bus cycle now. -/
def State.mayStart (s : State) : Bool :=
  decide (s.busOwner = .cpu) && decide (s.turn.cycles ≠ some 0)

/-- A started cycle counts against the turn's allowance. -/
def State.spend (s : State) : State :=
  { s with turn := { s.turn with cycles := s.turn.cycles.map fun k => k - 1 } }

/-- R47 e, R110: a started code access ends when `READY = 1`, else it stays in progress. -/
def State.endFetch (s : State) : MicroRes :=
  if s.pins.ready then .ok s.completeFetch else .parked { s with busy := some .fetch }

/-- R47 e, R110: a started data cycle ends when `READY = 1`, else it stays in progress. -/
def State.endData (s : State) (c : Cycle) : MicroRes :=
  if s.pins.ready then { s with busy := none }.completeData c else .parked { s with busy := some (.data c) }

/-- R47 a: start a data cycle, or wait until the bus is there. -/
def State.startData (s : State) (c : Cycle) : MicroRes :=
  if s.mayStart then s.spend.endData c else .parked s

/-- R47: run one bus cycle of an instruction or entry. A code access in progress ends first: no bus cycle
overlaps another (R59). A data cycle in progress is this one, held by `READY` (R110). -/
def State.runCycle (s : State) (c : Cycle) : MicroRes :=
  match s.busy with
  | none => s.startData c
  | some (.data _) => s.endData c
  | some .fetch =>
    match s.endFetch with
    | .ok s' => s'.startData c
    | .parked s' => .parked s'
    | .refused r => .refused r

/-- R28: have a byte at the head of the queue, by a code access if it is empty. -/
def State.fillQueue (s : State) : MicroRes :=
  match s.queue with
  | _ :: _ => .ok s
  | [] =>
    match s.busy with
    | some .fetch => s.endFetch
    | some (.data _) => .parked s
    | none => if s.mayStart && s.hasRoom then s.spend.endFetch else .parked s

/-- R102: the queue-status history exists in maximum mode. -/
def State.reportQueue (s : State) (q : QueueOp) : State :=
  match s.cfg.mode with
  | .min => s
  | .max => { s with qsHistory := s.qsHistory ++ [q] }

/-- R29: empty the queue and fetch next at the current `IP`. -/
def State.flushQueue (s : State) : State :=
  { s with queue := [], fetchOff := s.ip, busy := none }.reportQueue .flush

end Sys2Proof.Machine
end

