-- ==== Sys2Proof/Machine/Ops.lean ====
section
/-! DEFINITION. The named operations the instructions share: push and pop (00_scope.md R14), taking an
interrupt (60_exceptions.md R147), returning from one (45_interrupt_instructions.md R134), the
acknowledge (R140), and running an instruction's accesses one bus cycle at a time (R47, R110, R115). -/

namespace Sys2Proof.Machine

open Sys2Proof

/-- R50, R51, R53: the bus cycles of a word access at `pa`: one on the 8086 at an even address, else two,
the lower address first. -/
def wordCycles (chip : Chip) (kind : CycleKind) (pa : Addr) (v : Word) (seg : Option Seg) : List Cycle :=
  if chip = .i8086 ∧ isOdd pa = false then [⟨kind, pa, 16, v, seg⟩]
  else [⟨kind, pa, 8, (loByte v).setWidth 16, seg⟩, ⟨kind, pa + 1#20, 8, (hiByte v).setWidth 16, seg⟩]

/-- R55: the accesses without a meaning: offset `FFFFH`, or physical address `FFFFFH`. -/
def wordAtEnd (p : Params) (seg off : Word) : Bool :=
  decide (off = 0xFFFF#16) || decide (phys p seg off = 0xFFFFF#20)

/-- A word access to the stack segment at offset `off` (R44, R179). -/
def State.stackWord (s : State) (kind : CycleKind) (off v : Word) : List Micro :=
  if wordAtEnd s.cfg s.ss off then [.refuse .wordAtSegmentEnd]
  else (wordCycles s.cfg.chip kind (phys s.cfg s.ss off) v (some .ss)).map .cycle

/-- R14: `push(v)` from stack pointer `sp`: `SP <- SP - 2`, then the word at `phys(SS, SP)`. -/
def State.pushOps (s : State) (sp v : Word) : List Micro :=
  .setSp (sp - 2#16) :: s.stackWord .memWrite (sp - 2#16) v

/-- R14: `pop()` from stack pointer `sp`: the word at `phys(SS, SP)`, then `SP <- SP + 2`. -/
def State.popOps (s : State) (sp : Word) : List Micro :=
  s.stackWord .memRead sp 0#16 ++ [.setSp (sp + 2#16)]

/-- The physical address `4*n` of a vector (R147); `4*n` alone, with no segment register (R44). -/
def vectorAddr (n : Nat) : Addr := BitVec.ofNat 20 (4 * n)

/-- One of the two word reads of a vector (R147, R65). -/
def State.vectorRead (s : State) (pa : Addr) : List Micro :=
  (wordCycles s.cfg.chip .memRead pa 0#16 none).map .cycle

/-- The six stack bytes of an entry with stack pointer `sp` (R147). -/
def State.entryStack (s : State) (sp : Word) : List Addr :=
  [phys s.cfg s.ss (sp - 2#16), phys s.cfg s.ss (sp - 2#16) + 1#20,
    phys s.cfg s.ss (sp - 4#16), phys s.cfg s.ss (sp - 4#16) + 1#20,
    phys s.cfg s.ss (sp - 6#16), phys s.cfg s.ss (sp - 6#16) + 1#20]

/-- The four bytes of vector `n` (R147). -/
def vectorBytes (n : Nat) : List Addr :=
  [vectorAddr n, vectorAddr n + 1#20, vectorAddr n + 2#20, vectorAddr n + 3#20]

/-- R147: a stack byte of the entry lies on a byte of its vector. -/
def State.overVector (s : State) (n : Nat) : Bool :=
  (s.entryStack s.gen.sp).any fun a => (vectorBytes n).contains a

/-- R147: the five accesses of an entry in the order the turn gives (U19): the writes in their order, the
reads in theirs, each read after as many writes as the order says. -/
def mergeEntry {α : Type} (o : EntryOrder) (writes : List (List α)) (readIp readCs : List α) : List α :=
  (writes.take o.first).flatten ++ readIp ++ ((writes.take o.second).drop o.first).flatten ++ readCs ++
    (writes.drop (max o.first o.second)).flatten

/-- TAKING AN INTERRUPT, `raise Interrupt(n)` (R147): push the flags image, clear `IF` and `TF`, push `CS`
and the offset `ip` (R148 says which), read the vector at `4*n` and `4*n + 2`, go there, empty the
queue. -/
def State.interruptEntry (s : State) (n : Nat) (ip : Word) : List Micro :=
  if s.overVector n then [.refuse .stackOverVector]
  else
    let sp := s.gen.sp
    mergeEntry s.turn.order
      [s.pushOps sp (s.flags.image s.cfg.flagsFixed) ++ [.clearIfTf],
        s.pushOps (sp - 2#16) s.cs, s.pushOps (sp - 4#16) ip]
      (s.vectorRead (vectorAddr n)) (s.vectorRead (vectorAddr n + 2#20)) ++ [.enterHandler]

/-- RETURNING FROM ONE (R134): pop `IP`, `CS` and the flags image, then load them and empty the queue. -/
def State.interruptReturn (s : State) : List Micro :=
  let sp := s.gen.sp
  s.popOps sp ++ s.popOps (sp + 2#16) ++ s.popOps (sp + 4#16) ++ [.leaveHandler]

/-- R140: the acknowledge cycles; the last one reads the type number. -/
def ackCycles (count : Nat) : List Micro :=
  List.replicate (count - 1) (.cycle ⟨.intAck, 0#20, 0, 0#16, none⟩) ++
    [.cycle ⟨.intAck, 0#20, 8, 0#16, none⟩]

/-- R130: the one `Halt` cycle, which moves no data. -/
def haltCycle : Cycle := ⟨.halt, 0#20, 0, 0#16, none⟩

/-- The end of an instruction begun with `TF = tfb`: `LOCK` ends (R129), the inhibition of an earlier
`STI` ends (R126), and the boundary is to be examined (R138). -/
def State.endInstr (s : State) (tfb : Bool) : State :=
  { s with lockActive := false, intInhibit := false, boundary := some tfb }

/-- The end of an entry taken at a boundary: another boundary, without a single-step trap (R138). -/
def State.endEntry (s : State) : State :=
  { s with intInhibit := false, boundary := some false }

/-- R147: the last part of an entry; the latch holds the two words of the vector. -/
def State.enterHandler (s : State) : State :=
  { s with
    ip := joinBytes (s.latch.getD 1 0#8) (s.latch.getD 0 0#8)
    cs := joinBytes (s.latch.getD 3 0#8) (s.latch.getD 2 0#8)
    halted := false, waiting := false, latch := [] }.flushQueue

/-- R134: the last part of a return; the latch holds the three popped words. -/
def State.leaveHandler (s : State) : State :=
  { s with
    ip := joinBytes (s.latch.getD 1 0#8) (s.latch.getD 0 0#8)
    cs := joinBytes (s.latch.getD 3 0#8) (s.latch.getD 2 0#8)
    flags := Flags.ofImage (joinBytes (s.latch.getD 5 0#8) (s.latch.getD 4 0#8))
    latch := [] }.flushQueue

/-- R140: the acknowledge has read the type number; what is left is the entry. -/
def State.enterType (s : State) (ip : Word) : State :=
  { s with
    micro := s.interruptEntry (s.latch.getLastD 0#8).toNat ip ++ [.endEntry]
    latch := [] }

/-- R130: `halted <- 1`; a `LOCK` prefix ends here (R129), and `STI`'s inhibition too (R126). -/
def State.enterHalt (s : State) : State :=
  { s with halted := true, lockActive := false, intInhibit := false, boundary := none }

/-- Run one part of an instruction or entry. -/
def State.doMicro (s : State) : Micro → MicroRes
  | .cycle c => s.runCycle c
  | .setSp v => .ok (s.setSp v)
  | .clearIfTf => .ok s.clearIfTf
  | .enterHandler => .ok s.enterHandler
  | .leaveHandler => .ok s.leaveHandler
  | .enterType ip => .ok (s.enterType ip)
  | .enterHalt => .ok s.enterHalt
  | .endInstr tfb => .ok (s.endInstr tfb)
  | .endEntry => .ok s.endEntry
  | .refuse r => .refused r

/-- Run the parts in order until all are done or one has to wait; what is left then stays in `micro`. -/
def runMicros : List Micro → State → MicroRes
  | [], s => .ok s
  | m :: ms, s =>
    match s.doMicro m with
    | .ok s' => runMicros ms s'
    | .parked s' => .parked { s' with micro := m :: ms }
    | .refused r => .refused r

/-- A part that waits is no fault and no final state: the step answers the state in which it waits
(R110). -/
def MicroRes.toOutcome : MicroRes → Host.Outcome State Fault Refusal
  | .ok s => .next s
  | .parked s => .next s
  | .refused r => .refused r

/-- Start the accesses of an instruction or entry. -/
def State.start (s : State) (ms : List Micro) : Host.Outcome State Fault Refusal :=
  (runMicros ms { s with latch := [] }).toOutcome

/-- Go on with what waits. -/
def State.resume (s : State) : Host.Outcome State Fault Refusal :=
  (runMicros s.micro { s with micro := [] }).toOutcome

end Sys2Proof.Machine
end

