-- ==== Sys2Proof/Machine/Fetch.lean ====
section
/-! DEFINITION. Taking an instruction's bytes from the queue (30_encoding.md R67, R69; 10_state.md R19,
R28; 41_status_signals.md R102), and placing an instruction where the next one is fetched. -/

namespace Sys2Proof.Machine

open Sys2Proof

/-- What the processor does before `exec`: run this instruction in this state, or end the step. -/
inductive Prepared where
  | run (i : Instr) (s : State)
  | done (o : Host.Outcome State Fault Refusal)

/-- The byte at the head of the queue goes to the decoder (R67): `IP` advances by 1 (R19, R177 a), the
queue status reports it (R102), and the first byte of an instruction, its `LOCK` prefix included, marks
where the instruction starts (R127, R151). -/
def State.takeByte (s : State) (b : Byte) (rest : List Host.Cell) : State :=
  { s with
    queue := rest
    ip := s.ip + 1#16
    opbuf := s.opbuf ++ [b]
    insnStart := if s.opbuf = [] ∧ s.lockActive = false then s.ip else s.insnStart
  }.reportQueue (if s.opbuf = [] then .first else .next)

/-- Take one byte, by a code access first if the queue is empty (R28). -/
def State.takeNext (s : State) : MicroRes :=
  match s.fillQueue with
  | .ok s' =>
    match s'.queue with
    | q :: rest => .ok (s'.takeByte q.2 rest)
    | [] => .parked s'
  | .parked s' => .parked s'
  | .refused r => .refused r

/-- Take bytes until an instruction is complete (R69); `k` bounds how many. -/
def fetchInstr : Nat → State → Prepared
  | 0, s => .done (.next s)
  | k + 1, s =>
    match s.takeNext with
    | .refused r => .done (.refused r)
    | .parked s' => .done (.next s')
    | .ok s' =>
      match decode s'.cfg.opc s'.opbuf with
      | .ok (i, _) => .run i { s' with opbuf := [] }
      | .error .truncated => fetchInstr k s'
      | .error (.outOfScope b) => .done (.refused (.opcodeOutOfScope b))

/-- Store bytes from an offset of the code segment on, where the launch then declares memory. -/
def State.placeCode (s : State) (off : Word) : List Byte → State
  | [] => s
  | b :: rest =>
    { s with mem := Memory.write s.mem (phys s.cfg s.cs off).toNat b }.placeCode (off + 1#16) rest

/-- `s` with the bytes of an instruction where the next step fetches: in memory from `CS:IP` on, with an
empty queue, declared memory, no prefix taken, and nothing else due before it (log 11). -/
def State.placeInstr (s : State) (bytes : List Byte) : State :=
  { s.placeCode s.ip bytes with
    absent := [], queue := [], fetchOff := s.ip, opbuf := [], busy := none, micro := []
    halted := false, waiting := false, lockActive := false, boundary := none, script := []
    busOwner := .cpu, req0 := false, req1 := false
    pins := { s.pins with reset := false, ready := true, hold := false } }

end Sys2Proof.Machine
end

