-- ==== Sys2Proof/Machine/Boundary.lean ====
section
/-! DEFINITION. Instruction boundaries, idling, and what the processor does in its turn
(60_exceptions.md R137, R138, R146, R148, R151, R159; 44_sync_instructions.md R127, R130;
42_bus_control.md R110). -/

namespace Sys2Proof.Machine

open Sys2Proof

/-- What a boundary leads to (R138). -/
inductive Boundary where
  | pass
  | enter (n : Nat)
  | acknowledge
  | refuse
  deriving DecidableEq, Repr

/-- R137: `INTR` is due when its pin is 1 and `IF = 1`. -/
def State.dueIntr (s : State) : Bool := s.pins.intr && s.flags.ifl

/-- R138: whether a due `INTR` is taken here; at the boundary right after `STI` the turn decides
(`take_anyway`, U14). -/
def State.takesIntr (s : State) : Bool := s.dueIntr && (!s.intInhibit || s.turn.alt)

/-- R138: the boundary after something that began with `TF = tfb`. -/
def State.examine (s : State) (tfb : Bool) : Boundary :=
  if tfb && (s.nmiPending || s.dueIntr) then .refuse
  else if s.nmiPending then .enter 2
  else if s.takesIntr then .acknowledge
  else if tfb then .enter 1
  else .pass

/-- R138, R151: start the entry a boundary or an idle examination leads to, saving offset `ip` (R148);
`NMI` forgets its request. -/
def State.takeInterrupt (s : State) (n : Nat) (ip : Word) : Host.Outcome State Fault Refusal :=
  let s' := if n = 2 then { s with nmiPending := false } else s
  s'.start (s'.interruptEntry n ip ++ [.endEntry])

/-- R138, R140: run the acknowledge; the entry follows with nothing between. -/
def State.acknowledge (s : State) (ip : Word) : Host.Outcome State Fault Refusal :=
  s.start (ackCycles s.cfg.intaCycles ++ [.enterType ip])

/-- R151: what an idle processor leaves before an interrupt, and the offset it saves: for `WAIT` its own
address, with any `LOCK` ended; for `HLT` the address after it. R129 and R151 end the `LOCK` at the start of the
entry or before it; that it ends before the acknowledge cycles of an `INTR` too, whose records are then not
locked and between which a line may be granted, is a DESIGN CHOICE (log 29). -/
def State.leaveIdle (s : State) : State × Word :=
  if s.halted then ({ s with halted := false }, s.ip)
  else ({ s with lockActive := false }, s.insnStart)

/-- R127: a waiting processor may be released; with the turn's second choice a due interrupt comes first
(D23). -/
def State.releases (s : State) : Bool :=
  s.waiting && !s.halted && !s.pins.test && !(s.turn.alt && (s.nmiPending || s.takesIntr))

/-- R151: an idle processor: release of a `WAIT` (R127), else `NMI`, else `INTR` (no single step), else
idle on. -/
def State.idleTurn (s : State) : Host.Outcome State Fault Refusal :=
  if s.releases then .next ({ s with waiting := false }.endInstr s.flags.tf)
  else if s.nmiPending then
    let (s', ip) := s.leaveIdle
    s'.takeInterrupt 2 ip
  else if s.takesIntr then
    let (s', ip) := s.leaveIdle
    s'.acknowledge ip
  else .next s

/-- R110, R159: the processor is idle while `READY = 0` holds a bus cycle, one of its own or a code access of
its bus interface (`none`); a held code access ends before the processor does anything else, so that its
record is the one it has without wait states (log 23). -/
def State.afterWait (s : State) : Option State :=
  match s.busy with
  | none => some s
  | some (.data _) => if s.pins.ready then some s else none
  | some .fetch => if s.pins.ready then some s.completeFetch else none

/-- What a processor that no bus cycle holds does: go on with what waits, idle, examine a boundary, or take
the next instruction. -/
def State.proceed (s : State) : Prepared :=
  match s.micro with
  | _ :: _ => .done s.resume
  | [] =>
    if s.halted || s.waiting then .done s.idleTurn
    else
      match s.boundary with
      | none => fetchInstr maxInstrBytes s
      | some tfb =>
        let s' := { s with boundary := none }
        match s.examine tfb with
        | .refuse => .done (.refused .simultaneousWithSingleStep)
        | .enter n => .done (s'.takeInterrupt n s.ip)
        | .acknowledge => .done (s'.acknowledge s.ip)
        | .pass => fetchInstr maxInstrBytes s'

/-- What the processor does when it moves: nothing while `RESET = 1` (R161) or while a bus cycle is held
(R110, R159). -/
def State.prepare (s : State) : Prepared :=
  if s.pins.reset then .done (.next s)
  else
    match s.afterWait with
    | none => .done (.next s)
    | some s' => s'.proceed

end Sys2Proof.Machine
end

