-- ==== Sys2Proof/Machine/FlagInstructions.lean ====
section
/-! DEFINITION. The interrupt-flag instructions (43_flag_instructions.md R125, R126). `IP` has already
been advanced when a meaning runs (10_state.md R19). -/

namespace Sys2Proof.Machine

open Sys2Proof

/-- R125: `IF <- 0`. -/
def execCli (s : State) : Host.Outcome State Fault Refusal :=
  .next ((s.setIf false).endInstr s.flags.tf)

/-- R126: `IF <- 1; int_inhibit <- 1`. -/
def execSti (s : State) : Host.Outcome State Fault Refusal :=
  .next { (s.setIf true).endInstr s.flags.tf with intInhibit := true }

end Sys2Proof.Machine
end

