-- ==== Sys2Proof/Machine/InterruptInstructions.lean ====
section
/-! DEFINITION. The software-interrupt instructions (45_interrupt_instructions.md R131 to R134). The
offset an entry saves is that of the following instruction (60_exceptions.md R148). -/

namespace Sys2Proof.Machine

open Sys2Proof

/-- R131: `raise Interrupt(n)`. -/
def execIntN (n : Nat) (s : State) : Host.Outcome State Fault Refusal :=
  s.start (s.interruptEntry n s.ip ++ [.endInstr s.flags.tf])

/-- R132: `raise Interrupt(3)`. -/
def execInt3 (s : State) : Host.Outcome State Fault Refusal :=
  s.start (s.interruptEntry 3 s.ip ++ [.endInstr s.flags.tf])

/-- R133: `raise Interrupt(4)` if `OF = 1`, else nothing. -/
def execInto (s : State) : Host.Outcome State Fault Refusal :=
  if s.flags.of then s.start (s.interruptEntry 4 s.ip ++ [.endInstr s.flags.tf])
  else .next (s.endInstr s.flags.tf)

/-- R134. -/
def execIret (s : State) : Host.Outcome State Fault Refusal :=
  s.start (s.interruptReturn ++ [.endInstr s.flags.tf])

end Sys2Proof.Machine
end

