-- ==== Sys2Proof/Machine/SyncInstructions.lean ====
section
/-! DEFINITION. The synchronisation instructions (44_sync_instructions.md R127 to R130). -/

namespace Sys2Proof.Machine

open Sys2Proof

/-- R129, R69: the prefix makes `lock_active` 1 until the end of the next instruction; no boundary lies
between. A second `LOCK` code after a first is no instruction (R71, R75). -/
def execLock (s : State) : Host.Outcome State Fault Refusal :=
  if s.lockActive then .refused (.opcodeOutOfScope s.cfg.opc.lock)
  else .next { s with lockActive := true, boundary := none }

/-- R128. -/
def execNop (s : State) : Host.Outcome State Fault Refusal :=
  .next (s.endInstr s.flags.tf)

/-- R127: with `TEST = 0` as `NOP`; with `TEST = 1` idle (`waiting`), which `idleTurn` goes on from. -/
def execWait (s : State) : Host.Outcome State Fault Refusal :=
  if s.pins.test then .next { s with waiting := true, intInhibit := false, boundary := none }
  else .next ({ s with waiting := false }.endInstr s.flags.tf)

/-- R130: one `Halt` cycle, then `halted`, which `idleTurn` goes on from. -/
def execHlt (s : State) : Host.Outcome State Fault Refusal :=
  s.start [.cycle haltCycle, .enterHalt]

end Sys2Proof.Machine
end

