-- ==== Sys2Proof/Machine/Dispatch.lean ====
section
/-! DEFINITION. The dispatch: one arm per constructor of `Instr` (30_encoding.md R72). -/

namespace Sys2Proof.Machine

open Sys2Proof

/-- The meaning of an instruction whose bytes have been taken. -/
def exec (i : Instr) (s : State) : Host.Outcome State Fault Refusal :=
  match i with
  | .lock => Sys2Proof.Machine.execLock s
  | .nop => Sys2Proof.Machine.execNop s
  | .wait => Sys2Proof.Machine.execWait s
  | .int3 => Sys2Proof.Machine.execInt3 s
  | .intN n => Sys2Proof.Machine.execIntN n s
  | .into => Sys2Proof.Machine.execInto s
  | .iret => Sys2Proof.Machine.execIret s
  | .hlt => Sys2Proof.Machine.execHlt s
  | .cli => Sys2Proof.Machine.execCli s
  | .sti => Sys2Proof.Machine.execSti s

end Sys2Proof.Machine
end

