-- ==== Sys2Proof/Machine/Environment.lean ====
section
/-! DEFINITION. The other agents: the bus interface (42_bus_control.md R114, R118; 20_memory.md D10),
RESET (70_reset_and_hazards.md R161 to R165), the input pins (10_state.md R37), the other bus masters
(R124), and the default schedule (log 2). -/

namespace Sys2Proof.Machine

open Sys2Proof

/-- Which master a line serves (R117). -/
def Line.master : Line → Master
  | .gt0 => .gt0
  | .gt1 => .gt1

/-- `req_i` (R118). -/
def State.req (s : State) : Line → Bool
  | .gt0 => s.req0
  | .gt1 => s.req1

/-- `req_i <- b` (R118). -/
def State.setReq (s : State) (l : Line) (b : Bool) : State :=
  match l with
  | .gt0 => { s with req0 := b }
  | .gt1 => { s with req1 := b }

/-- R114: `grant_hold` is enabled. -/
def State.canGrantHold (s : State) : Bool :=
  decide (s.cfg.mode = .min) && decide (s.busOwner = .cpu) && s.pins.hold && s.busy.isNone

/-- R114: `release_hold` is enabled. -/
def State.canReleaseHold (s : State) : Bool :=
  decide (s.busOwner = .hold) && !s.pins.hold

/-- R118: `grant_i` is enabled; `RQ/GT0` comes first. -/
def State.canGrantLine (s : State) (l : Line) : Bool :=
  decide (s.cfg.mode = .max) && decide (s.busOwner = .cpu) && s.req l && !s.lockActive &&
    s.busy.isNone && (decide (l = .gt0) || !s.req0)

/-- R118: hand the bus over; the processor pulses the line, which the grant history remembers (R9). -/
def State.grantLine (s : State) (l : Line) : State :=
  { s.setReq l false with
    busOwner := l.master, grants := s.grants ++ [{ line := l, cycles := s.history.length }] }

/-- D10, R130: a prefetch may start: the bus is free, the queue has room, the processor is not halted. -/
def State.canPrefetch (s : State) : Bool :=
  decide (s.busOwner = .cpu) && s.busy.isNone && s.hasRoom && !s.halted

/-- The bus interface runs a code access, or goes on with the one in progress (R110). -/
def State.codeFetch (s : State) : Option (Host.Outcome State Fault Refusal) :=
  if s.fetching || s.canPrefetch then
    match s.endFetch with
    | .ok s' => some (.next s')
    | .parked s' => some (.next s')
    | .refused r => some (.refused r)
  else none

/-- A step of the bus interface (R10 b); while `RESET = 1` there is none (R165). -/
def State.busStep (s : State) (b : BusAct) : Option (Host.Outcome State Fault Refusal) :=
  if s.pins.reset then none
  else
    match b with
    | .codeFetch => s.codeFetch
    | .grantHold => if s.canGrantHold then some (.next { s with busOwner := .hold }) else none
    | .releaseHold => if s.canReleaseHold then some (.next { s with busOwner := .cpu }) else none
    | .grantLine l => if s.canGrantLine l then some (.next (s.grantLine l)) else none

/-- A step of the bus interface that a script names; one that is not enabled is no run of the spec. -/
def State.busAct (s : State) (b : BusAct) : Host.Outcome State Fault Refusal :=
  match s.busStep b with
  | some o => o
  | none => .fault (.notEnabled (.bus b))

/-- The default schedule of the bus interface (weak fairness of R114, R118; log 2): end a code access
that can end, take back the bus, grant it; else nothing. -/
def State.settle (s : State) : Option (Host.Outcome State Fault Refusal) :=
  if s.pins.reset then none
  else if s.fetching && s.pins.ready then s.busStep .codeFetch
  else if s.canReleaseHold then s.busStep .releaseHold
  else if s.canGrantHold then s.busStep .grantHold
  else if s.canGrantLine .gt0 then s.busStep (.grantLine .gt0)
  else if s.canGrantLine .gt1 then s.busStep (.grantLine .gt1)
  else none

/-- R162: everything but memory, the platform and the outside world is as R39 says; a new run begins. -/
def State.applyReset (s : State) : State :=
  { State.resetWith s.cfg with
    mem := s.mem, absent := s.absent, pins := s.pins, script := s.script, draws := s.draws }

/-- R162, U12: a write cut short by RESET leaves its target bytes with any value. -/
def State.cutShort (s : State) : State :=
  match s.busy with
  | some (.data c) =>
    if c.kind = .memWrite then
      { s.storeBytes c.pa c.width (joinBytes (Config.freeByte (s.draws + 1)) (Config.freeByte s.draws))
        with draws := s.draws + drawsPerCycle }
    else s
  | some .fetch => s
  | none => s

/-- R161, R162, R165: the pin `RESET`: at 1 everything is abandoned, at 0 again a run starts. -/
def State.resetPin (s : State) (level : Bool) : State :=
  let s' := { s with pins := { s.pins with reset := level } }
  if s.pins.reset = level then s'
  else if level then s'.cutShort.applyReset else s'.applyReset

/-- R142: a rising edge on `NMI` is latched; not while `RESET = 1` (R165). -/
def State.nmiPin (s : State) (level : Bool) : State :=
  { s with
    pins := { s.pins with nmi := level }
    nmiPending := s.nmiPending || (level && !s.pins.nmi && !s.pins.reset) }

/-- R86: `MN/MX` is a strap; its level is that of the mode. -/
def strapLevel : Mode → Bool
  | .min => true
  | .max => false

/-- The environment sets an input pin (R37). `HOLD` exists in minimum mode only (R116); a change of the
strap is refused (R86, U9). -/
def State.setPin (s : State) (p : InPin) (level : Bool) : Host.Outcome State Fault Refusal :=
  match p with
  | .reset => .next (s.resetPin level)
  | .ready => .next { s with pins := { s.pins with ready := level } }
  | .test => .next { s with pins := { s.pins with test := level } }
  | .intr => .next { s with pins := { s.pins with intr := level } }
  | .nmi => .next (s.nmiPin level)
  | .hold =>
    if s.cfg.mode = .min then .next { s with pins := { s.pins with hold := level } }
    else .fault (.notEnabled (.env (.pin .hold level)))
  | .mnmx =>
    if level = strapLevel s.cfg.mode then .next { s with pins := { s.pins with mnmx := level } }
    else .refused .modeChanged

/-- R118: `request_i`. A request during RESET is forgotten when RESET ends (R39). -/
def State.request (s : State) (l : Line) : Host.Outcome State Fault Refusal :=
  if s.cfg.mode = .max ∧ s.busOwner ≠ l.master ∧ s.req l = false then .next (s.setReq l true)
  else .fault (.notEnabled (.env (.request l)))

/-- R118: `release_i`. -/
def State.release (s : State) (l : Line) : Host.Outcome State Fault Refusal :=
  if s.busOwner = l.master then .next { s with busOwner := .cpu }
  else .fault (.notEnabled (.env (.release l)))

/-- R124, R57: a cycle another master can run: it owns the bus, the kind is a memory or port access, the
width is what one cycle of this part moves, and a port number fits (R42). -/
def State.masterMay (s : State) (kind : CycleKind) (pa : Addr) (width : Nat) : Bool :=
  decide (s.busOwner ≠ .cpu) &&
    (decide (width = 8) || (decide (width = 16) && decide (s.cfg.chip = .i8086) && !isOdd pa)) &&
    match kind with
    | .memRead => true
    | .memWrite => true
    | .ioRead => decide (pa.toNat < 2 ^ s.cfg.iow)
    | .ioWrite => decide (pa.toNat < 2 ^ s.cfg.iow)
    | _ => false

/-- What a cycle of another master moves (R58, R124): memory's bytes, its own data, or, from a port, a free
value. -/
def State.masterData (s : State) (kind : CycleKind) (pa : Addr) (width : Nat) (data : Word) : Word :=
  if kind = .memRead then wordOfBytes (s.readBytes pa width)
  else if kind = .ioRead then
    if width = 16 then joinBytes (Config.freeByte (s.draws + 1)) (Config.freeByte s.draws)
    else (Config.freeByte s.draws).setWidth 16
  else if width = 16 then data else (loByte data).setWidth 16

/-- R47 g, R124: append the record of another master's cycle. `S4 S3`, `S5` and `S7` are not driven by the
processor then (R98, R108), so they are open. -/
def State.logMaster (s : State) (kind : CycleKind) (pa : Addr) (width : Nat) (data : Word) : State :=
  { s with
    history := s.history ++ [{
      master := s.busOwner, kind := kind, pa := pa, bhe := s.bheOf kind pa width, width := width
      data := some data, seg := Config.freeSeg s.draws, ifl := Config.freeBit (s.draws + 2)
      locked := false, s7 := s.s7Of }]
    draws := s.draws + drawsPerCycle }

/-- R124: one bus cycle of the master that owns the bus; a write to a queued address is refused (R62). -/
def State.masterCycle (s : State) (kind : CycleKind) (pa : Addr) (width : Nat) (data : Word) :
    Host.Outcome State Fault Refusal :=
  if s.masterMay kind pa width then
    if kind = .memWrite then
      if s.inQueue (targets pa width) then .refused .staleQueue
      else .next ((s.storeBytes pa width data).logMaster kind pa width (s.masterData kind pa width data))
    else .next (s.logMaster kind pa width (s.masterData kind pa width data))
  else .fault (.notEnabled (.env (.master kind pa width data)))

/-- A step of the environment (R10 c to h, R154). -/
def State.envAct (s : State) : EnvAct → Host.Outcome State Fault Refusal
  | .pin p level => s.setPin p level
  | .vector b => .next { s with pins := { s.pins with vector := b } }
  | .request l => s.request l
  | .release l => s.release l
  | .master kind pa width data => s.masterCycle kind pa width data

end Sys2Proof.Machine
end

