-- ==== Sys2Proof/Machine/Step.lean ====
section
/-! DEFINITION. One step: the agent the script names moves (00_scope.md R10); with an empty script the
bus interface does what it owes, else the processor moves. -/

namespace Sys2Proof.Machine

open Sys2Proof

/-- A move of the processor: end what is prepared, or run the instruction just taken. -/
def turnOf (s : State) : Host.Outcome State Fault Refusal :=
  match s.prepare with
  | .run i s' => exec i s'
  | .done o => o

/-- One step of the machine. -/
def step (s : State) : Host.Outcome State Fault Refusal :=
  match s.script with
  | [] =>
    match s.settle with
    | some o => o
    | none => turnOf { s with turn := .free }
  | .cpu t :: rest => turnOf { s with script := rest, turn := t }
  | .bus b :: rest => { s with script := rest }.busAct b
  | .env e :: rest => { s with script := rest }.envAct e

/-- `s` with the instruction of table word `w` where `step` fetches its next instruction. -/
def State.withFetchWord (s : State) (nbits w : Nat) : State :=
  s.placeInstr (tableBytes nbits w)

end Sys2Proof.Machine
end

