-- ==== Sys2Proof/Machine/Pins.lean ====
section
/-! DEFINITION. The package seen from outside: the pin maps (40_pins_and_modes.md R79 to R83), direction
and active level of each signal (R91, R92), and the level the processor drives on each output, as a
function of the state and of the bus cycle in progress (10_state.md R38; 41_status_signals.md R93 to
R108; 42_bus_control.md R113, R115, R119). -/

namespace Sys2Proof.Machine

open Sys2Proof

/-- What a pin shows (R12). -/
inductive Level where
  | zero
  | one
  /-- Not driven by the processor. -/
  | hiZ
  /-- R165 leaves the pin one of the two: not driven, or at the level opposite to its active one (R92); log 27. -/
  | hiZOrInactive
  /-- The rules give the pin no level at this time (log 20). -/
  | unstated
  /-- The part has no such pin in this mode (R89). -/
  | noPin
  deriving DecidableEq, Repr

/-- The names of the pin diagrams (R80 to R83). `ad i` is `ADi`; `addr i` is `Ai` of the 8088;
`addrStatus i` is `Ai/S(i-13)`, 16 to 19. -/
inductive Signal where
  | gnd
  | vcc
  | clk
  | reset
  | ready
  | test
  | intr
  | nmi
  | mnmx
  | ad (i : Nat)
  | addr (i : Nat)
  | addrStatus (i : Nat)
  | bheS7
  | ss0
  | rd
  | hold
  | hlda
  | wr
  | mio
  | iom
  | dtr
  | den
  | ale
  | inta
  | rqgt0
  | rqgt1
  | lock
  | s2
  | s1
  | s0
  | qs0
  | qs1
  deriving DecidableEq, Repr

/-- Pins 24 to 31, which the strap gives their function (R80 to R83, R89). -/
def strappedPin (chip : Chip) (mode : Mode) (pin : Nat) : Option Signal :=
  match mode, pin with
  | .min, 24 => some .inta
  | .min, 25 => some .ale
  | .min, 26 => some .den
  | .min, 27 => some .dtr
  | .min, 28 => some (match chip with
    | .i8086 => .mio
    | .i8088 => .iom)
  | .min, 29 => some .wr
  | .min, 30 => some .hlda
  | .min, 31 => some .hold
  | .max, 24 => some .qs1
  | .max, 25 => some .qs0
  | .max, 26 => some .s0
  | .max, 27 => some .s1
  | .max, 28 => some .s2
  | .max, 29 => some .lock
  | .max, 30 => some .rqgt1
  | .max, 31 => some .rqgt0
  | _, _ => none

/-- The line `AD8` to `AD15` of the 8086 is `A8` to `A15` on the 8088 (R2 b, R81). -/
def highLine (chip : Chip) (i : Nat) : Signal :=
  match chip with
  | .i8086 => .ad i
  | .i8088 => .addr i

/-- R80 to R83: the signal on a pin of the package, 1 to 40. -/
def pinSignal (chip : Chip) (mode : Mode) (pin : Nat) : Option Signal :=
  if pin = 1 ∨ pin = 20 then some .gnd
  else if 2 ≤ pin ∧ pin ≤ 8 then some (highLine chip (16 - pin))
  else if 9 ≤ pin ∧ pin ≤ 16 then some (.ad (16 - pin))
  else if pin = 17 then some .nmi
  else if pin = 18 then some .intr
  else if pin = 19 then some .clk
  else if pin = 21 then some .reset
  else if pin = 22 then some .ready
  else if pin = 23 then some .test
  else if 24 ≤ pin ∧ pin ≤ 31 then strappedPin chip mode pin
  else if pin = 32 then some .rd
  else if pin = 33 then some .mnmx
  else if pin = 34 then some (match chip with
    | .i8086 => .bheS7
    | .i8088 => .ss0)
  else if 35 ≤ pin ∧ pin ≤ 38 then some (.addrStatus (54 - pin))
  else if pin = 39 then some (highLine chip 15)
  else if pin = 40 then some .vcc
  else none

/-- R80 to R83, R89: the part has a pin for the signal in this mode. -/
def hasPin (chip : Chip) (mode : Mode) (g : Signal) : Bool :=
  (List.range' 1 packagePins).any fun pin => decide (pinSignal chip mode pin = some g)

/-- R91. -/
inductive Direction where
  | input
  | output
  | bidirectional
  | supply
  deriving DecidableEq, Repr

/-- R91: the direction of a signal. -/
def Signal.direction : Signal → Direction
  | .gnd => .supply
  | .vcc => .supply
  | .clk => .input
  | .reset => .input
  | .ready => .input
  | .test => .input
  | .intr => .input
  | .nmi => .input
  | .mnmx => .input
  | .hold => .input
  | .ad _ => .bidirectional
  | .rqgt0 => .bidirectional
  | .rqgt1 => .bidirectional
  | .addr _ => .output
  | .addrStatus _ => .output
  | .bheS7 => .output
  | .ss0 => .output
  | .rd => .output
  | .hlda => .output
  | .wr => .output
  | .mio => .output
  | .iom => .output
  | .dtr => .output
  | .den => .output
  | .ale => .output
  | .inta => .output
  | .lock => .output
  | .s2 => .output
  | .s1 => .output
  | .s0 => .output
  | .qs0 => .output
  | .qs1 => .output

/-- R92: the level at which a signal is active, for the signals the rule gives one. -/
def Signal.activeLevel : Signal → Option Bool
  | .bheS7 => some false
  | .test => some false
  | .ready => some true
  | .hold => some true
  | .hlda => some true
  | .intr => some true
  | .rd => some false
  | .wr => some false
  | .inta => some false
  | .den => some false
  | .lock => some false
  | .rqgt0 => some false
  | .rqgt1 => some false
  | .ss0 => some false
  | .s2 => some false
  | .s1 => some false
  | .s0 => some false
  | .ale => some true
  | .reset => some true
  | .nmi => some true
  | .gnd => none
  | .vcc => none
  | .clk => none
  | .mnmx => none
  | .ad _ => none
  | .addr _ => none
  | .addrStatus _ => none
  | .mio => none
  | .iom => none
  | .dtr => none
  | .qs0 => none
  | .qs1 => none

/-- The two parts of a bus cycle (R85, R100): the address part, then data and status on the same pins. -/
inductive Part where
  | address
  | status
  deriving DecidableEq, Repr

/-- A driven level. -/
def Level.ofBool : Bool → Level
  | true => .one
  | false => .zero

/-- The cycle writes (R94). -/
def CycleKind.writes : CycleKind → Bool
  | .memWrite => true
  | .ioWrite => true
  | _ => false

/-- The cycle reads with `RD` (R105, R107). That `RD` stays at 1 in the `IntAck` cycle in which the processor reads
the type number (R104) is a DESIGN CHOICE (log 30): R105 says only "while the processor reads". -/
def CycleKind.reads : CycleKind → Bool
  | .memRead => true
  | .ioRead => true
  | .codeAccess => true
  | _ => false

/-- The data bit a write drives on line `ADi`, if it uses that line (R48 to R53). -/
def dataLine (chip : Chip) (r : BusRecord) (i : Nat) : Level :=
  match r.data with
  | none => .hiZ
  | some d =>
    if r.kind.writes = false then .hiZ
    else if r.width = 16 then .ofBool (d.getLsbD i)
    else if chip = .i8086 ∧ isOdd r.pa then if 8 ≤ i then .ofBool (d.getLsbD (i - 8)) else .hiZ
    else if i < 8 then .ofBool (d.getLsbD i) else .hiZ

/-- An optional level of the record. -/
def Level.ofOption : Option Bool → Level
  | some b => .ofBool b
  | none => .hiZ

/-- A strobe of R104 and R105: 0 in the status part of the cycles it belongs to, else 1. That it is 1 in the
address part is a DESIGN CHOICE: R104 and R105 say only "during" the cycle and "while" reading or writing
(log 25). -/
def strobe (part : Part) (mine : Bool) : Level := .ofBool !(decide (part = .status) && mine)

/-- `M/IO` of the 8086 (R105, R107). No rule gives it a level in a `Halt` cycle or between
cycles (log 20). -/
def mioLevel (k : CycleKind) : Level :=
  if k = .halt ∨ k = .passive then .unstated else .ofBool (k.code.getLsbD 2)

/-- `DT/R`: on the 8088 `S1` (R107); on the 8086 by R105 and R92, which give it no level in a `Halt`
cycle or between cycles (log 20). -/
def dtrLevel (chip : Chip) (k : CycleKind) : Level :=
  if chip = .i8086 ∧ (k = .halt ∨ k = .passive) then .unstated else .ofBool (k.code.getLsbD 1)

/-- The level the processor drives in one part of one of its own bus cycles, on the pins that depend on
the cycle (R84, R85, R94, R96 to R107). -/
def cycleLevel (chip : Chip) (r : BusRecord) (part : Part) : Signal → Level
  | .ad i =>
    match part with
    | .address => .ofBool (r.pa.getLsbD i)
    | .status => dataLine chip r i
  | .addr i => .ofBool (r.pa.getLsbD i)
  | .addrStatus i =>
    match part with
    | .address => .ofBool (r.pa.getLsbD i)
    | .status =>
      if i = 16 then .ofBool (r.seg.getLsbD 0)
      else if i = 17 then .ofBool (r.seg.getLsbD 1)
      else if i = 18 then .ofBool r.ifl
      else .zero
  | .bheS7 =>
    match part with
    | .address => .ofOption r.bhe
    | .status => .ofOption r.s7
  | .ss0 => .ofBool (r.kind.code.getLsbD 0)
  | .s2 => .ofBool (r.kind.code.getLsbD 2)
  | .s1 => .ofBool (r.kind.code.getLsbD 1)
  | .s0 => .ofBool (r.kind.code.getLsbD 0)
  | .mio => mioLevel r.kind
  | .iom => .ofBool (!r.kind.code.getLsbD 2)
  | .dtr => dtrLevel chip r.kind
  | .rd => strobe part r.kind.reads
  | .wr => strobe part r.kind.writes
  | .inta => strobe part (decide (r.kind = .intAck))
  | .den => strobe part (decide (r.width ≠ 0))
  | .ale => .ofBool (decide (part = .address) && decide (r.kind ≠ .passive))
  | _ => .unstated

/-- R119, R140: `LOCK` is also active "from the first to the second" acknowledge cycle. Where in those two
cycles it changes is a DESIGN CHOICE (log 26): inactive until the first has ended, active until the last
has. -/
def State.betweenAcks (s : State) : Bool :=
  let left := (s.micro.filter fun m => match m with
    | .cycle c => decide (c.kind = .intAck)
    | _ => false).length
  decide (0 < left) && decide (left < s.cfg.intaCycles)

/-- What the bus shows: a part of the cycle of a record; between cycles, the pulse by which the processor
grants a line (R118); or nothing. -/
inductive Moment where
  | cycle (r : BusRecord) (part : Part)
  | grant (l : Line)
  | between
  deriving DecidableEq, Repr

/-- The levels between bus cycles: the code `Passive`, no strobe, no `ALE` pulse (R94, R95, R107). The 8086's
`M/IO` and `DT/R` have none: the table of R107 is the 8088's. -/
def passiveLevel (chip : Chip) : Signal → Level
  | .s2 => .one
  | .s1 => .one
  | .s0 => .one
  | .ss0 => .one
  | .mio => mioLevel .passive
  | .iom => .zero
  | .dtr => dtrLevel chip .passive
  | .rd => .one
  | .wr => .one
  | .inta => .one
  | .den => .one
  | .ale => .zero
  | _ => .unstated

/-- The levels while `RESET` is 1 (R165): `ALE` 0, the code `Passive`, the queue status "No operation",
`LOCK` inactive; the address, data and status pins and the control pins "`Z` or inactive". -/
def resetLevel : Signal → Level
  | .ale => .zero
  | .s2 => .one
  | .s1 => .one
  | .s0 => .one
  | .lock => .one
  | .qs0 => .zero
  | .qs1 => .zero
  | _ => .hiZOrInactive

/-- The level of a pin that is `Z` while the bus is given away, else as the bus shows it. -/
def State.busLevel (s : State) (m : Moment) (g : Signal) : Level :=
  if s.busOwner ≠ .cpu then .hiZ
  else if s.pins.reset then resetLevel g
  else
    match m with
    | .cycle r part => cycleLevel s.cfg.chip r part g
    | .grant _ => passiveLevel s.cfg.chip g
    | .between => passiveLevel s.cfg.chip g

/-- R118: a request line rests at 1, and the processor's grant is a pulse to 0. The other master's own pulses
are not the processor's (log 28). -/
def grantLevel (m : Moment) (l : Line) : Level :=
  match m with
  | .grant l' => .ofBool (decide (l' ≠ l))
  | .cycle _ _ => .one
  | .between => .one

/-- The level on a signal that has a pin. With the bus given away everything the rules name is `Z` (R98, R108,
R115); `HLDA`, `ALE`, the queue status, the request lines and pin 34 of the 8088 in maximum mode (R83) are
not. An input is not driven by the processor. -/
def State.drivenLevel (s : State) (m : Moment) (q : Option QueueOp) : Signal → Level
  | .hlda => .ofBool (decide (s.busOwner = .hold))
  | .qs0 => if s.pins.reset then .zero else .ofBool ((queueCode q).getLsbD 0)
  | .qs1 => if s.pins.reset then .zero else .ofBool ((queueCode q).getLsbD 1)
  | .lock =>
    if s.busOwner ≠ .cpu then .hiZ
    else if s.pins.reset then resetLevel .lock
    else .ofBool !(s.lockActive || s.betweenAcks)
  | .ale => if s.busOwner ≠ .cpu then .zero else s.busLevel m .ale
  | .ss0 =>
    match s.cfg.mode with
    | .min => s.busLevel m .ss0
    | .max => .one
  | .rqgt0 => grantLevel m .gt0
  | .rqgt1 => grantLevel m .gt1
  | g => if g.direction = .input ∨ g.direction = .supply then .hiZ else s.busLevel m g

/-- R38: the level on a signal. R88, R89: where the mode gives the signal no pin there is none. `q` is the queue
operation being reported (R102). -/
def State.outputLevel (s : State) (m : Moment) (q : Option QueueOp) (g : Signal) : Level :=
  if hasPin s.cfg.chip s.cfg.mode g then s.drivenLevel m q g else .noPin

/-- R46: which banks of the 8086's memory a cycle enables, low then high, from `A0` and `BHE`. -/
def banksEnabled (a0 bhe : Bool) : Bool × Bool := (!a0, !bhe)

end Sys2Proof.Machine
end

