-- ==== Sys2Proof/Safety.lean ====
section
/-! DEFINITION. The terms claims use: the end of a run (70_reset_and_hazards.md R176), when the processor
can run bus cycles undisturbed, and the invariant every step keeps. -/

namespace Sys2Proof.Machine

open Sys2Proof

/-- R176: halted, no bus cycle in progress, the bus is the processor's, and nothing that ends a halt is
due. -/
def State.EndOfRun (s : State) : Prop :=
  s.halted = true ∧ s.busy = none ∧ s.busOwner = .cpu ∧ s.nmiPending = false ∧ s.dueIntr = false

/-- The premises of R154 under which a bus cycle ends at once: the bus is the processor's, no other cycle is
in progress, `READY = 1`, and this turn sets no limit. -/
def State.BusFree (s : State) : Prop :=
  s.busOwner = .cpu ∧ s.busy = none ∧ s.pins.ready = true ∧ s.turn.cycles = none

/-- Nothing but the processor moves next, and it can run bus cycles: no script, no RESET, nothing waiting, the
bus is the processor's with `READY = 1`, and no grant is due (R114, R118). -/
def State.Quiet (s : State) : Prop :=
  s.script = [] ∧ s.pins.reset = false ∧ s.busOwner = .cpu ∧ s.busy = none ∧ s.pins.ready = true ∧
    s.micro = [] ∧ (s.cfg.mode = .min → s.pins.hold = false) ∧
    (s.cfg.mode = .max → s.req0 = false ∧ s.req1 = false)

/-- The processor is about to take the first byte of an instruction (after a `LOCK` prefix, or with no
boundary to examine). -/
def State.AtFetch (s : State) : Prop :=
  s.Quiet ∧ s.halted = false ∧ s.waiting = false ∧ s.opbuf = [] ∧ s.boundary = none

/-- The processor is about to examine the boundary after something that began with `TF = tfb` (R138). -/
def State.AtBoundary (s : State) (tfb : Bool) : Prop :=
  s.Quiet ∧ s.halted = false ∧ s.waiting = false ∧ s.opbuf = [] ∧ s.boundary = some tfb

/-- The queue holds, from offset `off` on, the bytes of the code segment in order (R28), each equal to what
memory holds where the launch declares memory (R62). -/
def State.QueueFrom (s : State) : Word → List Host.Cell → Prop
  | _, [] => True
  | off, (a, b) :: rest =>
    a = (phys s.cfg s.cs off).toNat ∧
      (s.isAbsent (phys s.cfg s.cs off) = false → Memory.read s.mem a = b) ∧ s.QueueFrom (off + 1#16) rest

/-- The invariant of the machine: memory is in canonical form (R41); the queue holds the bytes from `CS:IP`
on (R28, R62) and the next fetch continues them; it never holds more than its capacity, the fetch in
progress included (R28, R59); the owner of the bus and the requests are those of the mode (R116, R117). -/
def State.Inv (s : State) : Prop :=
  Memory.wf s.mem = true ∧
    s.QueueFrom s.ip s.queue ∧
    s.fetchOff = s.ip + BitVec.ofNat 16 s.queue.length ∧
    s.queue.length + (if s.fetching then s.codeBytes else 0) ≤ s.cfg.qlen ∧
    (s.cfg.mode = .min → (s.busOwner = .cpu ∨ s.busOwner = .hold) ∧ s.req0 = false ∧ s.req1 = false) ∧
    (s.cfg.mode = .max → s.busOwner ≠ .hold)

/-- R167: a launch state that is not the reset state, as the rule asks of it. -/
def State.IsLaunch (s : State) : Prop :=
  s.cfg.wf = true ∧ Memory.wf s.mem = true ∧ s.queue = [] ∧ s.fetchOff = s.ip ∧ s.busOwner = .cpu ∧
    s.lockActive = false ∧ s.waiting = false ∧ s.halted = false ∧ s.intInhibit = false ∧
    s.req0 = false ∧ s.req1 = false ∧ s.opbuf = [] ∧ s.busy = none ∧ s.micro = [] ∧ s.boundary = none ∧
    s.history = [] ∧ s.qsHistory = [] ∧ s.grants = []

/-- The next step does not move the pin `RESET` (R162 ends a run and starts another). -/
def State.NoResetNext (s : State) : Prop :=
  ∀ level rest, s.script ≠ .env (.pin .reset level) :: rest

/-- What one record of the history does to memory (R58): a memory write stores its bytes where the launch
declares memory. -/
def State.replayRecord (s : State) (m : List Host.Cell) (r : BusRecord) : List Host.Cell :=
  if r.kind = .memWrite then
    ({ s with mem := m }.storeBytes r.pa r.width (r.data.getD 0#16)).mem
  else m

/-- The word memory holds at a physical address (R54). -/
def State.wordAt (s : State) (pa : Addr) : Word :=
  joinBytes (Memory.read s.mem (pa + 1#20).toNat) (Memory.read s.mem pa.toNat)

/-- Every byte of memory outside the listed addresses reads as before. -/
def State.SameOutside (s t : State) (as : List Addr) : Prop :=
  ∀ a : Addr, a ∉ as → Memory.read t.mem a.toNat = Memory.read s.mem a.toNat

/-- The state no instruction and no entry writes: the data and stack segment registers (R17), the general
registers but `SP` (R25), the parameters (R8), the platform (R64), the pins (R37), the bus owner and the
requests (R34), the grants given (R118), and the script. -/
def State.SameFixed (s t : State) : Prop :=
  t.ds = s.ds ∧ t.ss = s.ss ∧ t.es = s.es ∧ t.gen = { s.gen with sp := t.gen.sp } ∧ t.cfg = s.cfg ∧
    t.absent = s.absent ∧ t.pins = s.pins ∧ t.busOwner = s.busOwner ∧ t.req0 = s.req0 ∧
    t.req1 = s.req1 ∧ t.grants = s.grants ∧ t.script = s.script

/-- An interrupt entry of type `n` runs to its end (R147, R55, R62, R64): the bus is free, no stack word lies
at an end (R55), the stack is off the vector, its bytes are not in the queue, and the launch declares
memory at the ten bytes it uses. That the six stack bytes are different is so whenever `phys` is R43's
(`State.entryStack_nodup_gk`); another `phys` might let the three words overlap. -/
def State.EntryRuns (s : State) (n : Nat) : Prop :=
  s.BusFree ∧ n < 256 ∧ s.overVector n = false ∧
    wordAtEnd s.cfg s.ss (s.gen.sp - 2#16) = false ∧ wordAtEnd s.cfg s.ss (s.gen.sp - 4#16) = false ∧
    wordAtEnd s.cfg s.ss (s.gen.sp - 6#16) = false ∧ s.inQueue (s.entryStack s.gen.sp) = false ∧
    (∀ a ∈ s.entryStack s.gen.sp ++ vectorBytes n, s.isAbsent a = false) ∧ (s.entryStack s.gen.sp).Nodup

/-- What the queue status history gains for these operations: the pins exist in maximum mode only (R101,
R102). -/
def State.qsReports (s : State) (ops : List QueueOp) : List QueueOp :=
  match s.cfg.mode with
  | .min => []
  | .max => ops

/-- What an interrupt entry of type `n` that saves offset `ip` leaves (R147, R24): the three words on the
stack, `SP` less 6, `IF` and `TF` clear, `CS:IP` from the vector, the queue empty and reported so once
(R102, R149). -/
def State.EntryDone (s : State) (n : Nat) (ip : Word) (t : State) : Prop :=
  t.gen = { s.gen with sp := s.gen.sp - 6#16 } ∧
    t.flags = { s.flags with ifl := false, tf := false } ∧
    t.ip = s.wordAt (vectorAddr n) ∧ t.cs = s.wordAt (vectorAddr n + 2#20) ∧
    t.wordAt (phys s.cfg s.ss (s.gen.sp - 2#16)) = s.flags.image s.cfg.flagsFixed ∧
    t.wordAt (phys s.cfg s.ss (s.gen.sp - 4#16)) = s.cs ∧
    t.wordAt (phys s.cfg s.ss (s.gen.sp - 6#16)) = ip ∧
    s.SameOutside t (s.entryStack s.gen.sp) ∧
    t.queue = [] ∧ t.fetchOff = t.ip ∧ t.halted = false ∧ t.waiting = false ∧ s.SameFixed t ∧
    t.qsHistory = s.qsHistory ++ s.qsReports [.flush]

/-- The record `r` is that of the processor's own memory cycle `c`, run under this `IF` and this `LOCK` level
(R47 g, R97, R103, R120): its kind, address, `BHE` and width, the data it wrote or the bytes memory holds in `s`, and the
segment it used if it used one (R96). -/
def State.Shows (s : State) (ifl locked : Bool) (c : Cycle) (r : BusRecord) : Prop :=
  r.master = .cpu ∧ r.kind = c.kind ∧ r.pa = c.pa ∧ r.bhe = s.bheOf c.kind c.pa c.width ∧ r.width = c.width ∧
    r.data = some (if c.kind = .memWrite then c.data else wordOfBytes (s.readBytes c.pa c.width)) ∧
    (∀ g, c.seg = some g → r.seg = g.code) ∧ r.ifl = ifl ∧ r.locked = locked

/-- One record for each cycle, in order; each cycle with the `IF` it is run under. -/
def State.ShowsAll (s : State) (locked : Bool) : List (Bool × Cycle) → List BusRecord → Prop
  | [], [] => True
  | (f, c) :: cs, r :: rs => s.Shows f locked c r ∧ s.ShowsAll locked cs rs
  | [], _ :: _ => False
  | _ :: _, [] => False

/-- The history is that of `s` with the records of exactly these cycles of the processor added. -/
def State.Ran (s : State) (locked : Bool) (cs : List (Bool × Cycle)) (history : List BusRecord) : Prop :=
  ∃ recs, history = s.history ++ recs ∧ s.ShowsAll locked cs recs

/-- Cycles that are all run under one `IF`, as `State.Ran` lists them. -/
def under (ifl : Bool) (cs : List Cycle) : List (Bool × Cycle) := cs.map fun c => (ifl, c)

/-- The cycles of a push that stores `v` at offset `off` of the stack segment (R14, R44, R50 to R53). -/
def State.pushCycles (s : State) (off v : Word) : List Cycle :=
  wordCycles s.cfg.chip .memWrite (phys s.cfg s.ss off) v (some .ss)

/-- The cycles of a pop at offset `off` of the stack segment (R14, R44, R50 to R53). -/
def State.popCycles (s : State) (off : Word) : List Cycle :=
  wordCycles s.cfg.chip .memRead (phys s.cfg s.ss off) 0#16 (some .ss)

/-- The cycles of one word read of the vector table, with no segment (R44, R50 to R53). -/
def State.vectorCycles (s : State) (pa : Addr) : List Cycle :=
  wordCycles s.cfg.chip .memRead pa 0#16 none

/-- R147, R149, R174: the bus cycles of an interrupt entry of type `n` that saves `ip`, in the order the turn gives
(U19): the writes of the flags image, `CS` and `ip`, the first under the old `IF` and the others under 0; and the
reads of the vector at `4*n` and `4*n + 2`, under the old `IF` only where no write is before them. -/
def State.entryCycles (s : State) (n : Nat) (ip : Word) : List (Bool × Cycle) :=
  let o := s.turn.order
  mergeEntry o
    [under s.flags.ifl (s.pushCycles (s.gen.sp - 2#16) (s.flags.image s.cfg.flagsFixed)),
      under false (s.pushCycles (s.gen.sp - 4#16) s.cs), under false (s.pushCycles (s.gen.sp - 6#16) ip)]
    (under (s.flags.ifl && decide (o.first = 0)) (s.vectorCycles (vectorAddr n)))
    (under (s.flags.ifl && decide (max o.first o.second = 0)) (s.vectorCycles (vectorAddr n + 2#20)))

/-- The history of `t` is that of `s` with the bus cycles of an entry of type `n` that saves `ip` added, each
locked as `locked` says (R120). -/
def State.EntryRecords (s : State) (n : Nat) (ip : Word) (locked : Bool) (t : State) : Prop :=
  s.Ran locked (s.entryCycles n ip) t.history

/-- R134, R174: the bus cycles of a return: the reads of the three words it pops. -/
def State.returnCycles (s : State) : List Cycle :=
  s.popCycles s.gen.sp ++ s.popCycles (s.gen.sp + 2#16) ++ s.popCycles (s.gen.sp + 4#16)

/-- What the acknowledge of an `INTR` that the controller answers with type `b` leaves (R140): its `INTA_CYCLES`
cycles in the history and the entry that saves offset `ip` to be run next (log 13). -/
def State.Acknowledged (s : State) (b : Byte) (ip : Word) (t : State) : Prop :=
  ∃ recs, t.history = s.history ++ recs ∧ recs.length = s.cfg.intaCycles ∧
    (∀ r ∈ recs, r.kind = .intAck ∧ r.master = .cpu ∧ r.ifl = s.flags.ifl ∧ r.locked = s.lockActive) ∧
    t = { s with
      history := t.history, draws := t.draws, latch := []
      micro := s.interruptEntry b.toNat ip ++ [.endEntry] }

/-- The offset of the `k`-th word an entry pushes (R147). -/
def State.pushSlot (s : State) (k : Nat) : Word := s.gen.sp - BitVec.ofNat 16 (2 * (k + 1))

/-- The offset of the `k`-th word a return pops (R134). -/
def State.popSlot (s : State) (k : Nat) : Word := s.gen.sp + BitVec.ofNat 16 (2 * k)

/-- The instruction enters type `n` in `s`: `INT n`, `INT 3`, or `INTO` with `OF = 1` (R131 to R133). -/
def Enters (i : Instr) (n : Nat) (s : State) : Prop :=
  i = .intN n ∨ i = .int3 ∧ n = 3 ∨ i = .into ∧ n = 4 ∧ s.flags.of = true

/-- `o` is the outcome of an entry of type `n` begun in `s` (R147), by whatever begins one: an instruction (R131 to
R133); a request taken at a boundary or while idle (R138, R151); the entry that waits after an acknowledge (R140);
and the steps in which these happen when only the processor moves, by the default turn: an `NMI` or a single step
at a boundary, an `NMI` while halted or waiting, and the step after an acknowledge. -/
def EntryBegins (n : Nat) (s : State) (o : Host.Outcome State Fault Refusal) : Prop :=
  (∃ i, Enters i n s ∧ o = exec i s) ∨
  (∃ ip, o = s.takeInterrupt n ip) ∨
  (∃ ip, s.micro = s.interruptEntry n ip ++ [.endEntry] ∧ o = s.resume) ∨
  ∃ u : State, s = { u with turn := .free } ∧ o = step u ∧
    (u.AtBoundary false ∧ u.nmiPending = true ∧ n = 2 ∨
      u.AtBoundary true ∧ u.nmiPending = false ∧ u.dueIntr = false ∧ n = 1 ∨
      u.Quiet ∧ u.halted = true ∧ u.nmiPending = true ∧ n = 2 ∨
      u.Quiet ∧ u.waiting = true ∧ u.halted = false ∧ u.pins.test = true ∧ u.nmiPending = true ∧ n = 2 ∨
      { u with micro := [] }.Quiet ∧ ∃ ip, u.micro = s.interruptEntry n ip ++ [.endEntry])

/-- The state `s'` in which an instruction of `len` bytes fetched from `s` runs (R19, R28, R69): `IP` past its
bytes, the bytes taken and reported (R102), its start remembered, and nothing else changed but the queue,
the code accesses in the history, the turn, and the draws. Each code access is at the address of one of the
bytes taken, and the queue has gained the bytes they brought and lost those taken. -/
def State.FetchedFrom (s' s : State) (len : Nat) : Prop :=
  s'.ip = s.ip + BitVec.ofNat 16 len ∧ s'.opbuf = [] ∧
    s'.insnStart = (if s.lockActive then s.insnStart else s.ip) ∧
    s'.qsHistory = s.qsHistory ++ s.qsReports (.first :: List.replicate (len - 1) .next) ∧
    (∃ recs, s'.history = s.history ++ recs ∧
      s.queue.length + (recs.map fun r => r.width / 8).sum = s'.queue.length + len ∧
      ∀ r ∈ recs, r.kind = .codeAccess ∧ r.master = .cpu ∧
      (∃ k, k < len ∧ r.pa = phys s.cfg s.cs (s.ip + BitVec.ofNat 16 k)) ∧
      r.seg = Seg.cs.code ∧ r.ifl = s.flags.ifl ∧ r.locked = s.lockActive) ∧
    s' = { s with
      ip := s'.ip, opbuf := s'.opbuf, insnStart := s'.insnStart, history := s'.history
      queue := s'.queue, fetchOff := s'.fetchOff, qsHistory := s'.qsHistory, turn := .free
      draws := s'.draws }

/-- The values R39 gives every register, flag and latch after RESET. -/
def State.HasResetValues (t : State) : Prop :=
  t.flags = ⟨false, false, false, false, false, false, false, false, false⟩ ∧
    t.ip = 0x0000#16 ∧ t.cs = 0xFFFF#16 ∧ t.ds = 0x0000#16 ∧ t.ss = 0x0000#16 ∧ t.es = 0x0000#16 ∧
    t.queue = [] ∧ t.fetchOff = 0x0000#16 ∧ t.nmiPending = false ∧ t.halted = false ∧
    t.waiting = false ∧ t.busOwner = .cpu ∧ t.req0 = false ∧ t.req1 = false ∧
    t.lockActive = false ∧ t.intInhibit = false

/-- An `IRET` runs to its end (R134, R55, R64). -/
def State.ReturnRuns (s : State) : Prop :=
  s.BusFree ∧ wordAtEnd s.cfg s.ss s.gen.sp = false ∧ wordAtEnd s.cfg s.ss (s.gen.sp + 2#16) = false ∧
    wordAtEnd s.cfg s.ss (s.gen.sp + 4#16) = false ∧
    (∀ off ∈ [s.gen.sp, s.gen.sp + 2#16, s.gen.sp + 4#16],
      s.isAbsent (phys s.cfg s.ss off) = false ∧ s.isAbsent (phys s.cfg s.ss off + 1#20) = false)

end Sys2Proof.Machine
end

