-- ==== Sys2Proof/Certificates/Slice0/Obligations.lean ====
section
/-! DEFINITION. What the provers are asked to prove of this model. Each docstring names the rules it
formalises. -/

open Sys2Proof Sys2Proof.Machine

/-! ### Encoding -/

/-- R68 to R72: whatever ten different opcode bytes the configuration gives (R8), decoding answers an instruction
exactly on the bytes of a well-formed one, with every type number an encoding admits. -/
def Obligations.DecodeAndEncodeAgree : Prop :=
  ∀ (o : OpcodeMap) (i : Instr) (bs rest : List Byte), o.wf = true →
    (decode o bs = .ok (i, rest) ↔ i.wf = true ∧ bs = encode o i ++ rest)

/-- R75: 246 values of byte 0 are no opcode of the table; where execution reaches a byte that is no opcode, after
a prefix too, or a second `LOCK` code after a first, the step is refused with that byte. -/
def Obligations.BytesOutsideTheMapAreRefused : Prop :=
  ((List.range 256).filter fun k => decide (BitVec.ofNat 8 k ∉ gkOpcodes.bytes)).length = 246 ∧
  ∀ (s : State) (b : Byte), s.AtFetch → s.Inv → s.cfg.wf = true →
    s.isAbsent (phys s.cfg s.cs s.ip) = false → Memory.read s.mem (phys s.cfg s.cs s.ip).toNat = b →
    (b ∉ s.cfg.opc.bytes ∨ b = s.cfg.opc.lock ∧ s.lockActive = true) →
    step s = .refused (.opcodeOutOfScope b)

/-- 95_test_vectors.md 2.4: a few instruction words, written out, decode with the table of R72 to what they stand
for. -/
def Obligations.SpecWordsDecode : Prop :=
  let dec := decode gkOpcodes
  dec [0x90#8] = .ok (.nop, []) ∧ dec [0x9B#8] = .ok (.wait, []) ∧ dec [0xFA#8] = .ok (.cli, []) ∧
  dec [0xCD#8, 0x21#8] = .ok (.intN 0x21, []) ∧ dec [0xCD#8, 0xFF#8] = .ok (.intN 255, []) ∧
  dec [0xF0#8, 0x90#8] = .ok (.lock, [0x90#8]) ∧ dec [0xEA#8] = .error (.outOfScope 0xEA#8)

/-! ### A step -/

/-- R19, R28, R67, R69: when the bytes at `CS:IP`, in declared memory, decode to `i`, the step is `exec` of
`i` in the state with the bytes taken; R102: the queue status reports each of them, and R96, R97: what the code
accesses for them show. -/
def Obligations.StepRunsDecodedInstruction : Prop :=
  ∀ (s : State) (i : Instr) (rest : List Byte), s.AtFetch → s.Inv → s.cfg.wf = true →
    s.isAbsent (phys s.cfg s.cs s.ip) = false → s.isAbsent (phys s.cfg s.cs (s.ip + 1#16)) = false →
    decode s.cfg.opc [Memory.read s.mem (phys s.cfg s.cs s.ip).toNat,
      Memory.read s.mem (phys s.cfg s.cs (s.ip + 1#16)).toNat] = .ok (i, rest) →
    ∃ s', step s = exec i s' ∧ s'.FetchedFrom s (encode s.cfg.opc i).length

/-- The invariant of the machine (R28, R41, R59, R62, R116, R117) is kept by every step of every agent. -/
def Obligations.StepKeepsTheInvariant : Prop :=
  ∀ s t : State, s.Inv → step s = .next t → t.Inv

/-- The invariant holds after RESET, whatever the parameters. -/
def Obligations.ResetMeetsTheInvariant : Prop :=
  State.reset.Inv ∧ ∀ p : Params, (State.resetWith p).Inv

/-- R58: memory is what the history wrote into it. A step appends records to the history, and memory after
it is memory before it with those records replayed in order; only RESET starts a new history. -/
def Obligations.HistoryExplainsMemory : Prop :=
  ∀ s t : State, s.NoResetNext → step s = .next t →
    ∃ recs, t.history = s.history ++ recs ∧ t.mem = recs.foldl s.replayRecord s.mem

/-- R17, R25, R8: but for RESET no step writes `DS`, `SS`, `ES` or a general register other than `SP`; the
parameters and the platform never change. -/
def Obligations.SegmentsAndGeneralRegistersStay : Prop :=
  ∀ s t : State, step s = .next t →
    t.cfg = s.cfg ∧ t.absent = s.absent ∧
    (s.NoResetNext →
      t.ds = s.ds ∧ t.ss = s.ss ∧ t.es = s.es ∧ t.gen = { s.gen with sp := t.gen.sp })

/-- R29, R178: a step that changes `CS` has emptied the queue, and the next fetch is at the new `IP`. -/
def Obligations.CodeSegmentChangeEmptiesQueue : Prop :=
  ∀ s t : State, step s = .next t → t.cs ≠ s.cs → t.queue = [] ∧ t.fetchOff = t.ip

/-- R101, R102: in minimum mode no queue status is reported. In maximum mode a step reports the bytes it takes,
each once, `QFirst` for the first of an instruction and `QNext` for a later one, and then the emptyings; with
no emptying `IP` has advanced by the bytes taken, and `CS` has not changed. -/
def Obligations.QueueStatusOfAStep : Prop :=
  ∀ s t : State, s.NoResetNext → step s = .next t →
    ∃ taken emptied : Nat, taken ≤ maxInstrBytes ∧
      t.qsHistory = s.qsHistory ++ s.qsReports
        ((List.range taken).map (fun k => if s.opbuf = [] ∧ k = 0 then .first else .next) ++
          List.replicate emptied .flush) ∧
      (emptied = 0 → t.ip = s.ip + BitVec.ofNat 16 taken ∧ t.cs = s.cs)

/-! ### RESET -/

/-- R39, R162: when `RESET` returns to 0 the state is that of R39: the segment registers (R17), `IP` (R18), the
flags (R20), the queue and its fetch offset (R29), the latches (R36; D13, D14, D31), the bus and `lock_active`, which
R35 marks derived; memory is unchanged (R40). -/
def Obligations.ResetReleaseLeavesResetValues : Prop :=
  ∀ (s : State) (rest : List Act), s.script = .env (.pin .reset false) :: rest → s.pins.reset = true →
    ∃ t, step s = .next t ∧ t.HasResetValues ∧ t.mem = s.mem ∧ t.cfg = s.cfg ∧ t.script = rest

/-- R162, U12: when `RESET` goes to 1 everything is abandoned; memory changes at most at the target bytes
of a write the processor had in progress. R162 gives the values of R39 for the moment `RESET` is released; that
they stand already when it goes to 1 is the model's choice (log 15). -/
def Obligations.ResetAbandonsEverything : Prop :=
  ∀ (s : State) (rest : List Act), s.script = .env (.pin .reset true) :: rest → s.pins.reset = false →
    ∃ t, step s = .next t ∧ t.HasResetValues ∧ t.pins.reset = true ∧ t.busy = none ∧ t.micro = [] ∧
      t.opbuf = [] ∧ t.boundary = none ∧ t.latch = [] ∧
      (∀ a : Addr, (∀ c, s.busy = some (.data c) → c.kind = .memWrite → a ∉ targets c.pa c.width) →
        Memory.read t.mem a.toNat = Memory.read s.mem a.toNat)

/-- R161: the processor and its bus interface stand still while `RESET` is 1. -/
def Obligations.NothingRunsDuringReset : Prop :=
  ∀ s : State, s.pins.reset = true →
    (s.script = [] → step s = .next { s with turn := .free }) ∧
    ∀ tn rest, s.script = .cpu tn :: rest → step s = .next { s with script := rest, turn := tn }

/-! ### Flags -/

/-- R23, R134: the nine flags survive the image; only the nine bits are read back. -/
def Obligations.FlagsImageRoundTrips : Prop :=
  (∀ (f : Flags) (fixed : Word), fixed &&& 0x0FD5#16 = 0#16 → Flags.ofImage (f.image fixed) = f) ∧
  (∀ w junk : Word, junk &&& 0x0FD5#16 = 0#16 → Flags.ofImage (w ^^^ junk) = Flags.ofImage w) ∧
  (∀ (f : Flags) (fixed : Word), fixed &&& 0x0FD5#16 = 0#16 → f.image fixed &&& 0xF02A#16 = fixed)

/-- 95_test_vectors.md 2.3, general knowledge GK4: images of single flags with the default `FLAGS_FIXED`. -/
def Obligations.FlagsImageVectors : Prop :=
  let none9 : Flags := ⟨false, false, false, false, false, false, false, false, false⟩
  none9.image 0xF002#16 = 0xF002#16 ∧ { none9 with ifl := true }.image 0xF002#16 = 0xF202#16 ∧
  { none9 with ifl := true, tf := true }.image 0xF002#16 = 0xF302#16 ∧
  { none9 with of := true, ifl := true }.image 0xF002#16 = 0xFA02#16 ∧
  { none9 with cf := true }.image 0xF002#16 = 0xF003#16 ∧
  Flags.image ⟨true, true, true, true, true, true, true, true, true⟩ 0xF002#16 = 0xFFD7#16

/-! ### Memory and bus cycles -/

/-- R54: after a word write the bytes of the word are read at its two addresses, least significant first, and
every other address reads as before. -/
def Obligations.WordWriteIsLittleEndian : Prop :=
  ∀ (s : State) (pa : Addr) (w : Word), Memory.wf s.mem = true → s.isAbsent pa = false →
    s.isAbsent (pa + 1#20) = false →
    (∀ k, (s.storeBytes pa 16 w).byteAt pa k = w.setWidth 8) ∧
    (∀ k, (s.storeBytes pa 16 w).byteAt (pa + 1#20) k = (w >>> 8).setWidth 8) ∧
    (s.storeBytes pa 16 w).wordAt pa = w ∧ s.SameOutside (s.storeBytes pa 16 w) [pa, pa + 1#20] ∧
    Memory.wf (s.storeBytes pa 16 w).mem = true

/-- R50, R51, R53, R174: a word write off address `FFFFFH` (R55) runs one 16-bit cycle at an even address of the
8086 and otherwise two byte cycles, the one at `pa` first; on the 8086 at an odd address the first has
`BHE = 0`, the second `BHE = 1`. Every record shows the segment of the access, `IF` and `lock_active` (R47 g,
R96, R97, R120). Memory afterwards is the same for all. -/
def Obligations.WordWriteCycles : Prop :=
  ∀ (s : State) (pa : Addr) (v : Word) (g : Option Seg), s.BusFree → pa ≠ 0xFFFFF#20 →
    s.inQueue [pa, pa + 1#20] = false →
    ∃ t recs, runMicros ((wordCycles s.cfg.chip .memWrite pa v g).map .cycle) s = .ok t ∧
      t.mem = (s.storeBytes pa 16 v).mem ∧ t.history = s.history ++ recs ∧
      (∀ r ∈ recs, r.master = .cpu ∧ r.ifl = s.flags.ifl ∧ r.locked = s.lockActive ∧
        ∀ sg, g = some sg → r.seg = sg.code) ∧
      recs.map (fun r => (r.kind, r.pa, r.bhe, r.width, r.data)) =
        match s.cfg.chip, isOdd pa with
        | .i8086, false => [(.memWrite, pa, some false, 16, some v)]
        | .i8086, true => [(.memWrite, pa, some false, 8, some ((loByte v).setWidth 16)),
            (.memWrite, pa + 1#20, some true, 8, some ((hiByte v).setWidth 16))]
        | .i8088, _ => [(.memWrite, pa, none, 8, some ((loByte v).setWidth 16)),
            (.memWrite, pa + 1#20, none, 8, some ((hiByte v).setWidth 16))]

/-- R50, R51, R53, R174: a word read from declared memory off address `FFFFFH` (R55) runs the same cycles, with
the same segment, `IF` and `lock_active` in the records, and the two bytes it takes are memory's, the one at
`pa` least significant. -/
def Obligations.WordReadCycles : Prop :=
  ∀ (s : State) (pa : Addr) (v : Word) (g : Option Seg), s.BusFree → pa ≠ 0xFFFFF#20 →
    s.isAbsent pa = false → s.isAbsent (pa + 1#20) = false →
    ∃ t recs, runMicros ((wordCycles s.cfg.chip .memRead pa v g).map .cycle) s = .ok t ∧
      t.mem = s.mem ∧ t.latch = s.latch ++
        [Memory.read s.mem pa.toNat, Memory.read s.mem (pa + 1#20).toNat] ∧
      t.history = s.history ++ recs ∧
      (∀ r ∈ recs, r.master = .cpu ∧ r.ifl = s.flags.ifl ∧ r.locked = s.lockActive ∧
        ∀ sg, g = some sg → r.seg = sg.code) ∧
      recs.map (fun r => (r.kind, r.pa, r.bhe, r.width)) =
        match s.cfg.chip, isOdd pa with
        | .i8086, false => [(.memRead, pa, some false, 16)]
        | .i8086, true => [(.memRead, pa, some false, 8), (.memRead, pa + 1#20, some true, 8)]
        | .i8088, _ => [(.memRead, pa, none, 8), (.memRead, pa + 1#20, none, 8)]

/-- R34, R47 (a), R115: while another master owns the bus no instruction runs a bus cycle, writes memory or
fetches; a move of the processor runs none either, its fetch included, and takes bytes from the queue at most;
and no step of any agent adds a cycle of the processor to the history. -/
def Obligations.NoCycleWithoutTheBus : Prop :=
  (∀ (i : Instr) (s t : State), s.busOwner ≠ .cpu → s.busy = none → exec i s = .next t →
    t.history = s.history ∧ t.mem = s.mem ∧ t.queue = s.queue ∧ t.busOwner = s.busOwner) ∧
  (∀ s t : State, s.busOwner ≠ .cpu → s.busy = none → turnOf s = .next t →
    t.history = s.history ∧ t.mem = s.mem ∧ t.queue <:+ s.queue ∧ t.busOwner = s.busOwner) ∧
  ∀ s t : State, s.busOwner ≠ .cpu → s.busy = none → s.NoResetNext → step s = .next t →
    ∃ recs, t.history = s.history ++ recs ∧ ∀ r ∈ recs, r.master ≠ .cpu

/-- R110: while `READY = 0` no bus cycle completes: none of an instruction; none in a whole move of the processor,
be it an instruction that goes on, an entry, an acknowledge or a fetch, which takes or empties what is queued at
most; and no step of any agent adds a cycle of the processor to the history. -/
def Obligations.NoCycleEndsWhileNotReady : Prop :=
  (∀ (i : Instr) (s t : State), s.pins.ready = false → exec i s = .next t →
    t.history = s.history ∧ t.mem = s.mem ∧ t.queue = s.queue) ∧
  (∀ s t : State, s.pins.ready = false → turnOf s = .next t →
    t.history = s.history ∧ t.mem = s.mem ∧ t.queue <:+ s.queue) ∧
  ∀ s t : State, s.pins.ready = false → s.NoResetNext → step s = .next t →
    ∃ recs, t.history = s.history ++ recs ∧ ∀ r ∈ recs, r.master ≠ .cpu

/-- R110, R16, R159: while `READY = 0` holds a bus cycle, a prefetch of the bus interface included, a move of the
processor changes nothing; with `READY` held at 0 it hangs so, and that is no fault. -/
def Obligations.HeldCycleIdlesTheProcessor : Prop :=
  ∀ s : State, s.busy ≠ none → s.pins.ready = false →
    turnOf s = .next s ∧
    (s.busOwner = .cpu → s.script = [] → step s = .next { s with turn := .free })

/-- R110: wait states add time and nothing else. An instruction whose first bus cycle is held by `READY = 0` and
that goes on when `READY` is 1 leaves what it leaves with `READY = 1` throughout. -/
def Obligations.WaitStatesOnlyDelay : Prop :=
  ∀ (i : Instr) (s p : State), s.micro = [] → s.busy = none →
    exec i { s with pins := { s.pins with ready := false } } = .next p → p.micro ≠ [] →
    { p with pins := { p.pins with ready := true } }.resume =
      exec i { s with pins := { s.pins with ready := true } }

/-- R62: a stack write of an entry onto a byte that is in the queue is refused, whatever begins the entry and
whichever of the three words the byte belongs to, when no word up to that one lies at an end (R55). -/
def Obligations.StaleStackWriteRefused : Prop :=
  ∀ (s : State) (o : Host.Outcome State Fault Refusal) (n k : Nat), EntryBegins n s o → s.BusFree →
    s.overVector n = false → k < 3 → (∀ j, j ≤ k → wordAtEnd s.cfg s.ss (s.pushSlot j) = false) →
    s.inQueue [phys s.cfg s.ss (s.pushSlot k), phys s.cfg s.ss (s.pushSlot k) + 1#20] = true →
    o = .refused .staleQueue

/-- R64, U5: a read where the launch declares no memory takes a free value (log 9), whatever memory lists
there. -/
def Obligations.UndeclaredReadIsFree : Prop :=
  ∀ (s : State) (pa : Addr), s.BusFree → s.isAbsent pa = true →
    ∃ t, s.runCycle ⟨.memRead, pa, 8, 0#16, none⟩ = .ok t ∧
      t.latch = s.latch ++ [Config.freeByte s.draws] ∧ t.mem = s.mem

/-! ### Other masters -/

/-- R114: the two steps of the hold handshake, enabled exactly as the rule says; else the model's fault
(log 10). -/
def Obligations.HoldHandshake : Prop :=
  ∀ (s : State) (rest : List Act), s.pins.reset = false →
    (s.script = .bus .grantHold :: rest →
      step s = if s.cfg.mode = .min ∧ s.busOwner = .cpu ∧ s.pins.hold = true ∧ s.busy = none
        then .next { s with script := rest, busOwner := .hold }
        else .fault (.notEnabled (.bus .grantHold))) ∧
    (s.script = .bus .releaseHold :: rest →
      step s = if s.busOwner = .hold ∧ s.pins.hold = false
        then .next { s with script := rest, busOwner := .cpu }
        else .fault (.notEnabled (.bus .releaseHold)))

/-- R118: the three steps of the request/grant handshake, each enabled exactly as the rule says, in maximum mode,
where the lines exist (R116): a request sets the latch; a grant, not while `lock_active`, not during a bus
cycle, and of line 0 before line 1, gives the bus away, clears the latch and pulses the line (R9); a release gives
the bus back. Else the model's fault (log 10). -/
def Obligations.LineHandshake : Prop :=
  ∀ (s : State) (l : Line) (rest : List Act),
    (s.script = .env (.request l) :: rest →
      step s = if s.cfg.mode = .max ∧ s.busOwner ≠ l.master ∧ s.req l = false
        then .next { s with
          script := rest, req0 := s.req0 || decide (l = .gt0), req1 := s.req1 || decide (l = .gt1) }
        else .fault (.notEnabled (.env (.request l)))) ∧
    (s.pins.reset = false → s.script = .bus (.grantLine l) :: rest →
      step s = if s.cfg.mode = .max ∧ s.busOwner = .cpu ∧ s.req l = true ∧ s.lockActive = false ∧
          s.busy = none ∧ (l = .gt0 ∨ s.req0 = false)
        then .next { s with
          script := rest, busOwner := l.master
          req0 := s.req0 && decide (l ≠ .gt0), req1 := s.req1 && decide (l ≠ .gt1)
          grants := s.grants ++ [⟨l, s.history.length⟩] }
        else .fault (.notEnabled (.bus (.grantLine l)))) ∧
    (s.script = .env (.release l) :: rest →
      step s = if s.busOwner = l.master then .next { s with script := rest, busOwner := .cpu }
        else .fault (.notEnabled (.env (.release l))))

/-- R120: no master on `RQ/GT0` or `RQ/GT1` gets the bus while `lock_active` is 1. -/
def Obligations.LockKeepsTheBus : Prop :=
  ∀ s t : State, s.lockActive = true → s.busOwner = .cpu → step s = .next t →
    t.busOwner ≠ .gt0 ∧ t.busOwner ≠ .gt1

/-- R124, R62: a byte write of the master that owns the bus stores its byte, is recorded under its name with its
width and data, and touches nothing else of memory or the processor; onto a queued byte it is refused. That the
record has `locked = 0` is the model's reading (log 16). -/
def Obligations.OtherMasterWrite : Prop :=
  ∀ (s : State) (rest : List Act) (pa : Addr) (d : Word), Memory.wf s.mem = true →
    s.busOwner ≠ .cpu → s.script = .env (.master .memWrite pa 8 d) :: rest →
    (s.inQueue [pa] = true → step s = .refused .staleQueue) ∧
    (s.inQueue [pa] = false → s.isAbsent pa = false →
      ∃ t r, step s = .next t ∧ Memory.read t.mem pa.toNat = d.setWidth 8 ∧ s.SameOutside t [pa] ∧
        t.history = s.history ++ [r] ∧ r.master = s.busOwner ∧ r.kind = .memWrite ∧ r.pa = pa ∧
        r.width = 8 ∧ r.data = some ((loByte d).setWidth 16) ∧
        r.locked = false ∧ t.gen = s.gen ∧ t.flags = s.flags ∧ t.cs = s.cs ∧ t.ip = s.ip ∧
        t.queue = s.queue ∧ t.busOwner = s.busOwner)

/-! ### Instructions -/

/-- R125: `CLI` clears `IF` and changes nothing else the spec names; like every instruction it ends a `LOCK`
and the inhibition of an earlier `STI`, and is followed by a boundary. -/
def Obligations.CliResult : Prop :=
  ∀ s : State, exec .cli s = .next { s with
    flags := { s.flags with ifl := false }
    lockActive := false, intInhibit := false, boundary := some s.flags.tf }

/-- R126: `STI` sets `IF` and `int_inhibit`, and changes nothing else the spec names. -/
def Obligations.StiResult : Prop :=
  ∀ s : State, exec .sti s = .next { s with
    flags := { s.flags with ifl := true }
    lockActive := false, intInhibit := true, boundary := some s.flags.tf }

/-- R128, R122: `NOP` changes no register, flag or memory, and `WAIT` with `TEST = 0` does what `NOP` does
(a processor that runs an instruction is not waiting). -/
def Obligations.NopAndReleasedWaitResult : Prop :=
  ∀ s : State,
    exec .nop s = .next { s with lockActive := false, intInhibit := false, boundary := some s.flags.tf } ∧
    (s.pins.test = false → exec .wait s = .next { s with
      waiting := false, lockActive := false, intInhibit := false, boundary := some s.flags.tf })

/-- R127: `WAIT` with `TEST = 1` idles; `lock_active` stays (R129); that `int_inhibit` ends here is log 12. -/
def Obligations.WaitIdles : Prop :=
  ∀ s : State, s.pins.test = true →
    exec .wait s = .next { s with waiting := true, intInhibit := false, boundary := none }

/-- R127: an idle `WAIT` ends when `TEST` is 0, whatever else is due; with `TEST = 1` and nothing due it idles
on. That the release comes first is the default turn's choice (log 8), that it ends the inhibition of an earlier
`STI` is log 12, and that its boundary looks at the present `TF` is log 14 (R129, R138). What a due interrupt
does to an idle `WAIT` is `InterruptEndsWait`. -/
def Obligations.IdleWaitGoesOn : Prop :=
  ∀ s : State, s.Quiet → s.waiting = true → s.halted = false →
    (s.pins.test = false → step s = .next { s with
      turn := .free, waiting := false, lockActive := false, intInhibit := false
      boundary := some s.flags.tf }) ∧
    (s.pins.test = true → s.nmiPending = false → s.dueIntr = false →
      step s = .next { s with turn := .free })

/-- R129, R71, R75: the prefix sets `lock_active` and no boundary follows it; a second one is refused. -/
def Obligations.LockResult : Prop :=
  ∀ s : State,
    (s.lockActive = false → exec .lock s = .next { s with lockActive := true, boundary := none }) ∧
    (s.lockActive = true → exec .lock s = .refused (.opcodeOutOfScope s.cfg.opc.lock))

/-- R130, R129: `HLT` runs one `Halt` cycle, which moves no data and carries the `LOCK` level, then the
processor is halted with `lock_active = 0`; no register, flag or memory location changes. That `int_inhibit`
ends here and that no boundary is left are logs 12 and 14. -/
def Obligations.HltResult : Prop :=
  ∀ s : State, s.BusFree → ∃ t r, exec .hlt s = .next t ∧ t.history = s.history ++ [r] ∧
    r.master = .cpu ∧ r.kind = .halt ∧ r.width = 0 ∧ r.data = none ∧ r.locked = s.lockActive ∧
    t = { s with
      halted := true, lockActive := false, intInhibit := false, boundary := none
      history := t.history, draws := t.draws, latch := [] }

/-- R131, R132, R133, R147: `INT n`, `INT 3` and, with `OF = 1`, `INTO` take the interrupt of their type and
save the offset of the following instruction; `lock_active` is 0 afterwards, and its bus cycles are those of an
entry, locked if the instruction was (R120, R149, R174). That the boundary after it looks at the `TF` from
before the entry is log 14. -/
def Obligations.SoftwareInterruptResult : Prop :=
  ∀ (s : State) (i : Instr) (n : Nat), s.EntryRuns n → Memory.wf s.mem = true → Enters i n s →
    ∃ t, exec i s = .next t ∧ s.EntryDone n s.ip t ∧ s.EntryRecords n s.ip s.lockActive t ∧
      t.lockActive = false ∧ t.intInhibit = false ∧ t.boundary = some s.flags.tf ∧
      t.nmiPending = s.nmiPending

/-- R133: `INTO` with `OF = 0` does nothing. -/
def Obligations.IntoWithoutOverflow : Prop :=
  ∀ s : State, s.flags.of = false → exec .into s = .next { s with
    lockActive := false, intInhibit := false, boundary := some s.flags.tf }

/-- R74: `CC` and `CD 03` are both instructions, raise the same interrupt of type 3, and differ in length, 1 byte
against 2, hence in the `IP` saved: the offset fetched from plus 1, or plus 2. -/
def Obligations.BothFormsOfInt3 : Prop :=
  decode gkOpcodes [0xCC#8] = .ok (.int3, []) ∧ decode gkOpcodes [0xCD#8, 0x03#8] = .ok (.intN 3, []) ∧
    encode gkOpcodes .int3 = [0xCC#8] ∧ encode gkOpcodes (.intN 3) = [0xCD#8, 0x03#8] ∧
    (∀ s : State, exec .int3 s = exec (.intN 3) s) ∧
    ∀ s s' : State, s'.EntryRuns 3 → Memory.wf s'.mem = true →
      (s'.FetchedFrom s 1 → ∃ t, exec .int3 s' = .next t ∧ s'.EntryDone 3 (s.ip + 1#16) t) ∧
      (s'.FetchedFrom s 2 → ∃ t, exec (.intN 3) s' = .next t ∧ s'.EntryDone 3 (s.ip + 2#16) t)

/-- R134: `IRET` pops `IP`, `CS` and the flags image, in that order, and empties the queue, reported once (R102);
`SP` grows by 6, and no memory and no other register changes. Its bus cycles are the reads of the three words, in
that order (R174) and in the stack segment (R44, R96), with the `IF` from before (R97), and locked if the
instruction was (R120). -/
def Obligations.IretResult : Prop :=
  ∀ s : State, s.ReturnRuns → ∃ t, exec .iret s = .next t ∧
    t.ip = s.wordAt (phys s.cfg s.ss s.gen.sp) ∧ t.cs = s.wordAt (phys s.cfg s.ss (s.gen.sp + 2#16)) ∧
    t.flags = Flags.ofImage (s.wordAt (phys s.cfg s.ss (s.gen.sp + 4#16))) ∧
    t.gen = { s.gen with sp := s.gen.sp + 6#16 } ∧ t.queue = [] ∧ t.fetchOff = t.ip ∧ t.mem = s.mem ∧
    s.SameFixed t ∧ t.lockActive = false ∧ t.intInhibit = false ∧ t.boundary = some s.flags.tf ∧
    t.nmiPending = s.nmiPending ∧ t.halted = s.halted ∧ t.waiting = s.waiting ∧
    t.qsHistory = s.qsHistory ++ s.qsReports [.flush] ∧
    s.Ran s.lockActive (under s.flags.ifl s.returnCycles) t.history

/-- R150: `IRET` undoes an entry. From any state `u` that has the stack as the entry left it, it returns to
the `CS:IP`, flags and `SP` from before. -/
def Obligations.ReturnUndoesEntry : Prop :=
  ∀ (s t u : State) (n : Nat), s.EntryRuns n → s.cfg.wf = true → Memory.wf s.mem = true →
    exec (.intN n) s = .next t → u.BusFree → u.ss = t.ss → u.gen.sp = t.gen.sp → u.mem = t.mem →
    u.absent = t.absent → u.cfg.physRule = t.cfg.physRule →
    ∃ v, exec .iret u = .next v ∧ v.ip = s.ip ∧ v.cs = s.cs ∧ v.flags = s.flags ∧
      v.gen.sp = s.gen.sp ∧ v.mem = u.mem

/-- R55, U3: a push of an entry, whatever begins it, or a pop of `IRET` at offset `FFFFH` or at physical address
`FFFFFH` is refused, whichever of the three words it is, when the earlier ones go through. -/
def Obligations.WordAtSegmentEndRefused : Prop :=
  ∀ (s : State) (k : Nat), s.BusFree → k < 3 →
    (∀ n o, EntryBegins n s o → s.overVector n = false → wordAtEnd s.cfg s.ss (s.pushSlot k) = true →
      (∀ j, j < k → wordAtEnd s.cfg s.ss (s.pushSlot j) = false ∧
        s.inQueue [phys s.cfg s.ss (s.pushSlot j), phys s.cfg s.ss (s.pushSlot j) + 1#20] = false) →
      o = .refused .wordAtSegmentEnd) ∧
    (wordAtEnd s.cfg s.ss (s.popSlot k) = true → (∀ j, j < k → wordAtEnd s.cfg s.ss (s.popSlot j) = false) →
      exec .iret s = .refused .wordAtSegmentEnd)

/-- R147, U11: an entry whose stack bytes touch its vector bytes is refused, whatever begins it. That the overlap is
decided before the first access, from the addresses alone (so also while the bus is not free, and where a pushed word
is one that R55 refuses), is the model's reading of R147 (DEDUCED, log 18); that such a word's second byte is taken
at `pa + 1` modulo 2^20 for this is its DESIGN CHOICE (log 18). -/
def Obligations.StackOverVectorRefused : Prop :=
  ∀ (s : State) (o : Host.Outcome State Fault Refusal) (n : Nat) (a : Addr), EntryBegins n s o →
    a ∈ s.entryStack s.gen.sp → a ∈ vectorBytes n → o = .refused .stackOverVector

/-! ### Boundaries, idling, interrupts -/

/-- R138, R141, R143: at a boundary a pending `NMI` is taken whatever `IF` is, with type 2 and without an
acknowledge cycle, saving the offset of the next instruction; the request is forgotten. -/
def Obligations.NmiTakenAtBoundary : Prop :=
  ∀ s : State, s.AtBoundary false → s.nmiPending = true → { s with turn := .free }.EntryRuns 2 →
    Memory.wf s.mem = true →
    ∃ t recs, step s = .next t ∧ s.EntryDone 2 s.ip t ∧
      { s with turn := .free }.EntryRecords 2 s.ip s.lockActive t ∧ t.nmiPending = false ∧
      t.lockActive = s.lockActive ∧ t.boundary = some false ∧ t.history = s.history ++ recs ∧ ∀ r ∈ recs, r.kind ≠ .intAck

/-- R22, R138, R144: at the boundary after an instruction begun with `TF = 1`, with nothing else due, the
interrupt of type 1 is taken. -/
def Obligations.SingleStepTakenAtBoundary : Prop :=
  ∀ s : State, s.AtBoundary true → s.nmiPending = false → s.dueIntr = false →
    { s with turn := .free }.EntryRuns 1 → Memory.wf s.mem = true →
    ∃ t, step s = .next t ∧ s.EntryDone 1 s.ip t ∧
      { s with turn := .free }.EntryRecords 1 s.ip s.lockActive t ∧
      t.boundary = some false ∧ t.nmiPending = false

/-- R138, R146, U10: a single step due together with `NMI` or `INTR` is refused. -/
def Obligations.SimultaneousRefused : Prop :=
  ∀ s : State, s.AtBoundary true → (s.nmiPending = true ∨ s.dueIntr = true) →
    step s = .refused .simultaneousWithSingleStep

/-- R137, R138, R140: at a boundary an `INTR` with `IF = 1` is acknowledged by `INTA_CYCLES` cycles of kind
`IntAck`, and nothing else has changed; the entry of the type the controller answers comes next (as a step of
its own, log 13), and where its premises hold that step completes it, saving the offset of the next
instruction. -/
def Obligations.IntrAcknowledged : Prop :=
  ∀ (s : State) (b : Byte), s.AtBoundary false → s.nmiPending = false → s.dueIntr = true →
    s.intInhibit = false → s.cfg.wf = true → s.pins.vector = some b →
    ∃ t, step s = .next t ∧ { s with turn := .free, boundary := none }.Acknowledged b s.ip t ∧
      ({ s with turn := .free }.EntryRuns b.toNat → Memory.wf s.mem = true →
        ∃ u, step t = .next u ∧ s.EntryDone b.toNat s.ip u ∧ t.EntryRecords b.toNat s.ip s.lockActive u ∧
          u.boundary = some false ∧ u.lockActive = s.lockActive)

/-- R31, R137, R139: with `IF = 0`, or with the pin at 0, `INTR` changes nothing at a boundary: the step is
that of the next instruction. -/
def Obligations.MaskedIntrIgnored : Prop :=
  ∀ s : State, s.AtBoundary false → s.nmiPending = false → s.dueIntr = false →
    step s = step { s with boundary := none }

/-- R137, R143, R104: an acknowledge cycle is run only when `INTR` is 1 and `IF` is 1. -/
def Obligations.AcknowledgeOnlyForIntr : Prop :=
  ∀ s t : State, s.micro = [] → s.dueIntr = false → s.NoResetNext → step s = .next t →
    ∃ recs, t.history = s.history ++ recs ∧ ∀ r ∈ recs, r.kind ≠ .intAck

/-- R36, R126, R138, U14: at the boundary right after `STI` a due `INTR` is taken or not, as the turn
chooses. -/
def Obligations.IntrAfterStiEitherWay : Prop :=
  ∀ s : State, s.AtBoundary false → s.nmiPending = false → s.dueIntr = true → s.intInhibit = true →
    (s.turn.alt = true → turnOf s = { s with boundary := none }.acknowledge s.ip) ∧
    (s.turn.alt = false → turnOf s = turnOf { s with boundary := none })

/-- R142, R165: a rising edge on `NMI` sets the latch, a level does not, and none is remembered while
`RESET` is 1. -/
def Obligations.NmiEdgeLatched : Prop :=
  ∀ (s : State) (level : Bool) (rest : List Act), s.script = .env (.pin .nmi level) :: rest →
    ∃ t, step s = .next t ∧ t.pins.nmi = level ∧
      t.nmiPending = (s.nmiPending || (level && !s.pins.nmi && !s.pins.reset)) ∧
      t.history = s.history ∧ t.gen = s.gen ∧ t.flags = s.flags ∧ t.ip = s.ip ∧ t.mem = s.mem

/-- R130, R148, R151: a pending `NMI` ends a halt, and so does a due `INTR`, which is acknowledged first; the
offset saved is the one after the `HLT`. -/
def Obligations.InterruptEndsHalt : Prop :=
  (∀ s : State, s.Quiet → s.halted = true → s.nmiPending = true →
    { s with turn := .free }.EntryRuns 2 → Memory.wf s.mem = true →
    ∃ t, step s = .next t ∧ s.EntryDone 2 s.ip t ∧
      { s with turn := .free }.EntryRecords 2 s.ip s.lockActive t ∧
      t.nmiPending = false ∧ t.boundary = some false) ∧
  ∀ (s : State) (b : Byte), s.Quiet → s.halted = true → s.nmiPending = false → s.dueIntr = true →
    s.intInhibit = false → s.cfg.wf = true → s.pins.vector = some b →
    ∃ t, step s = .next t ∧ { s with turn := .free, halted := false }.Acknowledged b s.ip t ∧
      ({ s with turn := .free }.EntryRuns b.toNat → Memory.wf s.mem = true →
        ∃ u, step t = .next u ∧ s.EntryDone b.toNat s.ip u ∧ t.EntryRecords b.toNat s.ip s.lockActive u ∧
          u.boundary = some false)

/-- R127, R148, R151: an `NMI` taken while `WAIT` idles, and an `INTR` acknowledged and taken then, save the
address of the `WAIT` itself, prefix included, and end its `LOCK` first: no cycle of the entry is locked. That the
acknowledge cycles before it are not locked either is the model's choice (log 29). -/
def Obligations.InterruptEndsWait : Prop :=
  (∀ s : State, s.Quiet → s.waiting = true → s.halted = false → s.pins.test = true →
    s.nmiPending = true → { s with turn := .free }.EntryRuns 2 → Memory.wf s.mem = true →
    ∃ t, step s = .next t ∧ s.EntryDone 2 s.insnStart t ∧
      { s with turn := .free }.EntryRecords 2 s.insnStart false t ∧
      t.nmiPending = false ∧ t.lockActive = false ∧ t.boundary = some false) ∧
  ∀ (s : State) (b : Byte), s.Quiet → s.waiting = true → s.halted = false → s.pins.test = true →
    s.nmiPending = false → s.dueIntr = true → s.intInhibit = false → s.cfg.wf = true →
    s.pins.vector = some b →
    ∃ t, step s = .next t ∧ { s with turn := .free, lockActive := false }.Acknowledged b s.insnStart t ∧
      ({ s with turn := .free }.EntryRuns b.toNat → Memory.wf s.mem = true →
        ∃ u, step t = .next u ∧ s.EntryDone b.toNat s.insnStart u ∧
          t.EntryRecords b.toNat s.insnStart false u ∧
          u.lockActive = false ∧ u.boundary = some false)

/-- R130, R176: the end of a run is final: with nothing due the halted processor stays as it is. -/
def Obligations.EndOfRunStays : Prop :=
  ∀ s : State, s.EndOfRun → s.Quiet → step s = .next { s with turn := .free }

/-! ### Pins and codes -/

/-- R94: the codes on `S2 S1 S0`, outputs of maximum mode only, name the kind of the bus cycle of the
processor, by the rule's table; every code is a kind; between cycles they show `Passive`. In minimum mode there
are no such pins. -/
def Obligations.CycleKindCodes : Prop :=
  (∀ k, kindOfCode (CycleKind.code k) = k) ∧ (∀ c, (kindOfCode c).code = c) ∧
  [CycleKind.intAck, .ioRead, .ioWrite, .halt, .codeAccess, .memRead, .memWrite, .passive].map
    CycleKind.code = [0b000#3, 0b001#3, 0b010#3, 0b011#3, 0b100#3, 0b101#3, 0b110#3, 0b111#3] ∧
  ∀ g ∈ [(Signal.s0, 0), (Signal.s1, 1), (Signal.s2, 2)],
    g.1.direction = .output ∧ (∀ chip pin, pinSignal chip .min pin ≠ some g.1) ∧
    (∀ chip, ∃ pin, pinSignal chip .max pin = some g.1) ∧
    (∀ (s : State) (m : Moment) (q : Option QueueOp), s.cfg.mode = .min → s.outputLevel m q g.1 = .noPin) ∧
    ∀ (s : State) (q : Option QueueOp), s.cfg.mode = .max → s.busOwner = .cpu → s.pins.reset = false →
      (∀ r part, s.outputLevel (.cycle r part) q g.1 = .ofBool (r.kind.code.getLsbD g.2)) ∧
      s.outputLevel .between q g.1 = .ofBool (CycleKind.code .passive |>.getLsbD g.2)

/-- R96, R101: the codes on `S4 S3` and `QS1 QS0` name every segment and every queue operation, by the rules'
tables, and every code is one of them. In maximum mode the pins `QS1` and `QS0`, 24 and 25, are outputs that show
the code of the operation reported, whoever owns the bus (R108), outside RESET. -/
def Obligations.SegmentAndQueueCodes : Prop :=
  (∀ g, segOfCode (Seg.code g) = g) ∧ (∀ c, (segOfCode c).code = c) ∧
  (∀ q, queueOfCode (queueCode q) = q) ∧ (∀ c, queueCode (queueOfCode c) = c) ∧
  Seg.code .es = 0b00#2 ∧ Seg.code .ss = 0b01#2 ∧ Seg.code .cs = 0b10#2 ∧ Seg.code .ds = 0b11#2 ∧
  queueCode none = 0b00#2 ∧ queueCode (some .first) = 0b01#2 ∧ queueCode (some .flush) = 0b10#2 ∧
  queueCode (some .next) = 0b11#2 ∧
  (∀ chip, pinSignal chip .max 24 = some .qs1 ∧ pinSignal chip .max 25 = some .qs0) ∧
  Signal.direction .qs1 = .output ∧ Signal.direction .qs0 = .output ∧
  ∀ (s : State) (m : Moment) (q : Option QueueOp), s.cfg.mode = .max → s.pins.reset = false →
    s.outputLevel m q .qs1 = .ofBool ((queueCode q).getLsbD 1) ∧
    s.outputLevel m q .qs0 = .ofBool ((queueCode q).getLsbD 0)

/-- R80 to R83: the pin maps, pins 1 to 40 in order, the pins in which they differ, and pin 34 of the 8088 in
maximum mode, which is 1 (D26). That it is 1 in every state, also while the bus is given away and during `RESET`,
is the model's reading (PRESUMED, log 20). R89: the eight signals lost in maximum mode, the eight that exist there
only, and that a signal without a pin shows no level; R86, D31: the strap's level, and that a change of it
is refused. -/
def Obligations.PinMaps : Prop :=
  (List.range' 1 40).map (pinSignal .i8086 .min) = ([.gnd, .ad 14, .ad 13, .ad 12, .ad 11, .ad 10, .ad 9,
    .ad 8, .ad 7, .ad 6, .ad 5, .ad 4, .ad 3, .ad 2, .ad 1, .ad 0, .nmi, .intr, .clk, .gnd, .reset, .ready,
    .test, .inta, .ale, .den, .dtr, .mio, .wr, .hlda, .hold, .rd, .mnmx, .bheS7, .addrStatus 19,
    .addrStatus 18, .addrStatus 17, .addrStatus 16, .ad 15, .vcc] : List Signal).map some ∧
  (List.range' 1 40).map (pinSignal .i8088 .min) = ([.gnd, .addr 14, .addr 13, .addr 12, .addr 11, .addr 10,
    .addr 9, .addr 8, .ad 7, .ad 6, .ad 5, .ad 4, .ad 3, .ad 2, .ad 1, .ad 0, .nmi, .intr, .clk, .gnd, .reset,
    .ready, .test, .inta, .ale, .den, .dtr, .iom, .wr, .hlda, .hold, .rd, .mnmx, .ss0, .addrStatus 19,
    .addrStatus 18, .addrStatus 17, .addrStatus 16, .addr 15, .vcc] : List Signal).map some ∧
  (List.range' 24 8).map (pinSignal .i8086 .max) =
    [some .qs1, some .qs0, some .s0, some .s1, some .s2, some .lock, some .rqgt1, some .rqgt0] ∧
  (∀ pin, pinSignal .i8088 .min pin ≠ pinSignal .i8086 .min pin ↔ pin ∈ [2, 3, 4, 5, 6, 7, 8, 28, 34, 39]) ∧
  (∀ pin, pinSignal .i8086 .max pin ≠ pinSignal .i8086 .min pin ↔ 24 ≤ pin ∧ pin ≤ 31) ∧
  (∀ pin, 24 ≤ pin ∧ pin ≤ 31 → pinSignal .i8088 .max pin = pinSignal .i8086 .max pin) ∧
  (∀ pin, ¬(24 ≤ pin ∧ pin ≤ 31) → pinSignal .i8088 .max pin = pinSignal .i8088 .min pin) ∧
  (∀ (s : State) (m : Moment) (q : Option QueueOp), s.cfg.chip = .i8088 → s.cfg.mode = .max →
    s.outputLevel m q .ss0 = .one) ∧
  (∀ chip pin, ∀ g ∈ [Signal.inta, .ale, .den, .dtr, .mio, .iom, .wr, .hlda, .hold],
    pinSignal chip .max pin ≠ some g) ∧
  (∀ chip pin, ∀ g ∈ [Signal.rqgt0, .rqgt1, .lock, .s2, .s1, .s0, .qs0, .qs1],
    pinSignal chip .min pin ≠ some g) ∧
  (∀ (s : State) (m : Moment) (q : Option QueueOp) (g : Signal),
    (∀ pin, pinSignal s.cfg.chip s.cfg.mode pin ≠ some g) → s.outputLevel m q g = .noPin) ∧
  (∀ (s : State) (level : Bool) (rest : List Act), s.script = .env (.pin .mnmx level) :: rest →
    step s = if level = strapLevel s.cfg.mode
      then .next { s with script := rest, pins := { s.pins with mnmx := level } }
      else .refused .modeChanged) ∧
  (∀ pin, (pinSignal .i8086 .min pin).isSome ↔ 1 ≤ pin ∧ pin ≤ 40) ∧
  strapLevel .min = true ∧ strapLevel .max = false

/-- R113: `HLDA`, pin 30 in minimum mode, an output, is 1 exactly while `bus_owner = hold`, else 0. -/
def Obligations.HldaShowsHold : Prop :=
  (∀ chip, pinSignal chip .min 30 = some .hlda) ∧ Signal.direction .hlda = .output ∧
  ∀ (s : State) (m : Moment) (q : Option QueueOp), s.cfg.mode = .min →
    s.outputLevel m q .hlda = if s.busOwner = .hold then .one else .zero

/-- R98, R108, R115: while another master owns the bus the processor drives none of the address, data, status and
control pins the part has, whatever the bus shows. Pin 34 of the 8088 in maximum mode is left out: the model
holds it at 1 then too (R83; PRESUMED, log 20). -/
def Obligations.PinsFloatWithoutTheBus : Prop :=
  ∀ (s : State) (m : Moment) (q : Option QueueOp) (pin : Nat) (g : Signal), s.busOwner ≠ .cpu →
    pinSignal s.cfg.chip s.cfg.mode pin = some g →
    ((∃ i, g = .ad i ∨ g = .addr i ∨ g = .addrStatus i) ∨
      g ∈ [Signal.bheS7, .rd, .wr, .mio, .iom, .dtr, .den, .inta, .s2, .s1, .s0, .lock] ∨
      g = .ss0 ∧ s.cfg.mode = .min) →
    s.outputLevel m q g = .hiZ

/-- R96, R97, R98: in the status part of its bus cycles the processor shows the segment on `A17/S4`,
`A16/S3`, the `IF` of the record on `A18/S5`, and 0 on `A19/S6`. -/
def Obligations.StatusPartLevels : Prop :=
  ∀ (s : State) (r : BusRecord) (q : Option QueueOp), s.busOwner = .cpu → s.pins.reset = false →
    s.outputLevel (.cycle r .status) q (.addrStatus 16) = .ofBool (r.seg.getLsbD 0) ∧
    s.outputLevel (.cycle r .status) q (.addrStatus 17) = .ofBool (r.seg.getLsbD 1) ∧
    s.outputLevel (.cycle r .status) q (.addrStatus 18) = .ofBool r.ifl ∧
    s.outputLevel (.cycle r .status) q (.addrStatus 19) = .zero

/-- R46, R103: which banks `A0` and `BHE` enable, and the level of `BHE` for the cycles of R48 to R50. -/
def Obligations.BankSelection : Prop :=
  banksEnabled false true = (true, false) ∧ banksEnabled true false = (false, true) ∧
  banksEnabled false false = (true, true) ∧ banksEnabled true true = (false, false) ∧
  ∀ pa : Addr,
    (isOdd pa = false → bheLevel pa 8 = true ∧ bheLevel pa 16 = false) ∧
    (isOdd pa = true → bheLevel pa 8 = false)
end

