-- ==== Sys2Proof/Laws/Memory.lean ====
section
/-! SUPPORT. The laws of memory: reading after writing, and that writing keeps the canonical form. -/

namespace Sys2Proof.Machine

open Sys2Proof

/-- In canonical form from `lo` on, an address below `lo` is not listed. -/
theorem Memory.read_of_wfFrom_lt {m : List Host.Cell} {lo x : Nat} (h : Memory.wfFrom lo m = true)
    (hx : x < lo) : Memory.read m x = unwritten := by
  induction m generalizing lo with
  | nil => rfl
  | cons c m ih =>
    obtain ⟨a, b⟩ := c
    simp only [Memory.wfFrom, Bool.and_eq_true, decide_eq_true_eq] at h
    have hne : x ≠ a := by omega
    simp only [Memory.read, hne, if_false]
    exact ih h.2 (by omega)

/-- The canonical form from a lower bound on. -/
theorem Memory.wfFrom_mono {m : List Host.Cell} {lo lo' : Nat} (h : Memory.wfFrom lo m = true)
    (hle : lo' ≤ lo) : Memory.wfFrom lo' m = true := by
  cases m with
  | nil => rfl
  | cons c m =>
    obtain ⟨a, b⟩ := c
    simp only [Memory.wfFrom, Bool.and_eq_true, decide_eq_true_eq] at h ⊢
    exact ⟨⟨⟨by omega, h.1.1.2⟩, h.1.2⟩, h.2⟩

/-- Writing keeps the canonical form. -/
theorem Memory.wfFrom_write {m : List Host.Cell} {lo x : Nat} (v : Byte)
    (h : Memory.wfFrom lo m = true) (hlo : lo ≤ x) (hx : x < 2 ^ 20) :
    Memory.wfFrom lo (Memory.write m x v) = true := by
  induction m generalizing lo with
  | nil =>
    by_cases hv : v = unwritten
    · simp [Memory.write, hv, Memory.wfFrom]
    · simp [Memory.write, hv, Memory.wfFrom, hlo]
      omega
  | cons c m ih =>
    obtain ⟨a, b⟩ := c
    simp only [Memory.wfFrom, Bool.and_eq_true, decide_eq_true_eq] at h
    simp only [Memory.write]
    split
    · split <;> simp [Memory.wfFrom, *] <;> omega
    · split
      · split
        · exact Memory.wfFrom_mono h.2 (by omega)
        · subst_vars
          simp [Memory.wfFrom, *]
          omega
      · simp only [Memory.wfFrom, Bool.and_eq_true, decide_eq_true_eq]
        exact ⟨h.1, ih h.2 (by omega)⟩

/-- Memory stays in its canonical form under a write. -/
theorem Memory.wf_write {m : List Host.Cell} {x : Nat} (v : Byte) (h : Memory.wf m = true)
    (hx : x < 2 ^ 20) : Memory.wf (Memory.write m x v) = true :=
  Memory.wfFrom_write v h (Nat.zero_le x) hx

/-- A read after a write to the same address gives the value written. -/
theorem Memory.read_write_same {m : List Host.Cell} {lo x : Nat} (v : Byte)
    (h : Memory.wfFrom lo m = true) : Memory.read (Memory.write m x v) x = v := by
  induction m generalizing lo with
  | nil => by_cases hv : v = unwritten <;> simp [Memory.write, hv, Memory.read]
  | cons c m ih =>
    obtain ⟨a, b⟩ := c
    simp only [Memory.wfFrom, Bool.and_eq_true, decide_eq_true_eq] at h
    simp only [Memory.write]
    split
    · rename_i hlt
      split
      · rename_i hv
        have hne : x ≠ a := by omega
        simp only [Memory.read, hne, if_false, hv]
        exact Memory.read_of_wfFrom_lt h.2 (by omega)
      · simp [Memory.read]
    · split
      · rename_i heq
        split
        · rename_i hv
          rw [hv]
          exact Memory.read_of_wfFrom_lt h.2 (by omega)
        · simp [Memory.read]
      · rename_i hne
        simp only [Memory.read, hne, if_false]
        exact ih h.2

/-- A write leaves every other address alone. -/
theorem Memory.read_write_other {m : List Host.Cell} {x y : Nat} (v : Byte) (h : y ≠ x) :
    Memory.read (Memory.write m x v) y = Memory.read m y := by
  induction m with
  | nil => by_cases hv : v = unwritten <;> simp [Memory.write, hv, Memory.read, h]
  | cons c m ih =>
    obtain ⟨a, b⟩ := c
    simp only [Memory.write]
    split
    · split <;> simp [Memory.read, h]
    · split
      · subst_vars
        split <;> simp [Memory.read, h]
      · simp only [Memory.read, ih]

/-- Reading any address after a write. -/
theorem Memory.read_write {m : List Host.Cell} {x y : Nat} (v : Byte) (h : Memory.wf m = true) :
    Memory.read (Memory.write m x v) y = if y = x then v else Memory.read m y := by
  split
  · subst_vars
    exact Memory.read_write_same v h
  · exact Memory.read_write_other v ‹_›

/-- A byte write keeps memory's canonical form. -/
theorem State.storeByte_wf {s : State} (a : Addr) (v : Byte) (h : Memory.wf s.mem = true) :
    Memory.wf (s.storeByte a v).mem = true := by
  unfold State.storeByte
  split
  · exact h
  · exact Memory.wf_write v h a.isLt

/-- A byte write leaves every other address alone. -/
theorem State.storeByte_read_other {s : State} {a : Addr} {x : Nat} (v : Byte) (h : x ≠ a.toNat) :
    Memory.read (s.storeByte a v).mem x = Memory.read s.mem x := by
  unfold State.storeByte
  split
  · rfl
  · exact Memory.read_write_other v h

/-- Where the launch declares memory, a byte write is read back. -/
theorem State.storeByte_read_same {s : State} {a : Addr} (v : Byte) (hp : s.isAbsent a = false)
    (h : Memory.wf s.mem = true) : Memory.read (s.storeByte a v).mem a.toNat = v := by
  simp only [State.storeByte, hp]
  exact Memory.read_write_same v h

end Sys2Proof.Machine
end

