-- ==== Sys2Proof/Laws/State.lean ====
section
/-! SUPPORT. What each update of the state changes and leaves alone: one lemma per update and field. -/

namespace Sys2Proof.Machine

open Sys2Proof

@[simp] theorem State.setIf_cfg (s : State) (b : Bool) : (s.setIf b).cfg = s.cfg := rfl
@[simp] theorem State.setIf_gen (s : State) (b : Bool) : (s.setIf b).gen = s.gen := rfl
@[simp] theorem State.setIf_cs (s : State) (b : Bool) : (s.setIf b).cs = s.cs := rfl
@[simp] theorem State.setIf_ds (s : State) (b : Bool) : (s.setIf b).ds = s.ds := rfl
@[simp] theorem State.setIf_ss (s : State) (b : Bool) : (s.setIf b).ss = s.ss := rfl
@[simp] theorem State.setIf_es (s : State) (b : Bool) : (s.setIf b).es = s.es := rfl
@[simp] theorem State.setIf_ip (s : State) (b : Bool) : (s.setIf b).ip = s.ip := rfl
@[simp] theorem State.setIf_flags (s : State) (b : Bool) : (s.setIf b).flags = { s.flags with ifl := b } := rfl
@[simp] theorem State.setIf_queue (s : State) (b : Bool) : (s.setIf b).queue = s.queue := rfl
@[simp] theorem State.setIf_fetchOff (s : State) (b : Bool) : (s.setIf b).fetchOff = s.fetchOff := rfl
@[simp] theorem State.setIf_nmiPending (s : State) (b : Bool) : (s.setIf b).nmiPending = s.nmiPending := rfl
@[simp] theorem State.setIf_halted (s : State) (b : Bool) : (s.setIf b).halted = s.halted := rfl
@[simp] theorem State.setIf_waiting (s : State) (b : Bool) : (s.setIf b).waiting = s.waiting := rfl
@[simp] theorem State.setIf_busOwner (s : State) (b : Bool) : (s.setIf b).busOwner = s.busOwner := rfl
@[simp] theorem State.setIf_req0 (s : State) (b : Bool) : (s.setIf b).req0 = s.req0 := rfl
@[simp] theorem State.setIf_req1 (s : State) (b : Bool) : (s.setIf b).req1 = s.req1 := rfl
@[simp] theorem State.setIf_lockActive (s : State) (b : Bool) : (s.setIf b).lockActive = s.lockActive := rfl
@[simp] theorem State.setIf_intInhibit (s : State) (b : Bool) : (s.setIf b).intInhibit = s.intInhibit := rfl
@[simp] theorem State.setIf_mem (s : State) (b : Bool) : (s.setIf b).mem = s.mem := rfl
@[simp] theorem State.setIf_absent (s : State) (b : Bool) : (s.setIf b).absent = s.absent := rfl
@[simp] theorem State.setIf_history (s : State) (b : Bool) : (s.setIf b).history = s.history := rfl
@[simp] theorem State.setIf_qsHistory (s : State) (b : Bool) : (s.setIf b).qsHistory = s.qsHistory := rfl
@[simp] theorem State.setIf_grants (s : State) (b : Bool) : (s.setIf b).grants = s.grants := rfl
@[simp] theorem State.setIf_pins (s : State) (b : Bool) : (s.setIf b).pins = s.pins := rfl
@[simp] theorem State.setIf_opbuf (s : State) (b : Bool) : (s.setIf b).opbuf = s.opbuf := rfl
@[simp] theorem State.setIf_insnStart (s : State) (b : Bool) : (s.setIf b).insnStart = s.insnStart := rfl
@[simp] theorem State.setIf_boundary (s : State) (b : Bool) : (s.setIf b).boundary = s.boundary := rfl
@[simp] theorem State.setIf_busy (s : State) (b : Bool) : (s.setIf b).busy = s.busy := rfl
@[simp] theorem State.setIf_micro (s : State) (b : Bool) : (s.setIf b).micro = s.micro := rfl
@[simp] theorem State.setIf_latch (s : State) (b : Bool) : (s.setIf b).latch = s.latch := rfl
@[simp] theorem State.setIf_turn (s : State) (b : Bool) : (s.setIf b).turn = s.turn := rfl
@[simp] theorem State.setIf_script (s : State) (b : Bool) : (s.setIf b).script = s.script := rfl
@[simp] theorem State.setIf_draws (s : State) (b : Bool) : (s.setIf b).draws = s.draws := rfl

@[simp] theorem State.clearIfTf_cfg (s : State) : (s.clearIfTf).cfg = s.cfg := rfl
@[simp] theorem State.clearIfTf_gen (s : State) : (s.clearIfTf).gen = s.gen := rfl
@[simp] theorem State.clearIfTf_cs (s : State) : (s.clearIfTf).cs = s.cs := rfl
@[simp] theorem State.clearIfTf_ds (s : State) : (s.clearIfTf).ds = s.ds := rfl
@[simp] theorem State.clearIfTf_ss (s : State) : (s.clearIfTf).ss = s.ss := rfl
@[simp] theorem State.clearIfTf_es (s : State) : (s.clearIfTf).es = s.es := rfl
@[simp] theorem State.clearIfTf_ip (s : State) : (s.clearIfTf).ip = s.ip := rfl
@[simp] theorem State.clearIfTf_flags (s : State) : (s.clearIfTf).flags = { s.flags with ifl := false, tf := false } := rfl
@[simp] theorem State.clearIfTf_queue (s : State) : (s.clearIfTf).queue = s.queue := rfl
@[simp] theorem State.clearIfTf_fetchOff (s : State) : (s.clearIfTf).fetchOff = s.fetchOff := rfl
@[simp] theorem State.clearIfTf_nmiPending (s : State) : (s.clearIfTf).nmiPending = s.nmiPending := rfl
@[simp] theorem State.clearIfTf_halted (s : State) : (s.clearIfTf).halted = s.halted := rfl
@[simp] theorem State.clearIfTf_waiting (s : State) : (s.clearIfTf).waiting = s.waiting := rfl
@[simp] theorem State.clearIfTf_busOwner (s : State) : (s.clearIfTf).busOwner = s.busOwner := rfl
@[simp] theorem State.clearIfTf_req0 (s : State) : (s.clearIfTf).req0 = s.req0 := rfl
@[simp] theorem State.clearIfTf_req1 (s : State) : (s.clearIfTf).req1 = s.req1 := rfl
@[simp] theorem State.clearIfTf_lockActive (s : State) : (s.clearIfTf).lockActive = s.lockActive := rfl
@[simp] theorem State.clearIfTf_intInhibit (s : State) : (s.clearIfTf).intInhibit = s.intInhibit := rfl
@[simp] theorem State.clearIfTf_mem (s : State) : (s.clearIfTf).mem = s.mem := rfl
@[simp] theorem State.clearIfTf_absent (s : State) : (s.clearIfTf).absent = s.absent := rfl
@[simp] theorem State.clearIfTf_history (s : State) : (s.clearIfTf).history = s.history := rfl
@[simp] theorem State.clearIfTf_qsHistory (s : State) : (s.clearIfTf).qsHistory = s.qsHistory := rfl
@[simp] theorem State.clearIfTf_grants (s : State) : (s.clearIfTf).grants = s.grants := rfl
@[simp] theorem State.clearIfTf_pins (s : State) : (s.clearIfTf).pins = s.pins := rfl
@[simp] theorem State.clearIfTf_opbuf (s : State) : (s.clearIfTf).opbuf = s.opbuf := rfl
@[simp] theorem State.clearIfTf_insnStart (s : State) : (s.clearIfTf).insnStart = s.insnStart := rfl
@[simp] theorem State.clearIfTf_boundary (s : State) : (s.clearIfTf).boundary = s.boundary := rfl
@[simp] theorem State.clearIfTf_busy (s : State) : (s.clearIfTf).busy = s.busy := rfl
@[simp] theorem State.clearIfTf_micro (s : State) : (s.clearIfTf).micro = s.micro := rfl
@[simp] theorem State.clearIfTf_latch (s : State) : (s.clearIfTf).latch = s.latch := rfl
@[simp] theorem State.clearIfTf_turn (s : State) : (s.clearIfTf).turn = s.turn := rfl
@[simp] theorem State.clearIfTf_script (s : State) : (s.clearIfTf).script = s.script := rfl
@[simp] theorem State.clearIfTf_draws (s : State) : (s.clearIfTf).draws = s.draws := rfl

@[simp] theorem State.setSp_cfg (s : State) (v : Word) : (s.setSp v).cfg = s.cfg := rfl
@[simp] theorem State.setSp_gen (s : State) (v : Word) : (s.setSp v).gen = { s.gen with sp := v } := rfl
@[simp] theorem State.setSp_cs (s : State) (v : Word) : (s.setSp v).cs = s.cs := rfl
@[simp] theorem State.setSp_ds (s : State) (v : Word) : (s.setSp v).ds = s.ds := rfl
@[simp] theorem State.setSp_ss (s : State) (v : Word) : (s.setSp v).ss = s.ss := rfl
@[simp] theorem State.setSp_es (s : State) (v : Word) : (s.setSp v).es = s.es := rfl
@[simp] theorem State.setSp_ip (s : State) (v : Word) : (s.setSp v).ip = s.ip := rfl
@[simp] theorem State.setSp_flags (s : State) (v : Word) : (s.setSp v).flags = s.flags := rfl
@[simp] theorem State.setSp_queue (s : State) (v : Word) : (s.setSp v).queue = s.queue := rfl
@[simp] theorem State.setSp_fetchOff (s : State) (v : Word) : (s.setSp v).fetchOff = s.fetchOff := rfl
@[simp] theorem State.setSp_nmiPending (s : State) (v : Word) : (s.setSp v).nmiPending = s.nmiPending := rfl
@[simp] theorem State.setSp_halted (s : State) (v : Word) : (s.setSp v).halted = s.halted := rfl
@[simp] theorem State.setSp_waiting (s : State) (v : Word) : (s.setSp v).waiting = s.waiting := rfl
@[simp] theorem State.setSp_busOwner (s : State) (v : Word) : (s.setSp v).busOwner = s.busOwner := rfl
@[simp] theorem State.setSp_req0 (s : State) (v : Word) : (s.setSp v).req0 = s.req0 := rfl
@[simp] theorem State.setSp_req1 (s : State) (v : Word) : (s.setSp v).req1 = s.req1 := rfl
@[simp] theorem State.setSp_lockActive (s : State) (v : Word) : (s.setSp v).lockActive = s.lockActive := rfl
@[simp] theorem State.setSp_intInhibit (s : State) (v : Word) : (s.setSp v).intInhibit = s.intInhibit := rfl
@[simp] theorem State.setSp_mem (s : State) (v : Word) : (s.setSp v).mem = s.mem := rfl
@[simp] theorem State.setSp_absent (s : State) (v : Word) : (s.setSp v).absent = s.absent := rfl
@[simp] theorem State.setSp_history (s : State) (v : Word) : (s.setSp v).history = s.history := rfl
@[simp] theorem State.setSp_qsHistory (s : State) (v : Word) : (s.setSp v).qsHistory = s.qsHistory := rfl
@[simp] theorem State.setSp_grants (s : State) (v : Word) : (s.setSp v).grants = s.grants := rfl
@[simp] theorem State.setSp_pins (s : State) (v : Word) : (s.setSp v).pins = s.pins := rfl
@[simp] theorem State.setSp_opbuf (s : State) (v : Word) : (s.setSp v).opbuf = s.opbuf := rfl
@[simp] theorem State.setSp_insnStart (s : State) (v : Word) : (s.setSp v).insnStart = s.insnStart := rfl
@[simp] theorem State.setSp_boundary (s : State) (v : Word) : (s.setSp v).boundary = s.boundary := rfl
@[simp] theorem State.setSp_busy (s : State) (v : Word) : (s.setSp v).busy = s.busy := rfl
@[simp] theorem State.setSp_micro (s : State) (v : Word) : (s.setSp v).micro = s.micro := rfl
@[simp] theorem State.setSp_latch (s : State) (v : Word) : (s.setSp v).latch = s.latch := rfl
@[simp] theorem State.setSp_turn (s : State) (v : Word) : (s.setSp v).turn = s.turn := rfl
@[simp] theorem State.setSp_script (s : State) (v : Word) : (s.setSp v).script = s.script := rfl
@[simp] theorem State.setSp_draws (s : State) (v : Word) : (s.setSp v).draws = s.draws := rfl

@[simp] theorem State.spend_cfg (s : State) : (s.spend).cfg = s.cfg := rfl
@[simp] theorem State.spend_gen (s : State) : (s.spend).gen = s.gen := rfl
@[simp] theorem State.spend_cs (s : State) : (s.spend).cs = s.cs := rfl
@[simp] theorem State.spend_ds (s : State) : (s.spend).ds = s.ds := rfl
@[simp] theorem State.spend_ss (s : State) : (s.spend).ss = s.ss := rfl
@[simp] theorem State.spend_es (s : State) : (s.spend).es = s.es := rfl
@[simp] theorem State.spend_ip (s : State) : (s.spend).ip = s.ip := rfl
@[simp] theorem State.spend_flags (s : State) : (s.spend).flags = s.flags := rfl
@[simp] theorem State.spend_queue (s : State) : (s.spend).queue = s.queue := rfl
@[simp] theorem State.spend_fetchOff (s : State) : (s.spend).fetchOff = s.fetchOff := rfl
@[simp] theorem State.spend_nmiPending (s : State) : (s.spend).nmiPending = s.nmiPending := rfl
@[simp] theorem State.spend_halted (s : State) : (s.spend).halted = s.halted := rfl
@[simp] theorem State.spend_waiting (s : State) : (s.spend).waiting = s.waiting := rfl
@[simp] theorem State.spend_busOwner (s : State) : (s.spend).busOwner = s.busOwner := rfl
@[simp] theorem State.spend_req0 (s : State) : (s.spend).req0 = s.req0 := rfl
@[simp] theorem State.spend_req1 (s : State) : (s.spend).req1 = s.req1 := rfl
@[simp] theorem State.spend_lockActive (s : State) : (s.spend).lockActive = s.lockActive := rfl
@[simp] theorem State.spend_intInhibit (s : State) : (s.spend).intInhibit = s.intInhibit := rfl
@[simp] theorem State.spend_mem (s : State) : (s.spend).mem = s.mem := rfl
@[simp] theorem State.spend_absent (s : State) : (s.spend).absent = s.absent := rfl
@[simp] theorem State.spend_history (s : State) : (s.spend).history = s.history := rfl
@[simp] theorem State.spend_qsHistory (s : State) : (s.spend).qsHistory = s.qsHistory := rfl
@[simp] theorem State.spend_grants (s : State) : (s.spend).grants = s.grants := rfl
@[simp] theorem State.spend_pins (s : State) : (s.spend).pins = s.pins := rfl
@[simp] theorem State.spend_opbuf (s : State) : (s.spend).opbuf = s.opbuf := rfl
@[simp] theorem State.spend_insnStart (s : State) : (s.spend).insnStart = s.insnStart := rfl
@[simp] theorem State.spend_boundary (s : State) : (s.spend).boundary = s.boundary := rfl
@[simp] theorem State.spend_busy (s : State) : (s.spend).busy = s.busy := rfl
@[simp] theorem State.spend_micro (s : State) : (s.spend).micro = s.micro := rfl
@[simp] theorem State.spend_latch (s : State) : (s.spend).latch = s.latch := rfl
@[simp] theorem State.spend_turn (s : State) : (s.spend).turn = { s.turn with cycles := s.turn.cycles.map fun k => k - 1 } := rfl
@[simp] theorem State.spend_script (s : State) : (s.spend).script = s.script := rfl
@[simp] theorem State.spend_draws (s : State) : (s.spend).draws = s.draws := rfl

@[simp] theorem State.logCycle_cfg (s : State) (c : Cycle) (d : Option Word) : (s.logCycle c d).cfg = s.cfg := rfl
@[simp] theorem State.logCycle_gen (s : State) (c : Cycle) (d : Option Word) : (s.logCycle c d).gen = s.gen := rfl
@[simp] theorem State.logCycle_cs (s : State) (c : Cycle) (d : Option Word) : (s.logCycle c d).cs = s.cs := rfl
@[simp] theorem State.logCycle_ds (s : State) (c : Cycle) (d : Option Word) : (s.logCycle c d).ds = s.ds := rfl
@[simp] theorem State.logCycle_ss (s : State) (c : Cycle) (d : Option Word) : (s.logCycle c d).ss = s.ss := rfl
@[simp] theorem State.logCycle_es (s : State) (c : Cycle) (d : Option Word) : (s.logCycle c d).es = s.es := rfl
@[simp] theorem State.logCycle_ip (s : State) (c : Cycle) (d : Option Word) : (s.logCycle c d).ip = s.ip := rfl
@[simp] theorem State.logCycle_flags (s : State) (c : Cycle) (d : Option Word) : (s.logCycle c d).flags = s.flags := rfl
@[simp] theorem State.logCycle_queue (s : State) (c : Cycle) (d : Option Word) : (s.logCycle c d).queue = s.queue := rfl
@[simp] theorem State.logCycle_fetchOff (s : State) (c : Cycle) (d : Option Word) : (s.logCycle c d).fetchOff = s.fetchOff := rfl
@[simp] theorem State.logCycle_nmiPending (s : State) (c : Cycle) (d : Option Word) : (s.logCycle c d).nmiPending = s.nmiPending := rfl
@[simp] theorem State.logCycle_halted (s : State) (c : Cycle) (d : Option Word) : (s.logCycle c d).halted = s.halted := rfl
@[simp] theorem State.logCycle_waiting (s : State) (c : Cycle) (d : Option Word) : (s.logCycle c d).waiting = s.waiting := rfl
@[simp] theorem State.logCycle_busOwner (s : State) (c : Cycle) (d : Option Word) : (s.logCycle c d).busOwner = s.busOwner := rfl
@[simp] theorem State.logCycle_req0 (s : State) (c : Cycle) (d : Option Word) : (s.logCycle c d).req0 = s.req0 := rfl
@[simp] theorem State.logCycle_req1 (s : State) (c : Cycle) (d : Option Word) : (s.logCycle c d).req1 = s.req1 := rfl
@[simp] theorem State.logCycle_lockActive (s : State) (c : Cycle) (d : Option Word) : (s.logCycle c d).lockActive = s.lockActive := rfl
@[simp] theorem State.logCycle_intInhibit (s : State) (c : Cycle) (d : Option Word) : (s.logCycle c d).intInhibit = s.intInhibit := rfl
@[simp] theorem State.logCycle_mem (s : State) (c : Cycle) (d : Option Word) : (s.logCycle c d).mem = s.mem := rfl
@[simp] theorem State.logCycle_absent (s : State) (c : Cycle) (d : Option Word) : (s.logCycle c d).absent = s.absent := rfl
@[simp] theorem State.logCycle_qsHistory (s : State) (c : Cycle) (d : Option Word) : (s.logCycle c d).qsHistory = s.qsHistory := rfl
@[simp] theorem State.logCycle_grants (s : State) (c : Cycle) (d : Option Word) : (s.logCycle c d).grants = s.grants := rfl
@[simp] theorem State.logCycle_pins (s : State) (c : Cycle) (d : Option Word) : (s.logCycle c d).pins = s.pins := rfl
@[simp] theorem State.logCycle_opbuf (s : State) (c : Cycle) (d : Option Word) : (s.logCycle c d).opbuf = s.opbuf := rfl
@[simp] theorem State.logCycle_insnStart (s : State) (c : Cycle) (d : Option Word) : (s.logCycle c d).insnStart = s.insnStart := rfl
@[simp] theorem State.logCycle_boundary (s : State) (c : Cycle) (d : Option Word) : (s.logCycle c d).boundary = s.boundary := rfl
@[simp] theorem State.logCycle_busy (s : State) (c : Cycle) (d : Option Word) : (s.logCycle c d).busy = s.busy := rfl
@[simp] theorem State.logCycle_micro (s : State) (c : Cycle) (d : Option Word) : (s.logCycle c d).micro = s.micro := rfl
@[simp] theorem State.logCycle_latch (s : State) (c : Cycle) (d : Option Word) : (s.logCycle c d).latch = s.latch := rfl
@[simp] theorem State.logCycle_turn (s : State) (c : Cycle) (d : Option Word) : (s.logCycle c d).turn = s.turn := rfl
@[simp] theorem State.logCycle_script (s : State) (c : Cycle) (d : Option Word) : (s.logCycle c d).script = s.script := rfl
@[simp] theorem State.logCycle_draws (s : State) (c : Cycle) (d : Option Word) : (s.logCycle c d).draws = s.draws + drawsPerCycle := rfl

@[simp] theorem State.endInstr_cfg (s : State) (b : Bool) : (s.endInstr b).cfg = s.cfg := rfl
@[simp] theorem State.endInstr_gen (s : State) (b : Bool) : (s.endInstr b).gen = s.gen := rfl
@[simp] theorem State.endInstr_cs (s : State) (b : Bool) : (s.endInstr b).cs = s.cs := rfl
@[simp] theorem State.endInstr_ds (s : State) (b : Bool) : (s.endInstr b).ds = s.ds := rfl
@[simp] theorem State.endInstr_ss (s : State) (b : Bool) : (s.endInstr b).ss = s.ss := rfl
@[simp] theorem State.endInstr_es (s : State) (b : Bool) : (s.endInstr b).es = s.es := rfl
@[simp] theorem State.endInstr_ip (s : State) (b : Bool) : (s.endInstr b).ip = s.ip := rfl
@[simp] theorem State.endInstr_flags (s : State) (b : Bool) : (s.endInstr b).flags = s.flags := rfl
@[simp] theorem State.endInstr_queue (s : State) (b : Bool) : (s.endInstr b).queue = s.queue := rfl
@[simp] theorem State.endInstr_fetchOff (s : State) (b : Bool) : (s.endInstr b).fetchOff = s.fetchOff := rfl
@[simp] theorem State.endInstr_nmiPending (s : State) (b : Bool) : (s.endInstr b).nmiPending = s.nmiPending := rfl
@[simp] theorem State.endInstr_halted (s : State) (b : Bool) : (s.endInstr b).halted = s.halted := rfl
@[simp] theorem State.endInstr_waiting (s : State) (b : Bool) : (s.endInstr b).waiting = s.waiting := rfl
@[simp] theorem State.endInstr_busOwner (s : State) (b : Bool) : (s.endInstr b).busOwner = s.busOwner := rfl
@[simp] theorem State.endInstr_req0 (s : State) (b : Bool) : (s.endInstr b).req0 = s.req0 := rfl
@[simp] theorem State.endInstr_req1 (s : State) (b : Bool) : (s.endInstr b).req1 = s.req1 := rfl
@[simp] theorem State.endInstr_lockActive (s : State) (b : Bool) : (s.endInstr b).lockActive = false := rfl
@[simp] theorem State.endInstr_intInhibit (s : State) (b : Bool) : (s.endInstr b).intInhibit = false := rfl
@[simp] theorem State.endInstr_mem (s : State) (b : Bool) : (s.endInstr b).mem = s.mem := rfl
@[simp] theorem State.endInstr_absent (s : State) (b : Bool) : (s.endInstr b).absent = s.absent := rfl
@[simp] theorem State.endInstr_history (s : State) (b : Bool) : (s.endInstr b).history = s.history := rfl
@[simp] theorem State.endInstr_qsHistory (s : State) (b : Bool) : (s.endInstr b).qsHistory = s.qsHistory := rfl
@[simp] theorem State.endInstr_grants (s : State) (b : Bool) : (s.endInstr b).grants = s.grants := rfl
@[simp] theorem State.endInstr_pins (s : State) (b : Bool) : (s.endInstr b).pins = s.pins := rfl
@[simp] theorem State.endInstr_opbuf (s : State) (b : Bool) : (s.endInstr b).opbuf = s.opbuf := rfl
@[simp] theorem State.endInstr_insnStart (s : State) (b : Bool) : (s.endInstr b).insnStart = s.insnStart := rfl
@[simp] theorem State.endInstr_boundary (s : State) (b : Bool) : (s.endInstr b).boundary = some b := rfl
@[simp] theorem State.endInstr_busy (s : State) (b : Bool) : (s.endInstr b).busy = s.busy := rfl
@[simp] theorem State.endInstr_micro (s : State) (b : Bool) : (s.endInstr b).micro = s.micro := rfl
@[simp] theorem State.endInstr_latch (s : State) (b : Bool) : (s.endInstr b).latch = s.latch := rfl
@[simp] theorem State.endInstr_turn (s : State) (b : Bool) : (s.endInstr b).turn = s.turn := rfl
@[simp] theorem State.endInstr_script (s : State) (b : Bool) : (s.endInstr b).script = s.script := rfl
@[simp] theorem State.endInstr_draws (s : State) (b : Bool) : (s.endInstr b).draws = s.draws := rfl

@[simp] theorem State.endEntry_cfg (s : State) : (s.endEntry).cfg = s.cfg := rfl
@[simp] theorem State.endEntry_gen (s : State) : (s.endEntry).gen = s.gen := rfl
@[simp] theorem State.endEntry_cs (s : State) : (s.endEntry).cs = s.cs := rfl
@[simp] theorem State.endEntry_ds (s : State) : (s.endEntry).ds = s.ds := rfl
@[simp] theorem State.endEntry_ss (s : State) : (s.endEntry).ss = s.ss := rfl
@[simp] theorem State.endEntry_es (s : State) : (s.endEntry).es = s.es := rfl
@[simp] theorem State.endEntry_ip (s : State) : (s.endEntry).ip = s.ip := rfl
@[simp] theorem State.endEntry_flags (s : State) : (s.endEntry).flags = s.flags := rfl
@[simp] theorem State.endEntry_queue (s : State) : (s.endEntry).queue = s.queue := rfl
@[simp] theorem State.endEntry_fetchOff (s : State) : (s.endEntry).fetchOff = s.fetchOff := rfl
@[simp] theorem State.endEntry_nmiPending (s : State) : (s.endEntry).nmiPending = s.nmiPending := rfl
@[simp] theorem State.endEntry_halted (s : State) : (s.endEntry).halted = s.halted := rfl
@[simp] theorem State.endEntry_waiting (s : State) : (s.endEntry).waiting = s.waiting := rfl
@[simp] theorem State.endEntry_busOwner (s : State) : (s.endEntry).busOwner = s.busOwner := rfl
@[simp] theorem State.endEntry_req0 (s : State) : (s.endEntry).req0 = s.req0 := rfl
@[simp] theorem State.endEntry_req1 (s : State) : (s.endEntry).req1 = s.req1 := rfl
@[simp] theorem State.endEntry_lockActive (s : State) : (s.endEntry).lockActive = s.lockActive := rfl
@[simp] theorem State.endEntry_intInhibit (s : State) : (s.endEntry).intInhibit = false := rfl
@[simp] theorem State.endEntry_mem (s : State) : (s.endEntry).mem = s.mem := rfl
@[simp] theorem State.endEntry_absent (s : State) : (s.endEntry).absent = s.absent := rfl
@[simp] theorem State.endEntry_history (s : State) : (s.endEntry).history = s.history := rfl
@[simp] theorem State.endEntry_qsHistory (s : State) : (s.endEntry).qsHistory = s.qsHistory := rfl
@[simp] theorem State.endEntry_grants (s : State) : (s.endEntry).grants = s.grants := rfl
@[simp] theorem State.endEntry_pins (s : State) : (s.endEntry).pins = s.pins := rfl
@[simp] theorem State.endEntry_opbuf (s : State) : (s.endEntry).opbuf = s.opbuf := rfl
@[simp] theorem State.endEntry_insnStart (s : State) : (s.endEntry).insnStart = s.insnStart := rfl
@[simp] theorem State.endEntry_boundary (s : State) : (s.endEntry).boundary = some false := rfl
@[simp] theorem State.endEntry_busy (s : State) : (s.endEntry).busy = s.busy := rfl
@[simp] theorem State.endEntry_micro (s : State) : (s.endEntry).micro = s.micro := rfl
@[simp] theorem State.endEntry_latch (s : State) : (s.endEntry).latch = s.latch := rfl
@[simp] theorem State.endEntry_turn (s : State) : (s.endEntry).turn = s.turn := rfl
@[simp] theorem State.endEntry_script (s : State) : (s.endEntry).script = s.script := rfl
@[simp] theorem State.endEntry_draws (s : State) : (s.endEntry).draws = s.draws := rfl

@[simp] theorem State.enterHalt_cfg (s : State) : (s.enterHalt).cfg = s.cfg := rfl
@[simp] theorem State.enterHalt_gen (s : State) : (s.enterHalt).gen = s.gen := rfl
@[simp] theorem State.enterHalt_cs (s : State) : (s.enterHalt).cs = s.cs := rfl
@[simp] theorem State.enterHalt_ds (s : State) : (s.enterHalt).ds = s.ds := rfl
@[simp] theorem State.enterHalt_ss (s : State) : (s.enterHalt).ss = s.ss := rfl
@[simp] theorem State.enterHalt_es (s : State) : (s.enterHalt).es = s.es := rfl
@[simp] theorem State.enterHalt_ip (s : State) : (s.enterHalt).ip = s.ip := rfl
@[simp] theorem State.enterHalt_flags (s : State) : (s.enterHalt).flags = s.flags := rfl
@[simp] theorem State.enterHalt_queue (s : State) : (s.enterHalt).queue = s.queue := rfl
@[simp] theorem State.enterHalt_fetchOff (s : State) : (s.enterHalt).fetchOff = s.fetchOff := rfl
@[simp] theorem State.enterHalt_nmiPending (s : State) : (s.enterHalt).nmiPending = s.nmiPending := rfl
@[simp] theorem State.enterHalt_halted (s : State) : (s.enterHalt).halted = true := rfl
@[simp] theorem State.enterHalt_waiting (s : State) : (s.enterHalt).waiting = s.waiting := rfl
@[simp] theorem State.enterHalt_busOwner (s : State) : (s.enterHalt).busOwner = s.busOwner := rfl
@[simp] theorem State.enterHalt_req0 (s : State) : (s.enterHalt).req0 = s.req0 := rfl
@[simp] theorem State.enterHalt_req1 (s : State) : (s.enterHalt).req1 = s.req1 := rfl
@[simp] theorem State.enterHalt_lockActive (s : State) : (s.enterHalt).lockActive = false := rfl
@[simp] theorem State.enterHalt_intInhibit (s : State) : (s.enterHalt).intInhibit = false := rfl
@[simp] theorem State.enterHalt_mem (s : State) : (s.enterHalt).mem = s.mem := rfl
@[simp] theorem State.enterHalt_absent (s : State) : (s.enterHalt).absent = s.absent := rfl
@[simp] theorem State.enterHalt_history (s : State) : (s.enterHalt).history = s.history := rfl
@[simp] theorem State.enterHalt_qsHistory (s : State) : (s.enterHalt).qsHistory = s.qsHistory := rfl
@[simp] theorem State.enterHalt_grants (s : State) : (s.enterHalt).grants = s.grants := rfl
@[simp] theorem State.enterHalt_pins (s : State) : (s.enterHalt).pins = s.pins := rfl
@[simp] theorem State.enterHalt_opbuf (s : State) : (s.enterHalt).opbuf = s.opbuf := rfl
@[simp] theorem State.enterHalt_insnStart (s : State) : (s.enterHalt).insnStart = s.insnStart := rfl
@[simp] theorem State.enterHalt_boundary (s : State) : (s.enterHalt).boundary = none := rfl
@[simp] theorem State.enterHalt_busy (s : State) : (s.enterHalt).busy = s.busy := rfl
@[simp] theorem State.enterHalt_micro (s : State) : (s.enterHalt).micro = s.micro := rfl
@[simp] theorem State.enterHalt_latch (s : State) : (s.enterHalt).latch = s.latch := rfl
@[simp] theorem State.enterHalt_turn (s : State) : (s.enterHalt).turn = s.turn := rfl
@[simp] theorem State.enterHalt_script (s : State) : (s.enterHalt).script = s.script := rfl
@[simp] theorem State.enterHalt_draws (s : State) : (s.enterHalt).draws = s.draws := rfl

@[simp] theorem State.enterType_cfg (s : State) (ip : Word) : (s.enterType ip).cfg = s.cfg := rfl
@[simp] theorem State.enterType_gen (s : State) (ip : Word) : (s.enterType ip).gen = s.gen := rfl
@[simp] theorem State.enterType_cs (s : State) (ip : Word) : (s.enterType ip).cs = s.cs := rfl
@[simp] theorem State.enterType_ds (s : State) (ip : Word) : (s.enterType ip).ds = s.ds := rfl
@[simp] theorem State.enterType_ss (s : State) (ip : Word) : (s.enterType ip).ss = s.ss := rfl
@[simp] theorem State.enterType_es (s : State) (ip : Word) : (s.enterType ip).es = s.es := rfl
@[simp] theorem State.enterType_ip (s : State) (ip : Word) : (s.enterType ip).ip = s.ip := rfl
@[simp] theorem State.enterType_flags (s : State) (ip : Word) : (s.enterType ip).flags = s.flags := rfl
@[simp] theorem State.enterType_queue (s : State) (ip : Word) : (s.enterType ip).queue = s.queue := rfl
@[simp] theorem State.enterType_fetchOff (s : State) (ip : Word) : (s.enterType ip).fetchOff = s.fetchOff := rfl
@[simp] theorem State.enterType_nmiPending (s : State) (ip : Word) : (s.enterType ip).nmiPending = s.nmiPending := rfl
@[simp] theorem State.enterType_halted (s : State) (ip : Word) : (s.enterType ip).halted = s.halted := rfl
@[simp] theorem State.enterType_waiting (s : State) (ip : Word) : (s.enterType ip).waiting = s.waiting := rfl
@[simp] theorem State.enterType_busOwner (s : State) (ip : Word) : (s.enterType ip).busOwner = s.busOwner := rfl
@[simp] theorem State.enterType_req0 (s : State) (ip : Word) : (s.enterType ip).req0 = s.req0 := rfl
@[simp] theorem State.enterType_req1 (s : State) (ip : Word) : (s.enterType ip).req1 = s.req1 := rfl
@[simp] theorem State.enterType_lockActive (s : State) (ip : Word) : (s.enterType ip).lockActive = s.lockActive := rfl
@[simp] theorem State.enterType_intInhibit (s : State) (ip : Word) : (s.enterType ip).intInhibit = s.intInhibit := rfl
@[simp] theorem State.enterType_mem (s : State) (ip : Word) : (s.enterType ip).mem = s.mem := rfl
@[simp] theorem State.enterType_absent (s : State) (ip : Word) : (s.enterType ip).absent = s.absent := rfl
@[simp] theorem State.enterType_history (s : State) (ip : Word) : (s.enterType ip).history = s.history := rfl
@[simp] theorem State.enterType_qsHistory (s : State) (ip : Word) : (s.enterType ip).qsHistory = s.qsHistory := rfl
@[simp] theorem State.enterType_grants (s : State) (ip : Word) : (s.enterType ip).grants = s.grants := rfl
@[simp] theorem State.enterType_pins (s : State) (ip : Word) : (s.enterType ip).pins = s.pins := rfl
@[simp] theorem State.enterType_opbuf (s : State) (ip : Word) : (s.enterType ip).opbuf = s.opbuf := rfl
@[simp] theorem State.enterType_insnStart (s : State) (ip : Word) : (s.enterType ip).insnStart = s.insnStart := rfl
@[simp] theorem State.enterType_boundary (s : State) (ip : Word) : (s.enterType ip).boundary = s.boundary := rfl
@[simp] theorem State.enterType_busy (s : State) (ip : Word) : (s.enterType ip).busy = s.busy := rfl
@[simp] theorem State.enterType_latch (s : State) (ip : Word) : (s.enterType ip).latch = [] := rfl
@[simp] theorem State.enterType_turn (s : State) (ip : Word) : (s.enterType ip).turn = s.turn := rfl
@[simp] theorem State.enterType_script (s : State) (ip : Word) : (s.enterType ip).script = s.script := rfl
@[simp] theorem State.enterType_draws (s : State) (ip : Word) : (s.enterType ip).draws = s.draws := rfl

@[simp] theorem State.logMaster_cfg (s : State) (k : CycleKind) (pa : Addr) (w : Nat) (d : Word) : (s.logMaster k pa w d).cfg = s.cfg := rfl
@[simp] theorem State.logMaster_gen (s : State) (k : CycleKind) (pa : Addr) (w : Nat) (d : Word) : (s.logMaster k pa w d).gen = s.gen := rfl
@[simp] theorem State.logMaster_cs (s : State) (k : CycleKind) (pa : Addr) (w : Nat) (d : Word) : (s.logMaster k pa w d).cs = s.cs := rfl
@[simp] theorem State.logMaster_ds (s : State) (k : CycleKind) (pa : Addr) (w : Nat) (d : Word) : (s.logMaster k pa w d).ds = s.ds := rfl
@[simp] theorem State.logMaster_ss (s : State) (k : CycleKind) (pa : Addr) (w : Nat) (d : Word) : (s.logMaster k pa w d).ss = s.ss := rfl
@[simp] theorem State.logMaster_es (s : State) (k : CycleKind) (pa : Addr) (w : Nat) (d : Word) : (s.logMaster k pa w d).es = s.es := rfl
@[simp] theorem State.logMaster_ip (s : State) (k : CycleKind) (pa : Addr) (w : Nat) (d : Word) : (s.logMaster k pa w d).ip = s.ip := rfl
@[simp] theorem State.logMaster_flags (s : State) (k : CycleKind) (pa : Addr) (w : Nat) (d : Word) : (s.logMaster k pa w d).flags = s.flags := rfl
@[simp] theorem State.logMaster_queue (s : State) (k : CycleKind) (pa : Addr) (w : Nat) (d : Word) : (s.logMaster k pa w d).queue = s.queue := rfl
@[simp] theorem State.logMaster_fetchOff (s : State) (k : CycleKind) (pa : Addr) (w : Nat) (d : Word) : (s.logMaster k pa w d).fetchOff = s.fetchOff := rfl
@[simp] theorem State.logMaster_nmiPending (s : State) (k : CycleKind) (pa : Addr) (w : Nat) (d : Word) : (s.logMaster k pa w d).nmiPending = s.nmiPending := rfl
@[simp] theorem State.logMaster_halted (s : State) (k : CycleKind) (pa : Addr) (w : Nat) (d : Word) : (s.logMaster k pa w d).halted = s.halted := rfl
@[simp] theorem State.logMaster_waiting (s : State) (k : CycleKind) (pa : Addr) (w : Nat) (d : Word) : (s.logMaster k pa w d).waiting = s.waiting := rfl
@[simp] theorem State.logMaster_busOwner (s : State) (k : CycleKind) (pa : Addr) (w : Nat) (d : Word) : (s.logMaster k pa w d).busOwner = s.busOwner := rfl
@[simp] theorem State.logMaster_req0 (s : State) (k : CycleKind) (pa : Addr) (w : Nat) (d : Word) : (s.logMaster k pa w d).req0 = s.req0 := rfl
@[simp] theorem State.logMaster_req1 (s : State) (k : CycleKind) (pa : Addr) (w : Nat) (d : Word) : (s.logMaster k pa w d).req1 = s.req1 := rfl
@[simp] theorem State.logMaster_lockActive (s : State) (k : CycleKind) (pa : Addr) (w : Nat) (d : Word) : (s.logMaster k pa w d).lockActive = s.lockActive := rfl
@[simp] theorem State.logMaster_intInhibit (s : State) (k : CycleKind) (pa : Addr) (w : Nat) (d : Word) : (s.logMaster k pa w d).intInhibit = s.intInhibit := rfl
@[simp] theorem State.logMaster_mem (s : State) (k : CycleKind) (pa : Addr) (w : Nat) (d : Word) : (s.logMaster k pa w d).mem = s.mem := rfl
@[simp] theorem State.logMaster_absent (s : State) (k : CycleKind) (pa : Addr) (w : Nat) (d : Word) : (s.logMaster k pa w d).absent = s.absent := rfl
@[simp] theorem State.logMaster_qsHistory (s : State) (k : CycleKind) (pa : Addr) (w : Nat) (d : Word) : (s.logMaster k pa w d).qsHistory = s.qsHistory := rfl
@[simp] theorem State.logMaster_grants (s : State) (k : CycleKind) (pa : Addr) (w : Nat) (d : Word) : (s.logMaster k pa w d).grants = s.grants := rfl
@[simp] theorem State.logMaster_pins (s : State) (k : CycleKind) (pa : Addr) (w : Nat) (d : Word) : (s.logMaster k pa w d).pins = s.pins := rfl
@[simp] theorem State.logMaster_opbuf (s : State) (k : CycleKind) (pa : Addr) (w : Nat) (d : Word) : (s.logMaster k pa w d).opbuf = s.opbuf := rfl
@[simp] theorem State.logMaster_insnStart (s : State) (k : CycleKind) (pa : Addr) (w : Nat) (d : Word) : (s.logMaster k pa w d).insnStart = s.insnStart := rfl
@[simp] theorem State.logMaster_boundary (s : State) (k : CycleKind) (pa : Addr) (w : Nat) (d : Word) : (s.logMaster k pa w d).boundary = s.boundary := rfl
@[simp] theorem State.logMaster_busy (s : State) (k : CycleKind) (pa : Addr) (w : Nat) (d : Word) : (s.logMaster k pa w d).busy = s.busy := rfl
@[simp] theorem State.logMaster_micro (s : State) (k : CycleKind) (pa : Addr) (w : Nat) (d : Word) : (s.logMaster k pa w d).micro = s.micro := rfl
@[simp] theorem State.logMaster_latch (s : State) (k : CycleKind) (pa : Addr) (w : Nat) (d : Word) : (s.logMaster k pa w d).latch = s.latch := rfl
@[simp] theorem State.logMaster_turn (s : State) (k : CycleKind) (pa : Addr) (w : Nat) (d : Word) : (s.logMaster k pa w d).turn = s.turn := rfl
@[simp] theorem State.logMaster_script (s : State) (k : CycleKind) (pa : Addr) (w : Nat) (d : Word) : (s.logMaster k pa w d).script = s.script := rfl
@[simp] theorem State.logMaster_draws (s : State) (k : CycleKind) (pa : Addr) (w : Nat) (d : Word) : (s.logMaster k pa w d).draws = s.draws + drawsPerCycle := rfl

@[simp] theorem State.storeByte_cfg (s : State) (a : Addr) (v : Byte) : (s.storeByte a v).cfg = s.cfg := by
  unfold State.storeByte; split <;> rfl
@[simp] theorem State.storeByte_gen (s : State) (a : Addr) (v : Byte) : (s.storeByte a v).gen = s.gen := by
  unfold State.storeByte; split <;> rfl
@[simp] theorem State.storeByte_cs (s : State) (a : Addr) (v : Byte) : (s.storeByte a v).cs = s.cs := by
  unfold State.storeByte; split <;> rfl
@[simp] theorem State.storeByte_ds (s : State) (a : Addr) (v : Byte) : (s.storeByte a v).ds = s.ds := by
  unfold State.storeByte; split <;> rfl
@[simp] theorem State.storeByte_ss (s : State) (a : Addr) (v : Byte) : (s.storeByte a v).ss = s.ss := by
  unfold State.storeByte; split <;> rfl
@[simp] theorem State.storeByte_es (s : State) (a : Addr) (v : Byte) : (s.storeByte a v).es = s.es := by
  unfold State.storeByte; split <;> rfl
@[simp] theorem State.storeByte_ip (s : State) (a : Addr) (v : Byte) : (s.storeByte a v).ip = s.ip := by
  unfold State.storeByte; split <;> rfl
@[simp] theorem State.storeByte_flags (s : State) (a : Addr) (v : Byte) : (s.storeByte a v).flags = s.flags := by
  unfold State.storeByte; split <;> rfl
@[simp] theorem State.storeByte_queue (s : State) (a : Addr) (v : Byte) : (s.storeByte a v).queue = s.queue := by
  unfold State.storeByte; split <;> rfl
@[simp] theorem State.storeByte_fetchOff (s : State) (a : Addr) (v : Byte) : (s.storeByte a v).fetchOff = s.fetchOff := by
  unfold State.storeByte; split <;> rfl
@[simp] theorem State.storeByte_nmiPending (s : State) (a : Addr) (v : Byte) : (s.storeByte a v).nmiPending = s.nmiPending := by
  unfold State.storeByte; split <;> rfl
@[simp] theorem State.storeByte_halted (s : State) (a : Addr) (v : Byte) : (s.storeByte a v).halted = s.halted := by
  unfold State.storeByte; split <;> rfl
@[simp] theorem State.storeByte_waiting (s : State) (a : Addr) (v : Byte) : (s.storeByte a v).waiting = s.waiting := by
  unfold State.storeByte; split <;> rfl
@[simp] theorem State.storeByte_busOwner (s : State) (a : Addr) (v : Byte) : (s.storeByte a v).busOwner = s.busOwner := by
  unfold State.storeByte; split <;> rfl
@[simp] theorem State.storeByte_req0 (s : State) (a : Addr) (v : Byte) : (s.storeByte a v).req0 = s.req0 := by
  unfold State.storeByte; split <;> rfl
@[simp] theorem State.storeByte_req1 (s : State) (a : Addr) (v : Byte) : (s.storeByte a v).req1 = s.req1 := by
  unfold State.storeByte; split <;> rfl
@[simp] theorem State.storeByte_lockActive (s : State) (a : Addr) (v : Byte) : (s.storeByte a v).lockActive = s.lockActive := by
  unfold State.storeByte; split <;> rfl
@[simp] theorem State.storeByte_intInhibit (s : State) (a : Addr) (v : Byte) : (s.storeByte a v).intInhibit = s.intInhibit := by
  unfold State.storeByte; split <;> rfl
@[simp] theorem State.storeByte_absent (s : State) (a : Addr) (v : Byte) : (s.storeByte a v).absent = s.absent := by
  unfold State.storeByte; split <;> rfl
@[simp] theorem State.storeByte_history (s : State) (a : Addr) (v : Byte) : (s.storeByte a v).history = s.history := by
  unfold State.storeByte; split <;> rfl
@[simp] theorem State.storeByte_qsHistory (s : State) (a : Addr) (v : Byte) : (s.storeByte a v).qsHistory = s.qsHistory := by
  unfold State.storeByte; split <;> rfl
@[simp] theorem State.storeByte_grants (s : State) (a : Addr) (v : Byte) : (s.storeByte a v).grants = s.grants := by
  unfold State.storeByte; split <;> rfl
@[simp] theorem State.storeByte_pins (s : State) (a : Addr) (v : Byte) : (s.storeByte a v).pins = s.pins := by
  unfold State.storeByte; split <;> rfl
@[simp] theorem State.storeByte_opbuf (s : State) (a : Addr) (v : Byte) : (s.storeByte a v).opbuf = s.opbuf := by
  unfold State.storeByte; split <;> rfl
@[simp] theorem State.storeByte_insnStart (s : State) (a : Addr) (v : Byte) : (s.storeByte a v).insnStart = s.insnStart := by
  unfold State.storeByte; split <;> rfl
@[simp] theorem State.storeByte_boundary (s : State) (a : Addr) (v : Byte) : (s.storeByte a v).boundary = s.boundary := by
  unfold State.storeByte; split <;> rfl
@[simp] theorem State.storeByte_busy (s : State) (a : Addr) (v : Byte) : (s.storeByte a v).busy = s.busy := by
  unfold State.storeByte; split <;> rfl
@[simp] theorem State.storeByte_micro (s : State) (a : Addr) (v : Byte) : (s.storeByte a v).micro = s.micro := by
  unfold State.storeByte; split <;> rfl
@[simp] theorem State.storeByte_latch (s : State) (a : Addr) (v : Byte) : (s.storeByte a v).latch = s.latch := by
  unfold State.storeByte; split <;> rfl
@[simp] theorem State.storeByte_turn (s : State) (a : Addr) (v : Byte) : (s.storeByte a v).turn = s.turn := by
  unfold State.storeByte; split <;> rfl
@[simp] theorem State.storeByte_script (s : State) (a : Addr) (v : Byte) : (s.storeByte a v).script = s.script := by
  unfold State.storeByte; split <;> rfl
@[simp] theorem State.storeByte_draws (s : State) (a : Addr) (v : Byte) : (s.storeByte a v).draws = s.draws := by
  unfold State.storeByte; split <;> rfl

@[simp] theorem State.storeBytes_cfg (s : State) (pa : Addr) (w : Nat) (d : Word) : (s.storeBytes pa w d).cfg = s.cfg := by
  unfold State.storeBytes; split <;> (try split) <;> simp
@[simp] theorem State.storeBytes_gen (s : State) (pa : Addr) (w : Nat) (d : Word) : (s.storeBytes pa w d).gen = s.gen := by
  unfold State.storeBytes; split <;> (try split) <;> simp
@[simp] theorem State.storeBytes_cs (s : State) (pa : Addr) (w : Nat) (d : Word) : (s.storeBytes pa w d).cs = s.cs := by
  unfold State.storeBytes; split <;> (try split) <;> simp
@[simp] theorem State.storeBytes_ds (s : State) (pa : Addr) (w : Nat) (d : Word) : (s.storeBytes pa w d).ds = s.ds := by
  unfold State.storeBytes; split <;> (try split) <;> simp
@[simp] theorem State.storeBytes_ss (s : State) (pa : Addr) (w : Nat) (d : Word) : (s.storeBytes pa w d).ss = s.ss := by
  unfold State.storeBytes; split <;> (try split) <;> simp
@[simp] theorem State.storeBytes_es (s : State) (pa : Addr) (w : Nat) (d : Word) : (s.storeBytes pa w d).es = s.es := by
  unfold State.storeBytes; split <;> (try split) <;> simp
@[simp] theorem State.storeBytes_ip (s : State) (pa : Addr) (w : Nat) (d : Word) : (s.storeBytes pa w d).ip = s.ip := by
  unfold State.storeBytes; split <;> (try split) <;> simp
@[simp] theorem State.storeBytes_flags (s : State) (pa : Addr) (w : Nat) (d : Word) : (s.storeBytes pa w d).flags = s.flags := by
  unfold State.storeBytes; split <;> (try split) <;> simp
@[simp] theorem State.storeBytes_queue (s : State) (pa : Addr) (w : Nat) (d : Word) : (s.storeBytes pa w d).queue = s.queue := by
  unfold State.storeBytes; split <;> (try split) <;> simp
@[simp] theorem State.storeBytes_fetchOff (s : State) (pa : Addr) (w : Nat) (d : Word) : (s.storeBytes pa w d).fetchOff = s.fetchOff := by
  unfold State.storeBytes; split <;> (try split) <;> simp
@[simp] theorem State.storeBytes_nmiPending (s : State) (pa : Addr) (w : Nat) (d : Word) : (s.storeBytes pa w d).nmiPending = s.nmiPending := by
  unfold State.storeBytes; split <;> (try split) <;> simp
@[simp] theorem State.storeBytes_halted (s : State) (pa : Addr) (w : Nat) (d : Word) : (s.storeBytes pa w d).halted = s.halted := by
  unfold State.storeBytes; split <;> (try split) <;> simp
@[simp] theorem State.storeBytes_waiting (s : State) (pa : Addr) (w : Nat) (d : Word) : (s.storeBytes pa w d).waiting = s.waiting := by
  unfold State.storeBytes; split <;> (try split) <;> simp
@[simp] theorem State.storeBytes_busOwner (s : State) (pa : Addr) (w : Nat) (d : Word) : (s.storeBytes pa w d).busOwner = s.busOwner := by
  unfold State.storeBytes; split <;> (try split) <;> simp
@[simp] theorem State.storeBytes_req0 (s : State) (pa : Addr) (w : Nat) (d : Word) : (s.storeBytes pa w d).req0 = s.req0 := by
  unfold State.storeBytes; split <;> (try split) <;> simp
@[simp] theorem State.storeBytes_req1 (s : State) (pa : Addr) (w : Nat) (d : Word) : (s.storeBytes pa w d).req1 = s.req1 := by
  unfold State.storeBytes; split <;> (try split) <;> simp
@[simp] theorem State.storeBytes_lockActive (s : State) (pa : Addr) (w : Nat) (d : Word) : (s.storeBytes pa w d).lockActive = s.lockActive := by
  unfold State.storeBytes; split <;> (try split) <;> simp
@[simp] theorem State.storeBytes_intInhibit (s : State) (pa : Addr) (w : Nat) (d : Word) : (s.storeBytes pa w d).intInhibit = s.intInhibit := by
  unfold State.storeBytes; split <;> (try split) <;> simp
@[simp] theorem State.storeBytes_absent (s : State) (pa : Addr) (w : Nat) (d : Word) : (s.storeBytes pa w d).absent = s.absent := by
  unfold State.storeBytes; split <;> (try split) <;> simp
@[simp] theorem State.storeBytes_history (s : State) (pa : Addr) (w : Nat) (d : Word) : (s.storeBytes pa w d).history = s.history := by
  unfold State.storeBytes; split <;> (try split) <;> simp
@[simp] theorem State.storeBytes_qsHistory (s : State) (pa : Addr) (w : Nat) (d : Word) : (s.storeBytes pa w d).qsHistory = s.qsHistory := by
  unfold State.storeBytes; split <;> (try split) <;> simp
@[simp] theorem State.storeBytes_grants (s : State) (pa : Addr) (w : Nat) (d : Word) : (s.storeBytes pa w d).grants = s.grants := by
  unfold State.storeBytes; split <;> (try split) <;> simp
@[simp] theorem State.storeBytes_pins (s : State) (pa : Addr) (w : Nat) (d : Word) : (s.storeBytes pa w d).pins = s.pins := by
  unfold State.storeBytes; split <;> (try split) <;> simp
@[simp] theorem State.storeBytes_opbuf (s : State) (pa : Addr) (w : Nat) (d : Word) : (s.storeBytes pa w d).opbuf = s.opbuf := by
  unfold State.storeBytes; split <;> (try split) <;> simp
@[simp] theorem State.storeBytes_insnStart (s : State) (pa : Addr) (w : Nat) (d : Word) : (s.storeBytes pa w d).insnStart = s.insnStart := by
  unfold State.storeBytes; split <;> (try split) <;> simp
@[simp] theorem State.storeBytes_boundary (s : State) (pa : Addr) (w : Nat) (d : Word) : (s.storeBytes pa w d).boundary = s.boundary := by
  unfold State.storeBytes; split <;> (try split) <;> simp
@[simp] theorem State.storeBytes_busy (s : State) (pa : Addr) (w : Nat) (d : Word) : (s.storeBytes pa w d).busy = s.busy := by
  unfold State.storeBytes; split <;> (try split) <;> simp
@[simp] theorem State.storeBytes_micro (s : State) (pa : Addr) (w : Nat) (d : Word) : (s.storeBytes pa w d).micro = s.micro := by
  unfold State.storeBytes; split <;> (try split) <;> simp
@[simp] theorem State.storeBytes_latch (s : State) (pa : Addr) (w : Nat) (d : Word) : (s.storeBytes pa w d).latch = s.latch := by
  unfold State.storeBytes; split <;> (try split) <;> simp
@[simp] theorem State.storeBytes_turn (s : State) (pa : Addr) (w : Nat) (d : Word) : (s.storeBytes pa w d).turn = s.turn := by
  unfold State.storeBytes; split <;> (try split) <;> simp
@[simp] theorem State.storeBytes_script (s : State) (pa : Addr) (w : Nat) (d : Word) : (s.storeBytes pa w d).script = s.script := by
  unfold State.storeBytes; split <;> (try split) <;> simp
@[simp] theorem State.storeBytes_draws (s : State) (pa : Addr) (w : Nat) (d : Word) : (s.storeBytes pa w d).draws = s.draws := by
  unfold State.storeBytes; split <;> (try split) <;> simp

@[simp] theorem State.reportQueue_cfg (s : State) (q : QueueOp) : (s.reportQueue q).cfg = s.cfg := by
  unfold State.reportQueue; split <;> rfl
@[simp] theorem State.reportQueue_gen (s : State) (q : QueueOp) : (s.reportQueue q).gen = s.gen := by
  unfold State.reportQueue; split <;> rfl
@[simp] theorem State.reportQueue_cs (s : State) (q : QueueOp) : (s.reportQueue q).cs = s.cs := by
  unfold State.reportQueue; split <;> rfl
@[simp] theorem State.reportQueue_ds (s : State) (q : QueueOp) : (s.reportQueue q).ds = s.ds := by
  unfold State.reportQueue; split <;> rfl
@[simp] theorem State.reportQueue_ss (s : State) (q : QueueOp) : (s.reportQueue q).ss = s.ss := by
  unfold State.reportQueue; split <;> rfl
@[simp] theorem State.reportQueue_es (s : State) (q : QueueOp) : (s.reportQueue q).es = s.es := by
  unfold State.reportQueue; split <;> rfl
@[simp] theorem State.reportQueue_ip (s : State) (q : QueueOp) : (s.reportQueue q).ip = s.ip := by
  unfold State.reportQueue; split <;> rfl
@[simp] theorem State.reportQueue_flags (s : State) (q : QueueOp) : (s.reportQueue q).flags = s.flags := by
  unfold State.reportQueue; split <;> rfl
@[simp] theorem State.reportQueue_queue (s : State) (q : QueueOp) : (s.reportQueue q).queue = s.queue := by
  unfold State.reportQueue; split <;> rfl
@[simp] theorem State.reportQueue_fetchOff (s : State) (q : QueueOp) : (s.reportQueue q).fetchOff = s.fetchOff := by
  unfold State.reportQueue; split <;> rfl
@[simp] theorem State.reportQueue_nmiPending (s : State) (q : QueueOp) : (s.reportQueue q).nmiPending = s.nmiPending := by
  unfold State.reportQueue; split <;> rfl
@[simp] theorem State.reportQueue_halted (s : State) (q : QueueOp) : (s.reportQueue q).halted = s.halted := by
  unfold State.reportQueue; split <;> rfl
@[simp] theorem State.reportQueue_waiting (s : State) (q : QueueOp) : (s.reportQueue q).waiting = s.waiting := by
  unfold State.reportQueue; split <;> rfl
@[simp] theorem State.reportQueue_busOwner (s : State) (q : QueueOp) : (s.reportQueue q).busOwner = s.busOwner := by
  unfold State.reportQueue; split <;> rfl
@[simp] theorem State.reportQueue_req0 (s : State) (q : QueueOp) : (s.reportQueue q).req0 = s.req0 := by
  unfold State.reportQueue; split <;> rfl
@[simp] theorem State.reportQueue_req1 (s : State) (q : QueueOp) : (s.reportQueue q).req1 = s.req1 := by
  unfold State.reportQueue; split <;> rfl
@[simp] theorem State.reportQueue_lockActive (s : State) (q : QueueOp) : (s.reportQueue q).lockActive = s.lockActive := by
  unfold State.reportQueue; split <;> rfl
@[simp] theorem State.reportQueue_intInhibit (s : State) (q : QueueOp) : (s.reportQueue q).intInhibit = s.intInhibit := by
  unfold State.reportQueue; split <;> rfl
@[simp] theorem State.reportQueue_mem (s : State) (q : QueueOp) : (s.reportQueue q).mem = s.mem := by
  unfold State.reportQueue; split <;> rfl
@[simp] theorem State.reportQueue_absent (s : State) (q : QueueOp) : (s.reportQueue q).absent = s.absent := by
  unfold State.reportQueue; split <;> rfl
@[simp] theorem State.reportQueue_history (s : State) (q : QueueOp) : (s.reportQueue q).history = s.history := by
  unfold State.reportQueue; split <;> rfl
@[simp] theorem State.reportQueue_grants (s : State) (q : QueueOp) : (s.reportQueue q).grants = s.grants := by
  unfold State.reportQueue; split <;> rfl
@[simp] theorem State.reportQueue_pins (s : State) (q : QueueOp) : (s.reportQueue q).pins = s.pins := by
  unfold State.reportQueue; split <;> rfl
@[simp] theorem State.reportQueue_opbuf (s : State) (q : QueueOp) : (s.reportQueue q).opbuf = s.opbuf := by
  unfold State.reportQueue; split <;> rfl
@[simp] theorem State.reportQueue_insnStart (s : State) (q : QueueOp) : (s.reportQueue q).insnStart = s.insnStart := by
  unfold State.reportQueue; split <;> rfl
@[simp] theorem State.reportQueue_boundary (s : State) (q : QueueOp) : (s.reportQueue q).boundary = s.boundary := by
  unfold State.reportQueue; split <;> rfl
@[simp] theorem State.reportQueue_busy (s : State) (q : QueueOp) : (s.reportQueue q).busy = s.busy := by
  unfold State.reportQueue; split <;> rfl
@[simp] theorem State.reportQueue_micro (s : State) (q : QueueOp) : (s.reportQueue q).micro = s.micro := by
  unfold State.reportQueue; split <;> rfl
@[simp] theorem State.reportQueue_latch (s : State) (q : QueueOp) : (s.reportQueue q).latch = s.latch := by
  unfold State.reportQueue; split <;> rfl
@[simp] theorem State.reportQueue_turn (s : State) (q : QueueOp) : (s.reportQueue q).turn = s.turn := by
  unfold State.reportQueue; split <;> rfl
@[simp] theorem State.reportQueue_script (s : State) (q : QueueOp) : (s.reportQueue q).script = s.script := by
  unfold State.reportQueue; split <;> rfl
@[simp] theorem State.reportQueue_draws (s : State) (q : QueueOp) : (s.reportQueue q).draws = s.draws := by
  unfold State.reportQueue; split <;> rfl

@[simp] theorem State.flushQueue_cfg (s : State) : (s.flushQueue).cfg = s.cfg := by
  simp [State.flushQueue]
@[simp] theorem State.flushQueue_gen (s : State) : (s.flushQueue).gen = s.gen := by
  simp [State.flushQueue]
@[simp] theorem State.flushQueue_cs (s : State) : (s.flushQueue).cs = s.cs := by
  simp [State.flushQueue]
@[simp] theorem State.flushQueue_ds (s : State) : (s.flushQueue).ds = s.ds := by
  simp [State.flushQueue]
@[simp] theorem State.flushQueue_ss (s : State) : (s.flushQueue).ss = s.ss := by
  simp [State.flushQueue]
@[simp] theorem State.flushQueue_es (s : State) : (s.flushQueue).es = s.es := by
  simp [State.flushQueue]
@[simp] theorem State.flushQueue_ip (s : State) : (s.flushQueue).ip = s.ip := by
  simp [State.flushQueue]
@[simp] theorem State.flushQueue_flags (s : State) : (s.flushQueue).flags = s.flags := by
  simp [State.flushQueue]
@[simp] theorem State.flushQueue_queue (s : State) : (s.flushQueue).queue = [] := by
  simp [State.flushQueue]
@[simp] theorem State.flushQueue_fetchOff (s : State) : (s.flushQueue).fetchOff = s.ip := by
  simp [State.flushQueue]
@[simp] theorem State.flushQueue_nmiPending (s : State) : (s.flushQueue).nmiPending = s.nmiPending := by
  simp [State.flushQueue]
@[simp] theorem State.flushQueue_halted (s : State) : (s.flushQueue).halted = s.halted := by
  simp [State.flushQueue]
@[simp] theorem State.flushQueue_waiting (s : State) : (s.flushQueue).waiting = s.waiting := by
  simp [State.flushQueue]
@[simp] theorem State.flushQueue_busOwner (s : State) : (s.flushQueue).busOwner = s.busOwner := by
  simp [State.flushQueue]
@[simp] theorem State.flushQueue_req0 (s : State) : (s.flushQueue).req0 = s.req0 := by
  simp [State.flushQueue]
@[simp] theorem State.flushQueue_req1 (s : State) : (s.flushQueue).req1 = s.req1 := by
  simp [State.flushQueue]
@[simp] theorem State.flushQueue_lockActive (s : State) : (s.flushQueue).lockActive = s.lockActive := by
  simp [State.flushQueue]
@[simp] theorem State.flushQueue_intInhibit (s : State) : (s.flushQueue).intInhibit = s.intInhibit := by
  simp [State.flushQueue]
@[simp] theorem State.flushQueue_mem (s : State) : (s.flushQueue).mem = s.mem := by
  simp [State.flushQueue]
@[simp] theorem State.flushQueue_absent (s : State) : (s.flushQueue).absent = s.absent := by
  simp [State.flushQueue]
@[simp] theorem State.flushQueue_history (s : State) : (s.flushQueue).history = s.history := by
  simp [State.flushQueue]
@[simp] theorem State.flushQueue_grants (s : State) : (s.flushQueue).grants = s.grants := by
  simp [State.flushQueue]
@[simp] theorem State.flushQueue_pins (s : State) : (s.flushQueue).pins = s.pins := by
  simp [State.flushQueue]
@[simp] theorem State.flushQueue_opbuf (s : State) : (s.flushQueue).opbuf = s.opbuf := by
  simp [State.flushQueue]
@[simp] theorem State.flushQueue_insnStart (s : State) : (s.flushQueue).insnStart = s.insnStart := by
  simp [State.flushQueue]
@[simp] theorem State.flushQueue_boundary (s : State) : (s.flushQueue).boundary = s.boundary := by
  simp [State.flushQueue]
@[simp] theorem State.flushQueue_busy (s : State) : (s.flushQueue).busy = none := by
  simp [State.flushQueue]
@[simp] theorem State.flushQueue_micro (s : State) : (s.flushQueue).micro = s.micro := by
  simp [State.flushQueue]
@[simp] theorem State.flushQueue_latch (s : State) : (s.flushQueue).latch = s.latch := by
  simp [State.flushQueue]
@[simp] theorem State.flushQueue_turn (s : State) : (s.flushQueue).turn = s.turn := by
  simp [State.flushQueue]
@[simp] theorem State.flushQueue_script (s : State) : (s.flushQueue).script = s.script := by
  simp [State.flushQueue]
@[simp] theorem State.flushQueue_draws (s : State) : (s.flushQueue).draws = s.draws := by
  simp [State.flushQueue]

@[simp] theorem State.enterHandler_cfg (s : State) : (s.enterHandler).cfg = s.cfg := by
  simp [State.enterHandler]
@[simp] theorem State.enterHandler_gen (s : State) : (s.enterHandler).gen = s.gen := by
  simp [State.enterHandler]
@[simp] theorem State.enterHandler_ds (s : State) : (s.enterHandler).ds = s.ds := by
  simp [State.enterHandler]
@[simp] theorem State.enterHandler_ss (s : State) : (s.enterHandler).ss = s.ss := by
  simp [State.enterHandler]
@[simp] theorem State.enterHandler_es (s : State) : (s.enterHandler).es = s.es := by
  simp [State.enterHandler]
@[simp] theorem State.enterHandler_flags (s : State) : (s.enterHandler).flags = s.flags := by
  simp [State.enterHandler]
@[simp] theorem State.enterHandler_queue (s : State) : (s.enterHandler).queue = [] := by
  simp [State.enterHandler]
@[simp] theorem State.enterHandler_nmiPending (s : State) : (s.enterHandler).nmiPending = s.nmiPending := by
  simp [State.enterHandler]
@[simp] theorem State.enterHandler_halted (s : State) : (s.enterHandler).halted = false := by
  simp [State.enterHandler]
@[simp] theorem State.enterHandler_waiting (s : State) : (s.enterHandler).waiting = false := by
  simp [State.enterHandler]
@[simp] theorem State.enterHandler_busOwner (s : State) : (s.enterHandler).busOwner = s.busOwner := by
  simp [State.enterHandler]
@[simp] theorem State.enterHandler_req0 (s : State) : (s.enterHandler).req0 = s.req0 := by
  simp [State.enterHandler]
@[simp] theorem State.enterHandler_req1 (s : State) : (s.enterHandler).req1 = s.req1 := by
  simp [State.enterHandler]
@[simp] theorem State.enterHandler_lockActive (s : State) : (s.enterHandler).lockActive = s.lockActive := by
  simp [State.enterHandler]
@[simp] theorem State.enterHandler_intInhibit (s : State) : (s.enterHandler).intInhibit = s.intInhibit := by
  simp [State.enterHandler]
@[simp] theorem State.enterHandler_mem (s : State) : (s.enterHandler).mem = s.mem := by
  simp [State.enterHandler]
@[simp] theorem State.enterHandler_absent (s : State) : (s.enterHandler).absent = s.absent := by
  simp [State.enterHandler]
@[simp] theorem State.enterHandler_history (s : State) : (s.enterHandler).history = s.history := by
  simp [State.enterHandler]
@[simp] theorem State.enterHandler_grants (s : State) : (s.enterHandler).grants = s.grants := by
  simp [State.enterHandler]
@[simp] theorem State.enterHandler_pins (s : State) : (s.enterHandler).pins = s.pins := by
  simp [State.enterHandler]
@[simp] theorem State.enterHandler_opbuf (s : State) : (s.enterHandler).opbuf = s.opbuf := by
  simp [State.enterHandler]
@[simp] theorem State.enterHandler_insnStart (s : State) : (s.enterHandler).insnStart = s.insnStart := by
  simp [State.enterHandler]
@[simp] theorem State.enterHandler_boundary (s : State) : (s.enterHandler).boundary = s.boundary := by
  simp [State.enterHandler]
@[simp] theorem State.enterHandler_busy (s : State) : (s.enterHandler).busy = none := by
  simp [State.enterHandler]
@[simp] theorem State.enterHandler_micro (s : State) : (s.enterHandler).micro = s.micro := by
  simp [State.enterHandler]
@[simp] theorem State.enterHandler_latch (s : State) : (s.enterHandler).latch = [] := by
  simp [State.enterHandler]
@[simp] theorem State.enterHandler_turn (s : State) : (s.enterHandler).turn = s.turn := by
  simp [State.enterHandler]
@[simp] theorem State.enterHandler_script (s : State) : (s.enterHandler).script = s.script := by
  simp [State.enterHandler]
@[simp] theorem State.enterHandler_draws (s : State) : (s.enterHandler).draws = s.draws := by
  simp [State.enterHandler]

@[simp] theorem State.leaveHandler_cfg (s : State) : (s.leaveHandler).cfg = s.cfg := by
  simp [State.leaveHandler]
@[simp] theorem State.leaveHandler_gen (s : State) : (s.leaveHandler).gen = s.gen := by
  simp [State.leaveHandler]
@[simp] theorem State.leaveHandler_ds (s : State) : (s.leaveHandler).ds = s.ds := by
  simp [State.leaveHandler]
@[simp] theorem State.leaveHandler_ss (s : State) : (s.leaveHandler).ss = s.ss := by
  simp [State.leaveHandler]
@[simp] theorem State.leaveHandler_es (s : State) : (s.leaveHandler).es = s.es := by
  simp [State.leaveHandler]
@[simp] theorem State.leaveHandler_queue (s : State) : (s.leaveHandler).queue = [] := by
  simp [State.leaveHandler]
@[simp] theorem State.leaveHandler_nmiPending (s : State) : (s.leaveHandler).nmiPending = s.nmiPending := by
  simp [State.leaveHandler]
@[simp] theorem State.leaveHandler_halted (s : State) : (s.leaveHandler).halted = s.halted := by
  simp [State.leaveHandler]
@[simp] theorem State.leaveHandler_waiting (s : State) : (s.leaveHandler).waiting = s.waiting := by
  simp [State.leaveHandler]
@[simp] theorem State.leaveHandler_busOwner (s : State) : (s.leaveHandler).busOwner = s.busOwner := by
  simp [State.leaveHandler]
@[simp] theorem State.leaveHandler_req0 (s : State) : (s.leaveHandler).req0 = s.req0 := by
  simp [State.leaveHandler]
@[simp] theorem State.leaveHandler_req1 (s : State) : (s.leaveHandler).req1 = s.req1 := by
  simp [State.leaveHandler]
@[simp] theorem State.leaveHandler_lockActive (s : State) : (s.leaveHandler).lockActive = s.lockActive := by
  simp [State.leaveHandler]
@[simp] theorem State.leaveHandler_intInhibit (s : State) : (s.leaveHandler).intInhibit = s.intInhibit := by
  simp [State.leaveHandler]
@[simp] theorem State.leaveHandler_mem (s : State) : (s.leaveHandler).mem = s.mem := by
  simp [State.leaveHandler]
@[simp] theorem State.leaveHandler_absent (s : State) : (s.leaveHandler).absent = s.absent := by
  simp [State.leaveHandler]
@[simp] theorem State.leaveHandler_history (s : State) : (s.leaveHandler).history = s.history := by
  simp [State.leaveHandler]
@[simp] theorem State.leaveHandler_grants (s : State) : (s.leaveHandler).grants = s.grants := by
  simp [State.leaveHandler]
@[simp] theorem State.leaveHandler_pins (s : State) : (s.leaveHandler).pins = s.pins := by
  simp [State.leaveHandler]
@[simp] theorem State.leaveHandler_opbuf (s : State) : (s.leaveHandler).opbuf = s.opbuf := by
  simp [State.leaveHandler]
@[simp] theorem State.leaveHandler_insnStart (s : State) : (s.leaveHandler).insnStart = s.insnStart := by
  simp [State.leaveHandler]
@[simp] theorem State.leaveHandler_boundary (s : State) : (s.leaveHandler).boundary = s.boundary := by
  simp [State.leaveHandler]
@[simp] theorem State.leaveHandler_busy (s : State) : (s.leaveHandler).busy = none := by
  simp [State.leaveHandler]
@[simp] theorem State.leaveHandler_micro (s : State) : (s.leaveHandler).micro = s.micro := by
  simp [State.leaveHandler]
@[simp] theorem State.leaveHandler_latch (s : State) : (s.leaveHandler).latch = [] := by
  simp [State.leaveHandler]
@[simp] theorem State.leaveHandler_turn (s : State) : (s.leaveHandler).turn = s.turn := by
  simp [State.leaveHandler]
@[simp] theorem State.leaveHandler_script (s : State) : (s.leaveHandler).script = s.script := by
  simp [State.leaveHandler]
@[simp] theorem State.leaveHandler_draws (s : State) : (s.leaveHandler).draws = s.draws := by
  simp [State.leaveHandler]

@[simp] theorem State.completeFetch_cfg (s : State) : (s.completeFetch).cfg = s.cfg := rfl
@[simp] theorem State.completeFetch_gen (s : State) : (s.completeFetch).gen = s.gen := rfl
@[simp] theorem State.completeFetch_cs (s : State) : (s.completeFetch).cs = s.cs := rfl
@[simp] theorem State.completeFetch_ds (s : State) : (s.completeFetch).ds = s.ds := rfl
@[simp] theorem State.completeFetch_ss (s : State) : (s.completeFetch).ss = s.ss := rfl
@[simp] theorem State.completeFetch_es (s : State) : (s.completeFetch).es = s.es := rfl
@[simp] theorem State.completeFetch_ip (s : State) : (s.completeFetch).ip = s.ip := rfl
@[simp] theorem State.completeFetch_flags (s : State) : (s.completeFetch).flags = s.flags := rfl
@[simp] theorem State.completeFetch_nmiPending (s : State) : (s.completeFetch).nmiPending = s.nmiPending := rfl
@[simp] theorem State.completeFetch_halted (s : State) : (s.completeFetch).halted = s.halted := rfl
@[simp] theorem State.completeFetch_waiting (s : State) : (s.completeFetch).waiting = s.waiting := rfl
@[simp] theorem State.completeFetch_busOwner (s : State) : (s.completeFetch).busOwner = s.busOwner := rfl
@[simp] theorem State.completeFetch_req0 (s : State) : (s.completeFetch).req0 = s.req0 := rfl
@[simp] theorem State.completeFetch_req1 (s : State) : (s.completeFetch).req1 = s.req1 := rfl
@[simp] theorem State.completeFetch_lockActive (s : State) : (s.completeFetch).lockActive = s.lockActive := rfl
@[simp] theorem State.completeFetch_intInhibit (s : State) : (s.completeFetch).intInhibit = s.intInhibit := rfl
@[simp] theorem State.completeFetch_mem (s : State) : (s.completeFetch).mem = s.mem := rfl
@[simp] theorem State.completeFetch_absent (s : State) : (s.completeFetch).absent = s.absent := rfl
@[simp] theorem State.completeFetch_qsHistory (s : State) : (s.completeFetch).qsHistory = s.qsHistory := rfl
@[simp] theorem State.completeFetch_grants (s : State) : (s.completeFetch).grants = s.grants := rfl
@[simp] theorem State.completeFetch_pins (s : State) : (s.completeFetch).pins = s.pins := rfl
@[simp] theorem State.completeFetch_opbuf (s : State) : (s.completeFetch).opbuf = s.opbuf := rfl
@[simp] theorem State.completeFetch_insnStart (s : State) : (s.completeFetch).insnStart = s.insnStart := rfl
@[simp] theorem State.completeFetch_boundary (s : State) : (s.completeFetch).boundary = s.boundary := rfl
@[simp] theorem State.completeFetch_busy (s : State) : (s.completeFetch).busy = none := rfl
@[simp] theorem State.completeFetch_micro (s : State) : (s.completeFetch).micro = s.micro := rfl
@[simp] theorem State.completeFetch_latch (s : State) : (s.completeFetch).latch = s.latch := rfl
@[simp] theorem State.completeFetch_turn (s : State) : (s.completeFetch).turn = s.turn := rfl
@[simp] theorem State.completeFetch_script (s : State) : (s.completeFetch).script = s.script := rfl
@[simp] theorem State.completeFetch_draws (s : State) : (s.completeFetch).draws = s.draws + drawsPerCycle := rfl

@[simp] theorem State.takeByte_cfg (s : State) (b : Byte) (r : List Host.Cell) : (s.takeByte b r).cfg = s.cfg := by
  simp [State.takeByte]
@[simp] theorem State.takeByte_gen (s : State) (b : Byte) (r : List Host.Cell) : (s.takeByte b r).gen = s.gen := by
  simp [State.takeByte]
@[simp] theorem State.takeByte_cs (s : State) (b : Byte) (r : List Host.Cell) : (s.takeByte b r).cs = s.cs := by
  simp [State.takeByte]
@[simp] theorem State.takeByte_ds (s : State) (b : Byte) (r : List Host.Cell) : (s.takeByte b r).ds = s.ds := by
  simp [State.takeByte]
@[simp] theorem State.takeByte_ss (s : State) (b : Byte) (r : List Host.Cell) : (s.takeByte b r).ss = s.ss := by
  simp [State.takeByte]
@[simp] theorem State.takeByte_es (s : State) (b : Byte) (r : List Host.Cell) : (s.takeByte b r).es = s.es := by
  simp [State.takeByte]
@[simp] theorem State.takeByte_ip (s : State) (b : Byte) (r : List Host.Cell) : (s.takeByte b r).ip = s.ip + 1#16 := by
  simp [State.takeByte]
@[simp] theorem State.takeByte_flags (s : State) (b : Byte) (r : List Host.Cell) : (s.takeByte b r).flags = s.flags := by
  simp [State.takeByte]
@[simp] theorem State.takeByte_queue (s : State) (b : Byte) (r : List Host.Cell) : (s.takeByte b r).queue = r := by
  simp [State.takeByte]
@[simp] theorem State.takeByte_fetchOff (s : State) (b : Byte) (r : List Host.Cell) : (s.takeByte b r).fetchOff = s.fetchOff := by
  simp [State.takeByte]
@[simp] theorem State.takeByte_nmiPending (s : State) (b : Byte) (r : List Host.Cell) : (s.takeByte b r).nmiPending = s.nmiPending := by
  simp [State.takeByte]
@[simp] theorem State.takeByte_halted (s : State) (b : Byte) (r : List Host.Cell) : (s.takeByte b r).halted = s.halted := by
  simp [State.takeByte]
@[simp] theorem State.takeByte_waiting (s : State) (b : Byte) (r : List Host.Cell) : (s.takeByte b r).waiting = s.waiting := by
  simp [State.takeByte]
@[simp] theorem State.takeByte_busOwner (s : State) (b : Byte) (r : List Host.Cell) : (s.takeByte b r).busOwner = s.busOwner := by
  simp [State.takeByte]
@[simp] theorem State.takeByte_req0 (s : State) (b : Byte) (r : List Host.Cell) : (s.takeByte b r).req0 = s.req0 := by
  simp [State.takeByte]
@[simp] theorem State.takeByte_req1 (s : State) (b : Byte) (r : List Host.Cell) : (s.takeByte b r).req1 = s.req1 := by
  simp [State.takeByte]
@[simp] theorem State.takeByte_lockActive (s : State) (b : Byte) (r : List Host.Cell) : (s.takeByte b r).lockActive = s.lockActive := by
  simp [State.takeByte]
@[simp] theorem State.takeByte_intInhibit (s : State) (b : Byte) (r : List Host.Cell) : (s.takeByte b r).intInhibit = s.intInhibit := by
  simp [State.takeByte]
@[simp] theorem State.takeByte_mem (s : State) (b : Byte) (r : List Host.Cell) : (s.takeByte b r).mem = s.mem := by
  simp [State.takeByte]
@[simp] theorem State.takeByte_absent (s : State) (b : Byte) (r : List Host.Cell) : (s.takeByte b r).absent = s.absent := by
  simp [State.takeByte]
@[simp] theorem State.takeByte_history (s : State) (b : Byte) (r : List Host.Cell) : (s.takeByte b r).history = s.history := by
  simp [State.takeByte]
@[simp] theorem State.takeByte_grants (s : State) (b : Byte) (r : List Host.Cell) : (s.takeByte b r).grants = s.grants := by
  simp [State.takeByte]
@[simp] theorem State.takeByte_pins (s : State) (b : Byte) (r : List Host.Cell) : (s.takeByte b r).pins = s.pins := by
  simp [State.takeByte]
@[simp] theorem State.takeByte_opbuf (s : State) (b : Byte) (r : List Host.Cell) : (s.takeByte b r).opbuf = s.opbuf ++ [b] := by
  simp [State.takeByte]
@[simp] theorem State.takeByte_boundary (s : State) (b : Byte) (r : List Host.Cell) : (s.takeByte b r).boundary = s.boundary := by
  simp [State.takeByte]
@[simp] theorem State.takeByte_busy (s : State) (b : Byte) (r : List Host.Cell) : (s.takeByte b r).busy = s.busy := by
  simp [State.takeByte]
@[simp] theorem State.takeByte_micro (s : State) (b : Byte) (r : List Host.Cell) : (s.takeByte b r).micro = s.micro := by
  simp [State.takeByte]
@[simp] theorem State.takeByte_latch (s : State) (b : Byte) (r : List Host.Cell) : (s.takeByte b r).latch = s.latch := by
  simp [State.takeByte]
@[simp] theorem State.takeByte_turn (s : State) (b : Byte) (r : List Host.Cell) : (s.takeByte b r).turn = s.turn := by
  simp [State.takeByte]
@[simp] theorem State.takeByte_script (s : State) (b : Byte) (r : List Host.Cell) : (s.takeByte b r).script = s.script := by
  simp [State.takeByte]
@[simp] theorem State.takeByte_draws (s : State) (b : Byte) (r : List Host.Cell) : (s.takeByte b r).draws = s.draws := by
  simp [State.takeByte]

end Sys2Proof.Machine
end

