-- ==== Sys2Proof/Laws/Relation.lean ====
section
/-! SUPPORT. Everything the processor can do, said once: a relation that is closed under the primitive
changes below holds between the states before and after any instruction, entry, fetch, and move of the
processor. -/

namespace Sys2Proof.Machine

open Sys2Proof

/-- A relation that the primitive changes of the processor keep. `control` covers the fields that only
steer execution; a bus cycle ends with `READY = 1` only (R110). -/
structure ProcClosed (R : State → State → Prop) : Prop where
  refl : ∀ s, R s s
  trans : ∀ {a b c}, R a b → R b c → R a c
  control : ∀ (s : State) micro latch turn opbuf insnStart boundary waiting halted lockActive intInhibit
      nmiPending,
    R s { s with
      micro := micro, latch := latch, turn := turn, opbuf := opbuf, insnStart := insnStart
      boundary := boundary, waiting := waiting, halted := halted, lockActive := lockActive
      intInhibit := intInhibit, nmiPending := nmiPending }
  holdData : ∀ (s : State) c, R s { s with busy := some (.data c) }
  freeBus : ∀ s : State, R s { s with busy := none }
  holdFetch : ∀ s : State, (s.fetching = true ∨ s.hasRoom = true) → R s { s with busy := some .fetch }
  fetchEnds : ∀ s : State, (s.fetching = true ∨ s.hasRoom = true) → s.pins.ready = true → R s s.completeFetch
  logs : ∀ (s : State) c d, c.kind ≠ .memWrite → s.pins.ready = true → R s (s.logCycle c d)
  writes : ∀ (s : State) c, c.kind = .memWrite → s.inQueue (targets c.pa c.width) = false → s.pins.ready = true →
    R s ((s.storeBytes c.pa c.width c.data).logCycle c (some c.data))
  setsSp : ∀ (s : State) v, R s (s.setSp v)
  setsFlags : ∀ (s : State) f, R s { s with flags := f }
  jumps : ∀ (s : State) cs ip, R s { s with cs := cs, ip := ip }.flushQueue
  takes : ∀ (s : State) a b rest, s.queue = (a, b) :: rest → R s (s.takeByte b rest)

/-- The state a part of an instruction leaves, done or waiting. -/
def MicroRes.Leaves (r : MicroRes) (t : State) : Prop := r = .ok t ∨ r = .parked t

theorem MicroRes.leaves_ok {s t : State} : (MicroRes.ok s).Leaves t ↔ s = t := by
  simp [MicroRes.Leaves]

theorem MicroRes.leaves_parked {s t : State} : (MicroRes.parked s).Leaves t ↔ s = t := by
  simp [MicroRes.Leaves]

theorem MicroRes.leaves_refused {r : Refusal} {t : State} : ¬(MicroRes.refused r).Leaves t := by
  simp [MicroRes.Leaves]

theorem MicroRes.toOutcome_next {r : MicroRes} {t : State} : r.toOutcome = .next t ↔ r.Leaves t := by
  cases r <;> simp [MicroRes.toOutcome, MicroRes.Leaves]

namespace ProcClosed

variable {R : State → State → Prop} (hR : ProcClosed R)
include hR

theorem spend (s : State) : R s s.spend :=
  hR.control s s.micro s.latch _ s.opbuf s.insnStart s.boundary s.waiting s.halted s.lockActive
    s.intInhibit s.nmiPending

theorem latched (s : State) (l : List Byte) : R s { s with latch := l } :=
  hR.control s s.micro l s.turn s.opbuf s.insnStart s.boundary s.waiting s.halted s.lockActive
    s.intInhibit s.nmiPending

theorem parks (s : State) (ms : List Micro) : R s { s with micro := ms } :=
  hR.control s ms s.latch s.turn s.opbuf s.insnStart s.boundary s.waiting s.halted s.lockActive
    s.intInhibit s.nmiPending

theorem completeData {s t : State} {c : Cycle} (hr : s.pins.ready = true) (h : (s.completeData c).Leaves t) :
    R s t := by
  unfold State.completeData at h
  split at h
  · rename_i hk
    rw [MicroRes.leaves_ok] at h
    subst h
    exact hR.trans (hR.latched s _) (hR.logs _ _ _ (by simp [hk]) hr)
  · rename_i hk
    split at h
    · exact absurd h MicroRes.leaves_refused
    · rename_i hq
      rw [MicroRes.leaves_ok] at h
      subst h
      exact hR.writes s c hk (by simpa using hq) hr
  · rename_i hk
    split at h <;> rw [MicroRes.leaves_ok] at h <;> subst h
    · exact hR.trans (hR.latched s _) (hR.logs _ _ _ (by simp [hk]) hr)
    · exact hR.logs _ _ _ (by simp [hk]) hr
  · rename_i _ hw _
    rw [MicroRes.leaves_ok] at h
    subst h
    exact hR.logs _ _ _ hw hr

theorem endData {s t : State} {c : Cycle} (h : (s.endData c).Leaves t) : R s t := by
  unfold State.endData at h
  split at h
  · exact hR.trans (hR.freeBus s) (hR.completeData ‹_› h)
  · rw [MicroRes.leaves_parked] at h
    subst h
    exact hR.holdData s c

theorem startData {s t : State} {c : Cycle} (h : (s.startData c).Leaves t) : R s t := by
  unfold State.startData at h
  split at h
  · exact hR.trans (hR.spend s) (hR.endData h)
  · rw [MicroRes.leaves_parked] at h
    subst h
    exact hR.refl s

theorem endFetch {s t : State} (hs : s.fetching = true ∨ s.hasRoom = true)
    (h : s.endFetch.Leaves t) : R s t := by
  unfold State.endFetch at h
  split at h
  · rw [MicroRes.leaves_ok] at h
    subst h
    exact hR.fetchEnds s hs ‹_›
  · rw [MicroRes.leaves_parked] at h
    subst h
    exact hR.holdFetch s hs

theorem runCycle {s t : State} {c : Cycle} (h : (s.runCycle c).Leaves t) : R s t := by
  unfold State.runCycle at h
  split at h
  · exact hR.startData h
  · exact hR.endData h
  · rename_i hb
    have hf : s.fetching = true ∨ s.hasRoom = true := .inl (by simp [State.fetching, hb])
    split at h
    · rename_i s' he
      exact hR.trans (hR.endFetch hf (.inl he)) (hR.startData h)
    · rename_i s' he
      rw [MicroRes.leaves_parked] at h
      subst h
      exact hR.endFetch hf (.inr he)
    · exact absurd h MicroRes.leaves_refused

theorem endInstr (s : State) (b : Bool) : R s (s.endInstr b) :=
  hR.control s s.micro s.latch s.turn s.opbuf s.insnStart (some b) s.waiting s.halted false
    false s.nmiPending

theorem doMicro {s t : State} {m : Micro} (h : (s.doMicro m).Leaves t) : R s t := by
  cases m <;> simp only [State.doMicro, MicroRes.leaves_ok, MicroRes.leaves_refused] at h
  case cycle c => exact hR.runCycle h
  case setSp v => subst h; exact hR.setsSp s v
  case clearIfTf => subst h; exact hR.setsFlags s _
  case enterHandler =>
    subst h
    exact hR.trans
      (hR.control s s.micro [] s.turn s.opbuf s.insnStart s.boundary false false s.lockActive
        s.intInhibit s.nmiPending) (hR.jumps _ _ _)
  case leaveHandler =>
    subst h
    exact hR.trans (hR.trans (hR.setsFlags s _) (hR.latched _ [])) (hR.jumps _ _ _)
  case enterType ip => subst h; exact hR.control ..
  case enterHalt => subst h; exact hR.control ..
  case endInstr b => subst h; exact hR.endInstr s b
  case endEntry => subst h; exact hR.control ..

theorem runMicros {ms : List Micro} {s t : State} (h : (runMicros ms s).Leaves t) : R s t := by
  induction ms generalizing s with
  | nil =>
    rw [Sys2Proof.Machine.runMicros, MicroRes.leaves_ok] at h
    subst h
    exact hR.refl s
  | cons m ms ih =>
    rw [Sys2Proof.Machine.runMicros] at h
    split at h
    · exact hR.trans (hR.doMicro (.inl ‹_›)) (ih h)
    · rw [MicroRes.leaves_parked] at h
      subst h
      exact hR.trans (hR.doMicro (.inr ‹_›)) (hR.parks _ _)
    · exact absurd h MicroRes.leaves_refused

theorem start {ms : List Micro} {s t : State} (h : s.start ms = .next t) : R s t :=
  hR.trans (hR.latched s []) (hR.runMicros (MicroRes.toOutcome_next.1 h))

theorem resume {s t : State} (h : s.resume = .next t) : R s t :=
  hR.trans (hR.parks s []) (hR.runMicros (MicroRes.toOutcome_next.1 h))

/-- Whatever instruction runs, a closed relation holds between the states before and after. -/
theorem exec {i : Instr} {s t : State} (h : exec i s = .next t) : R s t := by
  cases i <;> simp only [Sys2Proof.Machine.exec] at h
  case lock =>
    unfold execLock at h
    split at h
    · cases h
    · cases h; exact hR.control ..
  case nop => cases h; exact hR.endInstr s _
  case wait =>
    unfold execWait at h
    split at h <;> cases h <;> exact hR.control ..
  case int3 => exact hR.start h
  case intN n => exact hR.start h
  case into =>
    unfold execInto at h
    split at h
    · exact hR.start h
    · cases h; exact hR.endInstr s _
  case iret => exact hR.start h
  case hlt => exact hR.start h
  case cli => cases h; exact hR.trans (hR.setsFlags s _) (hR.endInstr _ _)
  case sti =>
    cases h
    exact hR.trans (hR.setsFlags s { s.flags with ifl := true }) (hR.control ..)

theorem takeNext {s t : State} (h : s.takeNext.Leaves t) : R s t := by
  have hfill : ∀ t, s.fillQueue.Leaves t → R s t := by
    intro t h
    unfold State.fillQueue at h
    split at h
    · rw [MicroRes.leaves_ok] at h; subst h; exact hR.refl s
    · split at h
      · rename_i hb
        exact hR.endFetch (.inl (by simp [State.fetching, hb])) h
      · rw [MicroRes.leaves_parked] at h; subst h; exact hR.refl s
      · split at h
        · rename_i hm
          refine hR.trans (hR.spend s) (hR.endFetch (.inr ?_) h)
          rw [Bool.and_eq_true] at hm
          exact hm.2
        · rw [MicroRes.leaves_parked] at h; subst h; exact hR.refl s
  unfold State.takeNext at h
  split at h
  · rename_i s' hs'
    split at h
    · rename_i q rest hq
      rw [MicroRes.leaves_ok] at h
      subst h
      exact hR.trans (hfill _ (.inl hs')) (hR.takes s' q.1 q.2 rest hq)
    · rw [MicroRes.leaves_parked] at h
      subst h
      exact hfill _ (.inl hs')
  · rename_i s' hs'
    rw [MicroRes.leaves_parked] at h
    subst h
    exact hfill _ (.inr hs')
  · exact absurd h MicroRes.leaves_refused

theorem fetchInstr {k : Nat} {s t : State}
    (h : fetchInstr k s = .done (.next t) ∨ ∃ i, fetchInstr k s = .run i t) : R s t := by
  induction k generalizing s with
  | zero =>
    simp only [Sys2Proof.Machine.fetchInstr, Prepared.done.injEq, Host.Outcome.next.injEq, reduceCtorEq,
      exists_false, or_false] at h
    subst h
    exact hR.refl s
  | succ k ih =>
    simp only [Sys2Proof.Machine.fetchInstr] at h
    split at h
    · simp at h
    · rename_i s' hs'
      simp only [Prepared.done.injEq, Host.Outcome.next.injEq, reduceCtorEq, exists_false, or_false] at h
      subst h
      exact hR.takeNext (.inr hs')
    · rename_i s' hs'
      refine hR.trans (hR.takeNext (.inl hs')) ?_
      split at h
      · simp only [reduceCtorEq, false_or, Prepared.run.injEq] at h
        obtain ⟨i, -, rfl⟩ := h
        exact hR.control ..
      · exact ih h
      · simp at h

theorem takeInterrupt {n : Nat} {ip : Word} {s t : State} (h : s.takeInterrupt n ip = .next t) :
    R s t := by
  unfold State.takeInterrupt at h
  refine hR.trans ?_ (hR.start h)
  split
  · exact hR.control ..
  · exact hR.refl s

theorem idleTurn {s t : State} (h : s.idleTurn = .next t) : R s t := by
  have hl : R s s.leaveIdle.1 := by
    unfold State.leaveIdle
    split <;> exact hR.control ..
  unfold State.idleTurn at h
  split at h
  · cases h; exact hR.control ..
  · split at h
    · exact hR.trans hl (hR.takeInterrupt h)
    · split at h
      · exact hR.trans hl (hR.start h)
      · cases h; exact hR.refl s

theorem proceed {s t : State} (h : s.proceed = .done (.next t) ∨ ∃ i, s.proceed = .run i t) : R s t := by
  unfold State.proceed at h
  split at h
  · simp only [Prepared.done.injEq, reduceCtorEq, exists_false, or_false] at h
    exact hR.resume h
  · split at h
    · simp only [Prepared.done.injEq, reduceCtorEq, exists_false, or_false] at h
      exact hR.idleTurn h
    · split at h
      · exact hR.fetchInstr h
      · rename_i tfb hb
        have hc : R s { s with boundary := none } := hR.control s s.micro s.latch s.turn s.opbuf
          s.insnStart none s.waiting s.halted s.lockActive s.intInhibit s.nmiPending
        refine hR.trans hc ?_
        dsimp only at h
        split at h
        · simp at h
        · simp only [Prepared.done.injEq, reduceCtorEq, exists_false, or_false] at h
          exact hR.takeInterrupt h
        · simp only [Prepared.done.injEq, reduceCtorEq, exists_false, or_false] at h
          exact hR.start h
        · exact hR.fetchInstr h

theorem afterWait {s t : State} (h : s.afterWait = some t) : R s t := by
  unfold State.afterWait at h
  split at h
  · cases h; exact hR.refl s
  · split at h <;> cases h
    exact hR.refl s
  · rename_i hb
    split at h <;> cases h
    exact hR.fetchEnds s (.inl (by simp [State.fetching, hb])) ‹_›

theorem prepare {s t : State} (h : s.prepare = .done (.next t) ∨ ∃ i, s.prepare = .run i t) : R s t := by
  unfold State.prepare at h
  split at h
  · simp only [Prepared.done.injEq, Host.Outcome.next.injEq, reduceCtorEq, exists_false, or_false] at h
    subst h
    exact hR.refl s
  · split at h
    · simp only [Prepared.done.injEq, Host.Outcome.next.injEq, reduceCtorEq, exists_false, or_false] at h
      subst h
      exact hR.refl s
    · rename_i s' hs'
      exact hR.trans (hR.afterWait hs') (hR.proceed h)

/-- A move of the processor keeps a closed relation. -/
theorem turnOf {s t : State} (h : turnOf s = .next t) : R s t := by
  unfold Sys2Proof.Machine.turnOf at h
  split at h
  · rename_i i s' hp
    exact hR.trans (hR.prepare (.inr ⟨i, hp⟩)) (hR.exec h)
  · rename_i o hp
    subst h
    exact hR.prepare (.inl hp)

end ProcClosed

end Sys2Proof.Machine
end

