-- ==== Sys2Proof/Laws/Ops.lean ====
section
/-! SUPPORT. What the shared operations do when the bus is free: one bus cycle, a word access, a push, a
pop, a vector read; and how runs of parts compose. -/

namespace Sys2Proof.Machine

open Sys2Proof

/-- Running two lists of parts one after the other. -/
theorem runMicros_append (a b : List Micro) (s : State) :
    runMicros (a ++ b) s =
      match runMicros a s with
      | .ok s' => runMicros b s'
      | .parked s' => .parked { s' with micro := s'.micro ++ b }
      | .refused r => .refused r := by
  induction a generalizing s with
  | nil => rfl
  | cons m ms ih =>
    simp only [List.cons_append, runMicros]
    cases hm : s.doMicro m with
    | ok s' => simp only [ih]
    | parked s' => rfl
    | refused r => rfl

/-- One after the other. -/
theorem runMicros_append_ok {a b : List Micro} {s t : State} (h : runMicros a s = .ok t) :
    runMicros (a ++ b) s = runMicros b t := by
  rw [runMicros_append, h]

/-- A part that is done leaves the rest to run. -/
theorem runMicros_cons_ok {m : Micro} {ms : List Micro} {s s' : State} (h : s.doMicro m = .ok s') :
    runMicros (m :: ms) s = runMicros ms s' := by
  simp only [runMicros, h]

/-- Reporting a queue operation (R102). -/
theorem State.reportQueue_eq (s : State) (q : QueueOp) :
    s.reportQueue q = { s with qsHistory := s.qsHistory ++ s.qsReports [q] } := by
  unfold State.reportQueue State.qsReports
  cases s.cfg.mode
  · rw [List.append_nil]
  · rfl

/-- What the queue status history gains depends on the mode alone. -/
theorem State.qsReports_append (s : State) (a b : List QueueOp) :
    s.qsReports (a ++ b) = s.qsReports a ++ s.qsReports b := by
  unfold State.qsReports
  split <;> rfl

/-- Emptying the queue reports it once (R29, R102). -/
theorem State.flushQueue_qsHistory (s : State) :
    s.flushQueue.qsHistory = s.qsHistory ++ s.qsReports [.flush] := by
  rw [State.flushQueue, State.reportQueue_eq]
  rfl

/-- With no limit on the turn, a started cycle changes no count. -/
theorem State.spend_of_unlimited {s : State} (h : s.turn.cycles = none) : s.spend = s := by
  unfold State.spend
  rw [h]
  show { s with turn := { s.turn with cycles := none } } = s
  rw [← h]

/-- A cycle of the processor adds one record (R47 g). -/
theorem State.logCycle_history (s : State) (c : Cycle) (d : Option Word) :
    ∃ r, (s.logCycle c d).history = s.history ++ [r] ∧ r.kind = c.kind ∧ r.master = .cpu ∧ r.width = c.width ∧
      r.data = d ∧ r.ifl = s.flags.ifl ∧ r.locked = s.lockActive :=
  ⟨_, rfl, rfl, rfl, rfl, rfl, rfl, rfl⟩

/-- With the bus free a data cycle runs at once (R47, R110). -/
theorem State.runCycle_of_busFree {s : State} (h : s.BusFree) (c : Cycle) :
    s.runCycle c = s.completeData c := by
  obtain ⟨ho, hb, hr, ht⟩ := h
  have hbs : { s with busy := none } = s := by rw [← hb]
  have hm : s.mayStart = true := by simp [State.mayStart, ho, ht]
  simp only [State.runCycle, hb, State.startData, hm, if_true, State.spend_of_unlimited ht,
    State.endData, hr, hbs]

/-- Two single-byte stores are the word store, least significant byte first (R54). -/
theorem State.storeBytes_word (s : State) (pa : Addr) (v : Word) :
    s.storeBytes pa 16 v = (s.storeByte pa (loByte v)).storeByte (pa + 1#20) (hiByte v) := rfl

/-- The byte a byte cycle carries. -/
@[simp] theorem loByte_setWidth (b : Byte) : loByte (b.setWidth 16) = b := by
  simp [loByte]

/-- A byte write changes nothing but memory. -/
theorem State.storeByte_eq (s : State) (a : Addr) (v : Byte) :
    s.storeByte a v = { s with mem := (s.storeByte a v).mem } := by
  unfold State.storeByte
  split <;> rfl

/-- A write changes nothing but memory. -/
theorem State.storeBytes_eq (s : State) (pa : Addr) (w : Nat) (d : Word) :
    s.storeBytes pa w d = { s with mem := (s.storeBytes pa w d).mem } := by
  unfold State.storeBytes
  split
  · rw [State.storeByte_eq, State.storeByte_eq s]
  · split
    · rw [State.storeByte_eq]
    · rfl

/-- The queue test looks at nothing but the queue. -/
theorem State.inQueue_congr {s t : State} (h : t.queue = s.queue) (as : List Addr) :
    t.inQueue as = s.inQueue as := by
  simp [State.inQueue, h]

/-- Where memory is declared, a read takes memory's byte (R64). -/
theorem State.byteAt_present {s : State} {a : Addr} (h : s.isAbsent a = false) (k : Nat) :
    s.byteAt a k = Memory.read s.mem a.toNat := by
  simp [State.byteAt, h]

/-- Whether memory is declared depends on the platform alone. -/
theorem State.isAbsent_congr {s t : State} (h : t.absent = s.absent) (a : Addr) :
    t.isAbsent a = s.isAbsent a := by
  simp [State.isAbsent, h]

/-- Whether a byte write reaches memory depends on the platform and memory alone. -/
theorem State.storeByte_mem_congr {s t : State} (ha : t.absent = s.absent) (hm : t.mem = s.mem)
    (a : Addr) (v : Byte) : (t.storeByte a v).mem = (s.storeByte a v).mem := by
  simp only [State.storeByte, State.isAbsent_congr ha]
  split <;> simp [hm]

/-- A word store keeps the canonical form. -/
theorem State.storeBytes_wf {s : State} (pa : Addr) (w : Nat) (d : Word) (h : Memory.wf s.mem = true) :
    Memory.wf (s.storeBytes pa w d).mem = true := by
  unfold State.storeBytes
  split
  · exact State.storeByte_wf _ _ (State.storeByte_wf _ _ h)
  · split
    · exact State.storeByte_wf _ _ h
    · exact h

/-- A store leaves every byte outside its targets alone. -/
theorem State.storeBytes_read_other {s : State} {pa : Addr} {w : Nat} {x : Nat} (d : Word)
    (h : ∀ a ∈ targets pa w, x ≠ a.toNat) :
    Memory.read (s.storeBytes pa w d).mem x = Memory.read s.mem x := by
  unfold targets at h
  unfold State.storeBytes
  split at h
  · simp only [List.mem_cons, List.not_mem_nil, or_false, forall_eq_or_imp, forall_eq] at h
    simp only [*, if_true]
    rw [State.storeByte_read_other _ h.2, State.storeByte_read_other _ h.1]
  · split at h
    · simp only [List.mem_cons, List.not_mem_nil, or_false, forall_eq] at h
      simp only [*, if_true, Nat.reduceEqDiff, if_false]
      rw [State.storeByte_read_other _ h]
    · simp only [*, if_false]

/-- What a store leaves in memory depends on the platform and memory alone. -/
theorem State.storeBytes_mem_congr {s t : State} (ha : t.absent = s.absent) (hm : t.mem = s.mem)
    (pa : Addr) (w : Nat) (d : Word) : (t.storeBytes pa w d).mem = (s.storeBytes pa w d).mem := by
  unfold State.storeBytes
  split
  · exact State.storeByte_mem_congr (by simpa using ha) (State.storeByte_mem_congr ha hm _ _) _ _
  · split
    · exact State.storeByte_mem_congr ha hm _ _
    · exact hm

/-- Addresses among addresses that are not in the queue are not in it. -/
theorem State.inQueue_of_mem {s : State} {as bs : List Addr} (h : s.inQueue bs = false)
    (hs : ∀ a ∈ as, a ∈ bs) : s.inQueue as = false := by
  simp only [State.inQueue, List.any_eq_false] at h ⊢
  exact fun a ha => h a (hs a ha)

/-- The records of one list of cycles after another. -/
theorem State.ShowsAll.append {s : State} {l : Bool} {cs ds : List (Bool × Cycle)} {rs qs : List BusRecord}
    (h : s.ShowsAll l cs rs) (h' : s.ShowsAll l ds qs) : s.ShowsAll l (cs ++ ds) (rs ++ qs) := by
  induction cs generalizing rs with
  | nil =>
    cases rs with
    | nil => exact h'
    | cons r rs => exact h.elim
  | cons c cs ih =>
    cases rs with
    | nil => exact h.elim
    | cons r rs => exact ⟨h.1, ih h.2⟩

/-- What a record of a memory cycle shows depends on the parameters, and for a read on the bytes read. -/
theorem State.ShowsAll.congr {s t : State} {l : Bool} {cs : List (Bool × Cycle)} {rs : List BusRecord}
    (hc : t.cfg = s.cfg)
    (hk : ∀ c ∈ cs, c.2.kind = .memWrite ∨
      c.2.kind = .memRead ∧ t.readBytes c.2.pa c.2.width = s.readBytes c.2.pa c.2.width)
    (h : t.ShowsAll l cs rs) : s.ShowsAll l cs rs := by
  induction cs generalizing rs with
  | nil =>
    cases rs with
    | nil => trivial
    | cons r rs => exact h.elim
  | cons c cs ih =>
    cases rs with
    | nil => exact h.elim
    | cons r rs =>
      obtain ⟨⟨h1, h2, h3, h4, h5, h6, h7⟩, hr⟩ := h
      refine ⟨⟨h1, h2, h3, ?_, h5, ?_, h7⟩, ih (fun c hc => hk c (List.mem_cons_of_mem _ hc)) hr⟩
      · rw [h4]
        rcases hk c (List.mem_cons_self ..) with e | ⟨e, -⟩ <;> simp [State.bheOf, hc, e]
      · rw [h6]
        rcases hk c (List.mem_cons_self ..) with e | ⟨e, e'⟩
        · simp [e]
        · rw [e']

/-- What a record shows depends on the parameters, memory, the platform and the draws alone. -/
theorem State.Ran.congr {s t : State} {l : Bool} {cs : List (Bool × Cycle)} {hist : List BusRecord}
    (h : t.Ran l cs hist) (hh : t.history = s.history) (hc : t.cfg = s.cfg) (hm : t.mem = s.mem)
    (ha : t.absent = s.absent) (hd : t.draws = s.draws) : s.Ran l cs hist := by
  obtain ⟨recs, e, hs⟩ := h
  refine ⟨recs, hh ▸ e, ?_⟩
  clear e
  induction cs generalizing recs with
  | nil =>
    cases recs with
    | nil => trivial
    | cons r rs => exact hs.elim
  | cons c cs ih =>
    cases recs with
    | nil => exact hs.elim
    | cons r rs =>
      refine ⟨?_, ih rs hs.2⟩
      have := hs.1
      simp only [State.Shows, State.bheOf, State.readBytes, State.byteAt, State.isAbsent, hc, hm, ha, hd] at this ⊢
      exact this

/-- No cycle, no record. -/
theorem State.ran_nil (s : State) (l : Bool) : s.Ran l [] s.history := ⟨[], by simp, trivial⟩

/-- The cycles run from `s` and then those run from `t`. -/
theorem State.Ran.trans {s t : State} {l : Bool} {cs ds : List (Bool × Cycle)} {hist : List BusRecord}
    (h : s.Ran l cs t.history) (hc : t.cfg = s.cfg)
    (hk : ∀ c ∈ ds, c.2.kind = .memWrite ∨
      c.2.kind = .memRead ∧ t.readBytes c.2.pa c.2.width = s.readBytes c.2.pa c.2.width)
    (h' : t.Ran l ds hist) : s.Ran l (cs ++ ds) hist := by
  obtain ⟨recs, e, hs⟩ := h
  obtain ⟨recs', e', hs'⟩ := h'
  exact ⟨recs ++ recs', by rw [e', e, List.append_assoc], hs.append (hs'.congr hc hk)⟩

/-- One more cycle, recorded from a state `u` that has come from `s`. -/
theorem State.Ran.log {s u : State} {cs : List (Bool × Cycle)} {c : Cycle} {d : Word} {f : Bool}
    (h : s.Ran s.lockActive cs u.history) (hc : u.cfg = s.cfg) (hf : u.flags.ifl = f)
    (hl : u.lockActive = s.lockActive)
    (hk : c.kind = .memWrite ∧ d = c.data ∨ c.kind = .memRead ∧ d = wordOfBytes (s.readBytes c.pa c.width)) :
    s.Ran s.lockActive (cs ++ [(f, c)]) (u.logCycle c (some d)).history := by
  obtain ⟨recs, e, hs⟩ := h
  refine ⟨recs ++ [_], by simp only [State.logCycle, e, List.append_assoc]; rfl, hs.append ⟨?_, trivial⟩⟩
  rcases hk with ⟨e1, e2⟩ | ⟨e1, e2⟩ <;>
    exact ⟨rfl, rfl, by simp [State.paOf, e1], by simp [State.bheOf, hc, e1], rfl, by simp [e1, e2],
      fun g hg => by simp [State.segOf, hg], hf, hl⟩

/-- Every cycle of a word access is of the access's kind. -/
theorem wordCycles_kind {chip : Chip} {kind : CycleKind} {pa : Addr} {v : Word} {g : Option Seg} {f : Bool}
    {c : Bool × Cycle} (h : c ∈ under f (wordCycles chip kind pa v g)) : c.2.kind = kind := by
  unfold under wordCycles at h
  split at h <;> simp only [List.map_cons, List.map_nil, List.mem_cons, List.not_mem_nil, or_false] at h
  · rw [h]
  · rcases h with rfl | rfl <;> rfl

/-- The bytes a read takes are memory's, where memory is declared. -/
theorem State.readBytes_present {s : State} {pa : Addr}
    (hp : s.isAbsent pa = false ∧ s.isAbsent (pa + 1#20) = false) :
    s.readBytes pa 16 = [Memory.read s.mem pa.toNat, Memory.read s.mem (pa + 1#20).toNat] ∧
    s.readBytes pa 8 = [Memory.read s.mem pa.toNat] ∧
    s.readBytes (pa + 1#20) 8 = [Memory.read s.mem (pa + 1#20).toNat] := by
  simp only [State.readBytes, State.byteAt_present hp.1, State.byteAt_present hp.2]
  exact ⟨rfl, rfl, rfl⟩

/-- Two states that hold the same two bytes in declared memory answer the reads of that word alike. -/
theorem State.wordCycles_readBytes {s t : State} {chip : Chip} {pa : Addr} {v : Word} {g : Option Seg} {f : Bool}
    (hs : s.isAbsent pa = false ∧ s.isAbsent (pa + 1#20) = false) (ha : t.absent = s.absent)
    (h0 : Memory.read t.mem pa.toNat = Memory.read s.mem pa.toNat)
    (h1 : Memory.read t.mem (pa + 1#20).toNat = Memory.read s.mem (pa + 1#20).toNat) :
    ∀ c ∈ under f (wordCycles chip .memRead pa v g), c.2.kind = .memWrite ∨
      c.2.kind = .memRead ∧ t.readBytes c.2.pa c.2.width = s.readBytes c.2.pa c.2.width := by
  intro c hc
  refine .inr ⟨wordCycles_kind hc, ?_⟩
  obtain ⟨s1, s2, s3⟩ := State.readBytes_present hs
  obtain ⟨t1, t2, t3⟩ := State.readBytes_present (s := t) (pa := pa)
    (by rw [State.isAbsent_congr ha, State.isAbsent_congr ha]; exact hs)
  unfold under wordCycles at hc
  split at hc <;> simp only [List.map_cons, List.map_nil, List.mem_cons, List.not_mem_nil, or_false] at hc
  · subst hc
    rw [s1, t1, h0, h1]
  · rcases hc with rfl | rfl
    · rw [s2, t2, h0]
    · rw [s3, t3, h1]

/-- Different offsets of one segment are different addresses (R43). -/
theorem gkPhys_ne {ss a b : Word} (h : a ≠ b) : gkPhys ss a ≠ gkPhys ss b := by
  intro e
  apply h
  simp only [gkPhys] at e
  generalize ss.setWidth 20 <<< 4 = x at e
  bv_omega

/-- But for the last offset of the segment the next physical address is that of the next offset (R43, R55). -/
theorem gkPhys_succ {ss a : Word} (h : a ≠ 0xFFFF#16) : gkPhys ss a + 1#20 = gkPhys ss (a + 1#16) := by
  have e : (a + 1#16).setWidth 20 = a.setWidth 20 + 1#20 := by bv_omega
  simp only [gkPhys, e]
  ac_rfl

/-- With R43's `phys` the code access is the one R56 describes: a word at every even address of the 8086. -/
theorem State.codeCycle_gk {s : State} (h : s.cfg.physRule = .gk) :
    s.codeCycle.width = if s.cfg.chip = .i8086 ∧ isOdd s.codeCycle.pa = false then 16 else 8 := by
  simp only [State.codeCycle, phys, h]
  by_cases hf : s.fetchOff = 0xFFFF#16
  · have ho : isOdd (gkPhys s.cs s.fetchOff) = true := by
      rw [hf, isOdd, gkPhys, BitVec.getLsbD_add (by decide)]
      simp
    simp [ho]
  · simp [gkPhys_succ hf]

/-- With R43's `phys` the six stack bytes of an entry are different, off the ends (R55). -/
theorem State.entryStack_nodup_gk {s : State} {sp : Word} (h : s.cfg.physRule = .gk)
    (h1 : wordAtEnd s.cfg s.ss (sp - 2#16) = false) (h2 : wordAtEnd s.cfg s.ss (sp - 4#16) = false)
    (h3 : wordAtEnd s.cfg s.ss (sp - 6#16) = false) : (s.entryStack sp).Nodup := by
  simp only [wordAtEnd, Bool.or_eq_false_iff, decide_eq_false_iff_not] at h1 h2 h3
  simp only [State.entryStack, phys, h, gkPhys_succ h1.1, gkPhys_succ h2.1, gkPhys_succ h3.1]
  have hn := (List.nodup_map_iff (f := gkPhys s.ss) (fun a b e => by_contra fun hne => gkPhys_ne hne e)
    (l := [sp - 2#16, sp - 2#16 + 1#16, sp - 4#16, sp - 4#16 + 1#16, sp - 6#16, sp - 6#16 + 1#16]))
  refine hn.2 ?_
  simp only [List.nodup_cons, List.mem_cons, List.not_mem_nil, or_false, not_or, List.nodup_nil, not_false_eq_true,
    and_true]
  refine ⟨⟨?_, ?_, ?_, ?_, ?_⟩, ⟨?_, ?_, ?_, ?_⟩, ⟨?_, ?_, ?_⟩, ⟨?_, ?_⟩, ?_⟩ <;> bv_omega

/-- The two bytes of a word make it up again. -/
theorem joinBytes_hi_lo (w : Word) : joinBytes (hiByte w) (loByte w) = w := by
  simp only [joinBytes, hiByte, loByte]
  apply BitVec.eq_of_getLsbD_eq
  intro i hi
  simp
  grind

/-- The word read depends on memory alone. -/
theorem State.wordAt_congr {s t : State} (h : t.mem = s.mem) (pa : Addr) : t.wordAt pa = s.wordAt pa := by
  simp [State.wordAt, h]

/-- A stored word is read back where memory is declared (R54). -/
theorem State.wordAt_storeBytes {s : State} {pa : Addr} (v : Word) (h : Memory.wf s.mem = true)
    (h1 : s.isAbsent pa = false) (h2 : s.isAbsent (pa + 1#20) = false) :
    (s.storeBytes pa 16 v).wordAt pa = v := by
  have hne : pa + 1#20 ≠ pa := by bv_omega
  simp only [State.wordAt, State.storeBytes_word]
  rw [State.storeByte_read_same _ (by rw [State.isAbsent_congr (s := s) (by simp)]; exact h2)
      (State.storeByte_wf _ _ h),
    State.storeByte_read_other _ (fun e => hne (BitVec.eq_of_toNat_eq e.symm)),
    State.storeByte_read_same _ h1 h, joinBytes_hi_lo]

/-- A word store leaves the words off its bytes alone. -/
theorem State.wordAt_storeBytes_other {s : State} {pa pb : Addr} (v : Word)
    (h : ∀ a ∈ [pb, pb + 1#20], a ≠ pa ∧ a ≠ pa + 1#20) : (s.storeBytes pa 16 v).wordAt pb = s.wordAt pb := by
  have hr : ∀ a ∈ [pb, pb + 1#20],
      Memory.read (s.storeBytes pa 16 v).mem a.toNat = Memory.read s.mem a.toNat := by
    intro a ha
    apply State.storeBytes_read_other
    simp only [targets, if_true, List.mem_cons, List.not_mem_nil, or_false, forall_eq_or_imp, forall_eq]
    exact ⟨fun e => (h a ha).1 (BitVec.eq_of_toNat_eq e), fun e => (h a ha).2 (BitVec.eq_of_toNat_eq e)⟩
  simp only [State.wordAt]
  rw [hr _ (by simp), hr _ (by simp)]

/-- A write to memory, one word in one or two cycles (R50, R51, R53): whichever the part needs, memory is
what the word store makes of it, the history gains the records of the access, and otherwise only the draws
move. -/
theorem State.runMicros_wordWrite {s : State} (hf : s.BusFree) (pa : Addr) (v : Word) (g : Option Seg)
    (hq : s.inQueue [pa, pa + 1#20] = false) (ms : List Micro) :
    ∃ hist draws, s.Ran s.lockActive (under s.flags.ifl (wordCycles s.cfg.chip .memWrite pa v g)) hist ∧
      runMicros ((wordCycles s.cfg.chip .memWrite pa v g).map .cycle ++ ms) s =
        runMicros ms { s with mem := (s.storeBytes pa 16 v).mem, history := hist, draws := draws } := by
  have hq' : s.inQueue [pa] = false ∧ s.inQueue [pa + 1#20] = false := by
    simp only [State.inQueue, List.any_cons, List.any_nil, Bool.or_false, Bool.or_eq_false_iff] at hq ⊢
    exact hq
  unfold wordCycles
  split
  · set c : Cycle := ⟨.memWrite, pa, 16, v, g⟩ with hc
    have h1 : s.doMicro (.cycle c) = .ok ((s.storeBytes pa 16 v).logCycle c (some v)) := by
      simp only [State.doMicro, State.runCycle_of_busFree hf, State.completeData, targets, hc, hq, if_true,
        Bool.false_eq_true, if_false]
    refine ⟨((s.storeBytes pa 16 v).logCycle c (some v)).history,
      ((s.storeBytes pa 16 v).logCycle c (some v)).draws, ?_, (runMicros_cons_ok h1).trans ?_⟩
    · exact State.Ran.log (cs := []) (by simpa using s.ran_nil _) (by simp) (by simp) (by simp) (.inl ⟨rfl, rfl⟩)
    rw [State.storeBytes_eq]
    rfl
  · set c1 : Cycle := ⟨.memWrite, pa, 8, (loByte v).setWidth 16, g⟩ with hc1
    set c2 : Cycle := ⟨.memWrite, pa + 1#20, 8, (hiByte v).setWidth 16, g⟩ with hc2
    have h1 : s.doMicro (.cycle c1) = .ok ((s.storeBytes pa 8 c1.data).logCycle c1 (some c1.data)) := by
      simp only [State.doMicro, State.runCycle_of_busFree hf, State.completeData, targets, hc1, hq'.1,
        if_true, Bool.false_eq_true, if_false, Nat.reduceEqDiff]
    have hf2 : ((s.storeBytes pa 8 c1.data).logCycle c1 (some c1.data)).BusFree := by
      simpa [State.BusFree] using hf
    have hq2 : ((s.storeBytes pa 8 c1.data).logCycle c1 (some c1.data)).inQueue [pa + 1#20] = false := by
      rw [State.inQueue_congr (s := s) (by simp)]; exact hq'.2
    have h2 : ((s.storeBytes pa 8 c1.data).logCycle c1 (some c1.data)).doMicro (.cycle c2) =
        .ok ((((s.storeBytes pa 8 c1.data).logCycle c1 (some c1.data)).storeBytes (pa + 1#20) 8
          c2.data).logCycle c2 (some c2.data)) := by
      simp only [State.doMicro, State.runCycle_of_busFree hf2, State.completeData, targets, hc2, hq2,
        if_true, Bool.false_eq_true, if_false, Nat.reduceEqDiff]
    refine ⟨((((s.storeBytes pa 8 c1.data).logCycle c1 (some c1.data)).storeBytes (pa + 1#20) 8
        c2.data).logCycle c2 (some c2.data)).history,
      ((((s.storeBytes pa 8 c1.data).logCycle c1 (some c1.data)).storeBytes (pa + 1#20) 8
        c2.data).logCycle c2 (some c2.data)).draws, ?_,
      (runMicros_cons_ok h1).trans ((runMicros_cons_ok h2).trans ?_)⟩
    · have r1 : s.Ran s.lockActive [(s.flags.ifl, c1)]
          ((s.storeBytes pa 8 c1.data).logCycle c1 (some c1.data)).history :=
        State.Ran.log (cs := []) (by simpa using s.ran_nil _) (by simp) (by simp) (by simp) (.inl ⟨rfl, rfl⟩)
      exact State.Ran.log (cs := [_]) (by rw [State.storeBytes_history]; exact r1) (by simp) (by simp) (by simp)
        (.inl ⟨rfl, rfl⟩)
    have hm : (((s.storeBytes pa 8 c1.data).logCycle c1 (some c1.data)).storeBytes (pa + 1#20) 8
        c2.data).mem = (s.storeBytes pa 16 v).mem := by
      simp only [State.storeBytes, hc1, hc2, loByte_setWidth, if_true, Nat.reduceEqDiff, if_false]
      exact State.storeByte_mem_congr (by rfl) (by rfl) _ _
    rw [← hm, State.storeBytes_eq _ (pa + 1#20), State.storeBytes_eq s]
    rfl

/-- A word read from declared memory, in one or two cycles: its bytes join the latch, least significant
first, the history gains the records of the access, and otherwise only the draws move. -/
theorem State.runMicros_wordRead {s : State} (hf : s.BusFree) (pa : Addr) (v : Word) (g : Option Seg)
    (hp : s.isAbsent pa = false ∧ s.isAbsent (pa + 1#20) = false) (ms : List Micro) :
    ∃ hist draws, s.Ran s.lockActive (under s.flags.ifl (wordCycles s.cfg.chip .memRead pa v g)) hist ∧
      runMicros ((wordCycles s.cfg.chip .memRead pa v g).map .cycle ++ ms) s =
        runMicros ms { s with
          latch := s.latch ++ [Memory.read s.mem pa.toNat, Memory.read s.mem (pa + 1#20).toNat]
          history := hist, draws := draws } := by
  unfold wordCycles
  split
  · set c : Cycle := ⟨.memRead, pa, 16, v, g⟩ with hc
    have h1 : s.doMicro (.cycle c) = .ok ({ s with latch := s.latch ++
        [Memory.read s.mem pa.toNat, Memory.read s.mem (pa + 1#20).toNat] }.logCycle c
        (some (wordOfBytes [Memory.read s.mem pa.toNat, Memory.read s.mem (pa + 1#20).toNat]))) := by
      simp only [State.doMicro, State.runCycle_of_busFree hf, State.completeData, State.readBytes, hc,
        State.byteAt_present hp.1, State.byteAt_present hp.2, if_true]
    refine ⟨_, _, ?_, (runMicros_cons_ok h1).trans rfl⟩
    exact State.Ran.log (cs := []) (s.ran_nil _) rfl rfl rfl (.inr ⟨rfl, by rw [(State.readBytes_present hp).1]⟩)
  · set c1 : Cycle := ⟨.memRead, pa, 8, (loByte v).setWidth 16, g⟩ with hc1
    set c2 : Cycle := ⟨.memRead, pa + 1#20, 8, (hiByte v).setWidth 16, g⟩ with hc2
    set s1 := { s with latch := s.latch ++ [Memory.read s.mem pa.toNat] }.logCycle c1
      (some (wordOfBytes [Memory.read s.mem pa.toNat])) with hs1
    have h1 : s.doMicro (.cycle c1) = .ok s1 := by
      simp only [State.doMicro, State.runCycle_of_busFree hf, State.completeData, State.readBytes, hc1,
        State.byteAt_present hp.1, hs1, if_true, if_false, Nat.reduceEqDiff]
    have hf2 : s1.BusFree := by simpa [State.BusFree, hs1] using hf
    have hp2 : s1.isAbsent (pa + 1#20) = false := by
      rw [State.isAbsent_congr (s := s) (by simp [hs1])]; exact hp.2
    set s2 := { s1 with latch := s1.latch ++ [Memory.read s1.mem (pa + 1#20).toNat] }.logCycle c2
      (some (wordOfBytes [Memory.read s1.mem (pa + 1#20).toNat])) with hs2
    have h2 : s1.doMicro (.cycle c2) = .ok s2 := by
      simp only [State.doMicro, State.runCycle_of_busFree hf2, State.completeData, State.readBytes, hc2,
        State.byteAt_present hp2, hs2, if_true, if_false, Nat.reduceEqDiff]
    refine ⟨s2.history, s2.draws, ?_, (runMicros_cons_ok h1).trans ((runMicros_cons_ok h2).trans ?_)⟩
    · have r1 : s.Ran s.lockActive [(s.flags.ifl, c1)] s1.history :=
        State.Ran.log (cs := []) (s.ran_nil _) rfl rfl rfl
          (.inr ⟨rfl, by rw [(State.readBytes_present hp).2.1]⟩)
      exact State.Ran.log (cs := [_]) r1 rfl rfl rfl (.inr ⟨rfl, by rw [(State.readBytes_present hp).2.2]; rfl⟩)
    simp only [hs2, hs1, State.logCycle, List.append_assoc, List.cons_append, List.nil_append]
    rfl

/-- `push(v)` off the ends of segment and memory, onto bytes not in the queue (R14). -/
theorem State.runMicros_push {s : State} (hf : s.BusFree) {s0 : State} (hss : s0.ss = s.ss)
    (hcfg : s0.cfg = s.cfg) (sp v : Word) (he : wordAtEnd s.cfg s.ss (sp - 2#16) = false)
    (hq : s.inQueue [phys s.cfg s.ss (sp - 2#16), phys s.cfg s.ss (sp - 2#16) + 1#20] = false) (ms : List Micro) :
    ∃ hist draws,
      s.Ran s.lockActive (under s.flags.ifl (s.pushCycles (sp - 2#16) v)) hist ∧
      runMicros (s0.pushOps sp v ++ ms) s =
        runMicros ms { s with
          gen := { s.gen with sp := sp - 2#16 }
          mem := (s.storeBytes (phys s.cfg s.ss (sp - 2#16)) 16 v).mem
          history := hist, draws := draws } := by
  have hsp : s.doMicro (.setSp (sp - 2#16)) = .ok (s.setSp (sp - 2#16)) := rfl
  have hf' : (s.setSp (sp - 2#16)).BusFree := by simpa [State.BusFree] using hf
  obtain ⟨hist, draws, hlog, h⟩ := State.runMicros_wordWrite hf' (phys s.cfg s.ss (sp - 2#16)) v (some .ss)
    (by rw [State.inQueue_congr (s := s) (by simp)]; exact hq) ms
  refine ⟨hist, draws, (s.ran_nil _).trans (t := s.setSp (sp - 2#16)) rfl
    (fun c hc => .inl (wordCycles_kind hc)) hlog, ?_⟩
  simp only [State.pushOps, State.stackWord, hss, hcfg, he, List.cons_append, runMicros_cons_ok hsp,
    Bool.false_eq_true, if_false]
  rw [State.setSp_cfg] at h
  rw [h]
  congr 1
  have hm : ((s.setSp (sp - 2#16)).storeBytes (phys s.cfg s.ss (sp - 2#16)) 16 v).mem =
      (s.storeBytes (phys s.cfg s.ss (sp - 2#16)) 16 v).mem := by
    rw [State.storeBytes_word, State.storeBytes_word]
    have h1 : ((s.setSp (sp - 2#16)).storeByte (phys s.cfg s.ss (sp - 2#16)) (loByte v)).mem =
        (s.storeByte (phys s.cfg s.ss (sp - 2#16)) (loByte v)).mem := State.storeByte_mem_congr (by rfl) (by rfl) _ _
    exact State.storeByte_mem_congr (by simp) h1 _ _
  rw [hm]
  rfl

/-- `pop()` off the ends of segment and memory, from declared memory (R14). -/
theorem State.runMicros_pop {s : State} (hf : s.BusFree) {s0 : State} (hss : s0.ss = s.ss)
    (hcfg : s0.cfg = s.cfg) (sp : Word) (he : wordAtEnd s.cfg s.ss sp = false)
    (hp : s.isAbsent (phys s.cfg s.ss sp) = false ∧ s.isAbsent (phys s.cfg s.ss sp + 1#20) = false)
    (ms : List Micro) :
    ∃ hist draws, s.Ran s.lockActive (under s.flags.ifl (s.popCycles sp)) hist ∧
      runMicros (s0.popOps sp ++ ms) s =
        runMicros ms { s with
          gen := { s.gen with sp := sp + 2#16 }
          latch := s.latch ++ [Memory.read s.mem (phys s.cfg s.ss sp).toNat,
            Memory.read s.mem (phys s.cfg s.ss sp + 1#20).toNat]
          history := hist, draws := draws } := by
  obtain ⟨hist, draws, hlog, h⟩ := State.runMicros_wordRead hf (phys s.cfg s.ss sp) 0#16 (some .ss) hp
    (.setSp (sp + 2#16) :: ms)
  refine ⟨hist, draws, hlog, ?_⟩
  simp only [State.popOps, State.stackWord, hss, hcfg, he, Bool.false_eq_true, if_false,
    List.append_assoc, List.cons_append, List.nil_append]
  rw [h]
  exact runMicros_cons_ok rfl

end Sys2Proof.Machine
end

