-- ==== Sys2Proof/Laws/Step.lean ====
section
/-! SUPPORT. What one step can be: a move of the processor, of the bus interface, or of the
environment; and what each of the last two leaves. -/

namespace Sys2Proof.Machine

open Sys2Proof

/-- A step that answers a next state is a move of one agent. -/
theorem step_cases {s t : State} (h : step s = .next t) :
    (∃ rest tn, turnOf { s with script := rest, turn := tn } = .next t ∧
      (s.script = [] ∧ rest = [] ∧ tn = .free ∨ s.script = .cpu tn :: rest)) ∨
    (∃ b rest, { s with script := rest }.busStep b = some (.next t) ∧
      (s.script = [] ∧ rest = [] ∨ s.script = .bus b :: rest)) ∨
    (∃ e rest, s.script = .env e :: rest ∧ { s with script := rest }.envAct e = .next t) := by
  unfold step at h
  split at h
  · rename_i hs
    have hss : { s with script := [] } = s := by rw [← hs]
    split at h
    · rename_i o ho
      subst h
      refine .inr (.inl ?_)
      unfold State.settle at ho
      split at ho
      · cases ho
      · split at ho
        · exact ⟨.codeFetch, [], by rw [hss]; exact ho, .inl ⟨hs, rfl⟩⟩
        · split at ho
          · exact ⟨.releaseHold, [], by rw [hss]; exact ho, .inl ⟨hs, rfl⟩⟩
          · split at ho
            · exact ⟨.grantHold, [], by rw [hss]; exact ho, .inl ⟨hs, rfl⟩⟩
            · split at ho
              · exact ⟨.grantLine .gt0, [], by rw [hss]; exact ho, .inl ⟨hs, rfl⟩⟩
              · split at ho
                · exact ⟨.grantLine .gt1, [], by rw [hss]; exact ho, .inl ⟨hs, rfl⟩⟩
                · cases ho
    · refine .inl ⟨[], .free, ?_, .inl ⟨hs, rfl, rfl⟩⟩
      rw [← hs]
      exact h
  · rename_i tn rest hs
    exact .inl ⟨rest, tn, h, .inr hs⟩
  · rename_i b rest hs
    refine .inr (.inl ⟨b, rest, ?_, .inr hs⟩)
    unfold State.busAct at h
    split at h
    · rename_i o ho
      rw [ho, h]
    · cases h
  · rename_i e rest hs
    exact .inr (.inr ⟨e, rest, hs, h⟩)

/-- What a step of the bus interface leaves: a code access run or held, or a new owner of the bus. -/
theorem busStep_cases {s t : State} {b : BusAct} (h : s.busStep b = some (.next t)) :
    ((s.fetching = true ∨ s.hasRoom = true) ∧ s.endFetch.Leaves t) ∨
    (s.canGrantHold = true ∧ t = { s with busOwner := .hold }) ∨
    (s.canReleaseHold = true ∧ t = { s with busOwner := .cpu }) ∨
    (∃ l, s.canGrantLine l = true ∧ t = s.grantLine l) := by
  unfold State.busStep at h
  split at h
  · cases h
  · split at h
    · refine .inl ?_
      unfold State.codeFetch at h
      split at h
      · rename_i hf
        refine ⟨?_, ?_⟩
        · rw [Bool.or_eq_true] at hf
          refine hf.imp id fun hp => ?_
          simp only [State.canPrefetch, Bool.and_eq_true] at hp
          exact hp.1.2
        · split at h <;> simp_all [MicroRes.Leaves]
      · cases h
    · split at h
      · rename_i hg; cases h; exact .inr (.inl ⟨hg, rfl⟩)
      · cases h
    · split at h
      · rename_i hg; cases h; exact .inr (.inr (.inl ⟨hg, rfl⟩))
      · cases h
    · split at h
      · rename_i l hg; cases h; exact .inr (.inr (.inr ⟨l, hg, rfl⟩))
      · cases h

/-- What a step of the environment leaves (R10 c to h). -/
theorem envAct_cases {s t : State} {e : EnvAct} (h : s.envAct e = .next t) :
    (∃ level, e = .pin .reset level ∧ t = s.resetPin level) ∨
    (∃ p level, e = .pin p level ∧ p ≠ .reset ∧ ∃ pins nmi, t = { s with pins := pins, nmiPending := nmi }) ∨
    (∃ b, e = .vector b ∧ t = { s with pins := { s.pins with vector := b } }) ∨
    (∃ l, e = .request l ∧ s.cfg.mode = .max ∧ s.busOwner ≠ l.master ∧ t = s.setReq l true) ∨
    (∃ l, e = .release l ∧ s.busOwner = l.master ∧ t = { s with busOwner := .cpu }) ∨
    (∃ k pa w d, e = .master k pa w d ∧ s.masterMay k pa w = true ∧
      (k = .memWrite ∧ s.inQueue (targets pa w) = false ∧
        t = (s.storeBytes pa w d).logMaster k pa w (s.masterData k pa w d) ∨
       k ≠ .memWrite ∧ t = s.logMaster k pa w (s.masterData k pa w d))) := by
  cases e with
  | pin p level =>
    cases p
    case reset => cases h; exact .inl ⟨level, rfl, rfl⟩
    case mnmx =>
      simp only [State.envAct, State.setPin] at h
      split at h
      · cases h; exact .inr (.inl ⟨_, level, rfl, by decide, _, s.nmiPending, rfl⟩)
      · cases h
    case hold =>
      simp only [State.envAct, State.setPin] at h
      split at h
      · cases h; exact .inr (.inl ⟨_, level, rfl, by decide, _, s.nmiPending, rfl⟩)
      · cases h
    all_goals
      cases h
      exact .inr (.inl ⟨_, level, rfl, by decide, _, _, rfl⟩)
  | vector b => cases h; exact .inr (.inr (.inl ⟨b, rfl, rfl⟩))
  | request l =>
    simp only [State.envAct, State.request] at h
    split at h
    · rename_i hc
      cases h; exact .inr (.inr (.inr (.inl ⟨l, rfl, hc.1, hc.2.1, rfl⟩)))
    · cases h
  | release l =>
    simp only [State.envAct, State.release] at h
    split at h
    · rename_i hc
      cases h; exact .inr (.inr (.inr (.inr (.inl ⟨l, rfl, hc, rfl⟩))))
    · cases h
  | master k pa w d =>
    simp only [State.envAct, State.masterCycle] at h
    refine .inr (.inr (.inr (.inr (.inr ⟨k, pa, w, d, rfl, ?_⟩))))
    split at h
    · rename_i hm
      refine ⟨hm, ?_⟩
      split at h
      · rename_i hk
        split at h
        · cases h
        · rename_i hq
          cases h; exact .inl ⟨hk, by simpa using hq, rfl⟩
      · rename_i hk
        cases h; exact .inr ⟨hk, rfl⟩
    · cases h

/-- Outside RESET, with no bus cycle in progress, the bus the processor's and no grant due, the bus interface
owes nothing. -/
theorem State.settle_none {s : State} (q2 : s.pins.reset = false) (q3 : s.busOwner = .cpu) (q4 : s.busy = none)
    (q7 : s.cfg.mode = .min → s.pins.hold = false)
    (q8 : s.cfg.mode = .max → s.req0 = false ∧ s.req1 = false) : s.settle = none := by
  unfold State.settle
  cases hm : s.cfg.mode <;>
    simp_all [State.fetching, State.canReleaseHold, State.canGrantHold, State.canGrantLine, State.req]

/-- With nothing else to move, the bus interface owes nothing. -/
theorem State.settle_of_quiet {s : State} (h : s.Quiet) : s.settle = none :=
  State.settle_none h.2.1 h.2.2.1 h.2.2.2.1 h.2.2.2.2.2.2.1 h.2.2.2.2.2.2.2

/-- A processor that nothing holds proceeds. -/
theorem State.prepare_of_free {s : State} (hr : s.pins.reset = false) (hb : s.busy = none) :
    s.prepare = s.proceed := by
  simp only [State.prepare, hr, State.afterWait, hb, Bool.false_eq_true, if_false]

/-- `READY = 0` holds a bus cycle in progress (R110). -/
theorem State.afterWait_of_held {s : State} (hb : s.busy ≠ none) (hr : s.pins.ready = false) :
    s.afterWait = none := by
  unfold State.afterWait
  split
  · exact absurd ‹_› hb
  · rw [hr]; rfl
  · rw [hr]; rfl

/-- With nothing else to move, a step is the processor's default turn (log 2). -/
theorem step_of_quiet {s : State} (h : s.Quiet) : step s = turnOf { s with turn := .free } := by
  simp only [step, h.1, State.settle_of_quiet h]

/-- With something left to run and nothing in its way, the default turn goes on with it. -/
theorem step_of_pending {s : State} (hs : s.script = []) (hd : s.settle = none) (hr : s.pins.reset = false)
    (hb : s.busy = none) (hm : s.micro ≠ []) : step s = ({ s with turn := .free } : State).resume := by
  have hp : ({ s with turn := .free } : State).prepare = .done ({ s with turn := .free } : State).resume := by
    rw [State.prepare_of_free (s := { s with turn := .free }) hr hb, State.proceed]
    split
    · rfl
    · exact absurd ‹_› hm
  simp only [step, hs, hd, turnOf]
  rw [show ({ s with turn := .free, script := [] } : State) = { s with turn := .free } by rw [← hs], hp]

/-- About to take an instruction's first byte, the default turn takes its bytes and runs it (R67, R69). -/
theorem step_of_atFetch {s : State} (h : s.AtFetch) :
    step s = match fetchInstr maxInstrBytes { s with turn := .free } with
      | .run i s' => exec i s'
      | .done o => o := by
  obtain ⟨hq, hh, hw, -, hb⟩ := h
  have hp : ({ s with turn := .free } : State).proceed = fetchInstr maxInstrBytes { s with turn := .free } := by
    unfold State.proceed
    split
    · rename_i hm
      rw [show ({ s with turn := .free } : State).micro = [] from hq.2.2.2.2.2.1] at hm
      cases hm
    · rw [show ({ s with turn := .free } : State).halted = false from hh,
        show ({ s with turn := .free } : State).waiting = false from hw,
        show ({ s with turn := .free } : State).boundary = none from hb]
      rfl
  have hpp := (State.prepare_of_free (s := { s with turn := .free }) hq.2.1 hq.2.2.2.1).trans hp
  cases hf : fetchInstr maxInstrBytes { s with turn := .free } <;>
    simp only [step_of_quiet hq, turnOf, hpp, hf]

end Sys2Proof.Machine
end

