-- ==== Sys2Proof/Laws/Entry.lean ====
section
/-! SUPPORT. Taking an interrupt (60_exceptions.md R147): whatever order the turn gives its five accesses, an
entry whose premises hold runs to its end (`State.runMicros_entry`), and what it leaves
(`State.InEntry.done`, `State.start_entry`); the acknowledge before it (R140, `State.acknowledge_spec`); and
that whatever begins an entry runs the parts of `State.interruptEntry` (`EntryBegins.runs`). -/

namespace Sys2Proof.Machine
open Sys2Proof

/-- After the first write of an entry (R147). -/
def State.pushedFlags (s : State) : State :=
  s.storeBytes (phys s.cfg s.ss (s.gen.sp - 2#16)) 16 (s.flags.image s.cfg.flagsFixed)

/-- After the second. -/
def State.pushedCs (s : State) : State :=
  s.pushedFlags.storeBytes (phys s.cfg s.ss (s.gen.sp - 4#16)) 16 s.cs

/-- Memory, and nothing else, after `k` of the three pushes of an entry from `s` that saves `ip`. -/
def State.pushed (s : State) (ip : Word) : Nat → State
  | 0 => s
  | 1 => s.pushedFlags
  | 2 => s.pushedCs
  | _ + 3 => s.pushedCs.storeBytes (phys s.cfg s.ss (s.gen.sp - 6#16)) 16 ip

/-- The pushes do not touch the platform. -/
theorem State.pushed_absent (s : State) (ip : Word) (k : Nat) : (s.pushed ip k).absent = s.absent := by
  match k with
  | 0 => rfl
  | 1 => simp [State.pushed, State.pushedFlags]
  | 2 => simp [State.pushed, State.pushedFlags, State.pushedCs]
  | _ + 3 => simp [State.pushed, State.pushedFlags, State.pushedCs]

/-- The flags of an entry from `s` after `k` of its three pushes: `IF` and `TF` go with the first. -/
def State.entryFlags (s : State) : Nat → Flags
  | 0 => s.flags
  | _ + 1 => { s.flags with ifl := false, tf := false }

/-- The state of an entry from `s` after `k` of its three pushes and with `l` read, when the cycles `cs` have been
run. -/
def State.InEntry (s : State) (ip : Word) (k : Nat) (l : List Byte) (cs : List (Bool × Cycle)) (t : State) :
    Prop :=
  s.Ran s.lockActive cs t.history ∧ ∃ hist draws, t = { s with
    gen := { s.gen with sp := s.gen.sp - BitVec.ofNat 16 (2 * k) }
    flags := s.entryFlags k
    mem := (s.pushed ip k).mem, latch := l, history := hist, draws := draws }

/-- A push of an entry, whatever it stores. -/
theorem State.InEntry.push {s t : State} {ip sp v : Word} {k : Nat} {l : List Byte} {cs : List (Bool × Cycle)}
    (hf : s.BusFree) (ht : s.InEntry ip k l cs t) (he : wordAtEnd s.cfg s.ss (sp - 2#16) = false)
    (hq : s.inQueue [phys s.cfg s.ss (sp - 2#16), phys s.cfg s.ss (sp - 2#16) + 1#20] = false) :
    ∃ hist draws, s.Ran s.lockActive (cs ++ under (s.entryFlags k).ifl (s.pushCycles (sp - 2#16) v)) hist ∧
      runMicros (s.pushOps sp v) t = .ok { s with
        gen := { s.gen with sp := sp - 2#16 }, flags := s.entryFlags k
        mem := ((s.pushed ip k).storeBytes (phys s.cfg s.ss (sp - 2#16)) 16 v).mem
        latch := l, history := hist, draws := draws } := by
  obtain ⟨hran, hist, draws, rfl⟩ := ht
  obtain ⟨h', d', hl, e⟩ := State.runMicros_push (s := { s with
    gen := { s.gen with sp := s.gen.sp - BitVec.ofNat 16 (2 * k) }
    flags := s.entryFlags k
    mem := (s.pushed ip k).mem, latch := l, history := hist, draws := draws }) hf (s0 := s) rfl rfl sp v he hq []
  rw [List.append_nil] at e
  refine ⟨h', d', hran.trans rfl (fun c hc => .inl (wordCycles_kind hc)) hl, e.trans ?_⟩
  have hm := State.storeBytes_mem_congr (s := s.pushed ip k) (t := { s with
    gen := { s.gen with sp := s.gen.sp - BitVec.ofNat 16 (2 * k) }
    flags := s.entryFlags k
    mem := (s.pushed ip k).mem, latch := l, history := hist, draws := draws })
    (by rw [s.pushed_absent]) rfl (phys s.cfg s.ss (sp - 2#16)) 16 v
  rw [← hm]
  rfl

/-- The first write of an entry, with the flags it clears. -/
theorem State.InEntry.push0 {s t : State} {ip : Word} {n : Nat} {l : List Byte} {cs : List (Bool × Cycle)}
    (hr : s.EntryRuns n) (ht : s.InEntry ip 0 l cs t) :
    ∃ t', runMicros (s.pushOps s.gen.sp (s.flags.image s.cfg.flagsFixed) ++ [.clearIfTf]) t = .ok t' ∧
      s.InEntry ip 1 l (cs ++ under s.flags.ifl
        (s.pushCycles (s.gen.sp - 2#16) (s.flags.image s.cfg.flagsFixed))) t' := by
  obtain ⟨hf, -, -, h1, h2, h3, hq, -⟩ := hr
  obtain ⟨h', d', hh, e⟩ := ht.push (v := s.flags.image s.cfg.flagsFixed) hf h1
    (State.inQueue_of_mem (s := s) hq (by simp [State.entryStack]))
  exact ⟨_, (runMicros_append_ok e).trans rfl, hh, h', d', rfl⟩

/-- The second write of an entry. -/
theorem State.InEntry.push1 {s t : State} {ip : Word} {n : Nat} {l : List Byte} {cs : List (Bool × Cycle)}
    (hr : s.EntryRuns n) (ht : s.InEntry ip 1 l cs t) :
    ∃ t', runMicros (s.pushOps (s.gen.sp - 2#16) s.cs) t = .ok t' ∧
      s.InEntry ip 2 l (cs ++ under false (s.pushCycles (s.gen.sp - 4#16) s.cs)) t' := by
  obtain ⟨hf, -, -, h1, h2, h3, hq, -⟩ := hr
  have e4 : s.gen.sp - 2#16 - 2#16 = s.gen.sp - 4#16 := by bv_omega
  obtain ⟨h', d', hh, e⟩ := ht.push (sp := s.gen.sp - 2#16) (v := s.cs) hf (by rwa [e4])
    (State.inQueue_of_mem (s := s) hq (by simp [State.entryStack, e4]))
  rw [e4] at e hh
  exact ⟨_, e, hh, h', d', rfl⟩

/-- The third write of an entry. -/
theorem State.InEntry.push2 {s t : State} {ip : Word} {n : Nat} {l : List Byte} {cs : List (Bool × Cycle)}
    (hr : s.EntryRuns n) (ht : s.InEntry ip 2 l cs t) :
    ∃ t', runMicros (s.pushOps (s.gen.sp - 4#16) ip) t = .ok t' ∧
      s.InEntry ip 3 l (cs ++ under false (s.pushCycles (s.gen.sp - 6#16) ip)) t' := by
  obtain ⟨hf, -, -, h1, h2, h3, hq, -⟩ := hr
  have e6 : s.gen.sp - 4#16 - 2#16 = s.gen.sp - 6#16 := by bv_omega
  obtain ⟨h', d', hh, e⟩ := ht.push (sp := s.gen.sp - 4#16) (v := ip) hf (by rwa [e6])
    (State.inQueue_of_mem (s := s) hq (by simp [State.entryStack, e6]))
  rw [e6] at e hh
  exact ⟨_, e, hh, h', d', rfl⟩

/-- Off the stack bytes the pushes change nothing. -/
theorem State.pushed_read {s : State} {ip : Word} {k : Nat} {a : Addr} (ha : a ∉ s.entryStack s.gen.sp) :
    Memory.read (s.pushed ip k).mem a.toNat = Memory.read s.mem a.toNat := by
  simp only [State.entryStack, List.mem_cons, List.not_mem_nil, or_false, not_or] at ha
  have ne : ∀ {b : Addr}, a ≠ b → a.toNat ≠ b.toNat := fun h e => h (BitVec.eq_of_toNat_eq e)
  have h1 : Memory.read (s.pushed ip 1).mem a.toNat = Memory.read s.mem a.toNat :=
    State.storeBytes_read_other _ (by simp [targets, -BitVec.toNat_add]; exact ⟨ne ha.1, ne ha.2.1⟩)
  have h2 : Memory.read (s.pushed ip 2).mem a.toNat = Memory.read s.mem a.toNat :=
    (State.storeBytes_read_other _ (by simp [targets, -BitVec.toNat_add]; exact ⟨ne ha.2.2.1, ne ha.2.2.2.1⟩)).trans h1
  match k with
  | 0 => rfl
  | 1 => exact h1
  | 2 => exact h2
  | k + 3 =>
    exact (State.storeBytes_read_other _ (by simp [targets, -BitVec.toNat_add]; exact ⟨ne ha.2.2.2.2.1, ne ha.2.2.2.2.2⟩)).trans h2

/-- A vector read of an entry. -/
theorem State.InEntry.read {s t : State} {ip : Word} {k : Nat} {l : List Byte} {cs : List (Bool × Cycle)}
    (hf : s.BusFree) (ht : s.InEntry ip k l cs t) {pa : Addr} (h0 : pa ∉ s.entryStack s.gen.sp)
    (h1 : pa + 1#20 ∉ s.entryStack s.gen.sp) (hp : s.isAbsent pa = false ∧ s.isAbsent (pa + 1#20) = false) :
    ∃ t', runMicros (s.vectorRead pa) t = .ok t' ∧
      s.InEntry ip k (l ++ [Memory.read s.mem pa.toNat, Memory.read s.mem (pa + 1#20).toNat])
        (cs ++ under (s.flags.ifl && decide (k = 0)) (s.vectorCycles pa)) t' := by
  obtain ⟨hran, hist, draws, rfl⟩ := ht
  obtain ⟨h', d', hl, e⟩ := State.runMicros_wordRead (s := { s with
    gen := { s.gen with sp := s.gen.sp - BitVec.ofNat 16 (2 * k) }
    flags := s.entryFlags k
    mem := (s.pushed ip k).mem, latch := l, history := hist, draws := draws }) hf pa 0#16 none hp []
  rw [List.append_nil] at e
  have hi : (s.entryFlags k).ifl = (s.flags.ifl && decide (k = 0)) := by
    cases k <;> simp [State.entryFlags]
  refine ⟨_, e.trans rfl, hi ▸ hran.trans rfl (State.wordCycles_readBytes hp rfl (State.pushed_read h0)
    (State.pushed_read h1)) hl, h', d', ?_⟩
  simp only [State.pushed_read h0, State.pushed_read h1]

/-- The bytes of a vector as an entry's latch holds them. -/
def State.vectorLatch (s : State) (n : Nat) : List Byte :=
  [Memory.read s.mem (vectorAddr n).toNat, Memory.read s.mem (vectorAddr n + 1#20).toNat,
    Memory.read s.mem (vectorAddr n + 2#20).toNat, Memory.read s.mem (vectorAddr n + 3#20).toNat]

/-- The address part of an entry's premises: its vector bytes are no stack bytes. -/
theorem State.vector_off_stack {s : State} {n : Nat} (h : s.overVector n = false) {a : Addr}
    (ha : a ∈ vectorBytes n) : a ∉ s.entryStack s.gen.sp := by
  intro hs
  simp only [State.overVector, List.any_eq_false] at h
  exact h a hs (by simpa using ha)

/-- The five accesses of an entry, whatever order the turn gives (R147, U19): the pushes are done, the latch
holds the vector, and else only the history and the draws have moved. -/
theorem State.runMicros_entry {s : State} {n : Nat} {ip : Word} (hr : s.EntryRuns n)
    (hl : s.latch = []) (ms : List Micro) :
    ∃ t, s.InEntry ip 3 (s.vectorLatch n) (s.entryCycles n ip) t ∧
      runMicros (s.interruptEntry n ip ++ ms) s = runMicros ms t.enterHandler := by
  have hv := fun a (ha : a ∈ vectorBytes n) => State.vector_off_stack hr.2.2.1 ha
  have hp : ∀ a ∈ vectorBytes n, s.isAbsent a = false :=
    fun a ha => hr.2.2.2.2.2.2.2.1 a (List.mem_append_right _ ha)
  simp only [vectorBytes, List.mem_cons, List.not_mem_nil, or_false, forall_eq_or_imp, forall_eq] at hv hp
  have e3 : vectorAddr n + 2#20 + 1#20 = vectorAddr n + 3#20 := by bv_omega
  have hstart : s.InEntry ip 0 [] [] s :=
    ⟨s.ran_nil _, s.history, s.draws, by simp [State.entryFlags, State.pushed, ← hl]⟩
  have r0 : ∀ k cs t, s.InEntry ip k [] cs t → ∃ t', runMicros (s.vectorRead (vectorAddr n)) t = .ok t' ∧
      s.InEntry ip k ((s.vectorLatch n).take 2)
        (cs ++ under (s.flags.ifl && decide (k = 0)) (s.vectorCycles (vectorAddr n))) t' :=
    fun k cs t ht => ht.read hr.1 hv.1 hv.2.1 ⟨hp.1, hp.2.1⟩
  have r1 : ∀ k cs t, s.InEntry ip k ((s.vectorLatch n).take 2) cs t →
      ∃ t', runMicros (s.vectorRead (vectorAddr n + 2#20)) t = .ok t' ∧ s.InEntry ip k (s.vectorLatch n)
        (cs ++ under (s.flags.ifl && decide (k = 0)) (s.vectorCycles (vectorAddr n + 2#20))) t' := by
    intro k cs t ht
    have := ht.read hr.1 hv.2.2.1 (by rw [e3]; exact hv.2.2.2) ⟨hp.2.2.1, by rw [e3]; exact hp.2.2.2⟩
    rwa [e3] at this
  have w0 := fun l cs t (ht : s.InEntry ip 0 l cs t) => ht.push0 hr
  have w1 := fun l cs t (ht : s.InEntry ip 1 l cs t) => ht.push1 hr
  have w2 := fun l cs t (ht : s.InEntry ip 2 l cs t) => ht.push2 hr
  have key : ∃ t, runMicros (mergeEntry s.turn.order
      [s.pushOps s.gen.sp (s.flags.image s.cfg.flagsFixed) ++ [.clearIfTf],
        s.pushOps (s.gen.sp - 2#16) s.cs, s.pushOps (s.gen.sp - 4#16) ip]
      (s.vectorRead (vectorAddr n)) (s.vectorRead (vectorAddr n + 2#20))) s = .ok t ∧
      s.InEntry ip 3 (s.vectorLatch n) (s.entryCycles n ip) t := by
    generalize s.pushOps s.gen.sp (s.flags.image s.cfg.flagsFixed) ++ [.clearIfTf] = W0 at *
    generalize s.pushOps (s.gen.sp - 2#16) s.cs = W1 at *
    generalize s.pushOps (s.gen.sp - 4#16) ip = W2 at *
    generalize s.vectorRead (vectorAddr n) = R0 at *
    generalize s.vectorRead (vectorAddr n + 2#20) = R1 at *
    simp only [State.entryCycles]
    have seq : ∀ (a b : List Micro) (u : State) (P Q : State → Prop), (∃ t, runMicros a u = .ok t ∧ P t) →
      (∀ t, P t → ∃ t', runMicros b t = .ok t' ∧ Q t') → ∃ t', runMicros (a ++ b) u = .ok t' ∧ Q t' := by
      rintro a b u P Q ⟨t, h1, h2⟩ h3
      obtain ⟨t', h4, h5⟩ := h3 t h2
      exact ⟨t', (runMicros_append_ok h1).trans h4, h5⟩
    obtain ⟨f, g⟩ := s.turn.order
    rcases f with _ | _ | _ | f <;> rcases g with _ | _ | _ | g <;>
      simp only [mergeEntry, List.take_zero, List.take_succ_cons, List.take_nil, List.drop_zero,
        List.drop_succ_cons, List.drop_nil, List.flatten_cons, List.flatten_nil, List.nil_append,
        List.append_nil, List.append_assoc, Nat.zero_add, Nat.max_zero, Nat.zero_max, Nat.max_self,
        Nat.add_max_add_right, Nat.max_eq_left, Nat.max_eq_right, Nat.le_add_left]
    all_goals
      have hu := hstart
      repeat
        first
        | exact (w2 _ _ _ hu).imp fun _ h => ⟨h.1, by simpa using h.2⟩
        | exact (r1 _ _ _ hu).imp fun _ h => ⟨h.1, by simpa using h.2⟩
        | refine seq _ _ _ _ _ (w0 _ _ _ hu) fun u hu => ?_
        | refine seq _ _ _ _ _ (w1 _ _ _ hu) fun u hu => ?_
        | refine seq _ _ _ _ _ (w2 _ _ _ hu) fun u hu => ?_
        | refine seq _ _ _ _ _ (r0 _ _ _ hu) fun u hu => ?_
        | refine seq _ _ _ _ _ (r1 _ _ _ hu) fun u hu => ?_
  obtain ⟨t, ht, hin⟩ := key
  refine ⟨t, hin, ?_⟩
  simp only [State.interruptEntry, hr.2.2.1, Bool.false_eq_true, if_false, List.append_assoc]
  rw [runMicros_append_ok ht]
  rfl

/-- What an entry leaves, once its five accesses are done (R147). -/
theorem State.InEntry.done {s t : State} {n : Nat} {ip : Word} (hr : s.EntryRuns n)
    (hw : Memory.wf s.mem = true) (ht : s.InEntry ip 3 (s.vectorLatch n) (s.entryCycles n ip) t) :
    s.EntryDone n ip t.enterHandler ∧ s.EntryRecords n ip s.lockActive t.enterHandler := by
  obtain ⟨hran, hist, draws, rfl⟩ := ht
  refine ⟨?_, by simpa [State.EntryRecords] using hran⟩
  obtain ⟨hf, -, -, h1, h2, h3, hq, hp, hnd⟩ := hr
  simp only [State.entryStack, vectorBytes, List.cons_append, List.nil_append, List.mem_cons,
    List.not_mem_nil, or_false, forall_eq_or_imp, forall_eq] at hp
  obtain ⟨p1, p2, p3, p4, p5, p6, -⟩ := hp
  have e3 : vectorAddr n + 2#20 + 1#20 = vectorAddr n + 3#20 := by bv_omega
  simp only [State.entryStack, List.nodup_cons, List.mem_cons, List.not_mem_nil, or_false, not_or] at hnd
  obtain ⟨⟨-, a3, a4, a5, a6⟩, ⟨b3, b4, b5, b6⟩, ⟨-, c5, c6⟩, ⟨d5, d6⟩, -⟩ := hnd
  have hm : ∀ t : State, t.mem = (s.pushed ip 3).mem → ∀ pa, t.wordAt pa = (s.pushed ip 3).wordAt pa :=
    fun t h pa => State.wordAt_congr h pa
  have hw1 : Memory.wf s.pushedFlags.mem = true := State.storeBytes_wf _ _ _ hw
  have hw2 : Memory.wf s.pushedCs.mem = true := State.storeBytes_wf _ _ _ hw1
  refine ⟨by simp [State.enterHandler], by simp [State.enterHandler, State.entryFlags], ?_, ?_, ?_, ?_, ?_, ?_,
    by simp, by simp [State.enterHandler, State.flushQueue], by simp, by simp, ?_, ?_⟩
  · simp [State.enterHandler, State.vectorLatch, State.wordAt]
  · simp [State.enterHandler, State.vectorLatch, State.wordAt, e3]
  · rw [hm _ (by simp)]
    simp only [State.pushed]
    rw [State.wordAt_storeBytes_other _ (by simp [a5, a6, b5, b6]), State.pushedCs,
      State.wordAt_storeBytes_other _ (by simp [a3, a4, b3, b4]), State.pushedFlags,
      State.wordAt_storeBytes _ hw p1 p2]
  · rw [hm _ (by simp)]
    simp only [State.pushed]
    rw [State.wordAt_storeBytes_other _ (by simp [c5, c6, d5, d6]), State.pushedCs,
      State.wordAt_storeBytes _ hw1]
    · rw [State.isAbsent_congr (s := s) (by simp [State.pushedFlags])]; exact p3
    · rw [State.isAbsent_congr (s := s) (by simp [State.pushedFlags])]; exact p4
  · rw [hm _ (by simp)]
    simp only [State.pushed]
    rw [State.wordAt_storeBytes _ hw2]
    · rw [State.isAbsent_congr (s := s) (by simp [State.pushedFlags, State.pushedCs])]; exact p5
    · rw [State.isAbsent_congr (s := s) (by simp [State.pushedFlags, State.pushedCs])]; exact p6
  · intro a ha
    simp only [State.enterHandler_mem]
    exact State.pushed_read ha
  · simp [State.SameFixed]
  · rw [State.enterHandler, State.flushQueue_qsHistory]
    rfl

/-- An interrupt started in a state that meets the premises leaves what `EntryDone` says, after the one part `m`
that follows it (R147). -/
theorem State.start_entry {s : State} {n : Nat} {ip : Word} (hr : s.EntryRuns n)
    (hw : Memory.wf s.mem = true) {m : Micro} {u : State → State} (hm : ∀ s : State, s.doMicro m = .ok (u s)) :
    ∃ t : State, s.start (s.interruptEntry n ip ++ [m]) = .next (u t) ∧ s.EntryDone n ip t ∧
      s.EntryRecords n ip s.lockActive t ∧ t.nmiPending = s.nmiPending ∧ t.lockActive = s.lockActive := by
  have hr' : ({ s with latch := [] } : State).EntryRuns n := hr
  obtain ⟨t, ht, he⟩ := State.runMicros_entry (ip := ip) hr' rfl [m]
  obtain ⟨hd, hrec⟩ := ht.done hr' hw
  refine ⟨t.enterHandler, ?_, hd, State.Ran.congr hrec rfl rfl rfl rfl rfl, ?_, ?_⟩
  · have e : s.interruptEntry n ip = ({ s with latch := [] } : State).interruptEntry n ip := rfl
    rw [State.start, e, he, runMicros_cons_ok (hm _)]
    rfl
  · obtain ⟨-, _, _, rfl⟩ := ht
    simp
  · obtain ⟨-, _, _, rfl⟩ := ht
    simp

/-- With the bus free, acknowledge cycles that read nothing add their records and else move the draws alone
(R140). -/
theorem State.runMicros_acks {s : State} (hf : s.BusFree) (k : Nat) (ms : List Micro) :
    ∃ recs draws, recs.length = k ∧
      (∀ r ∈ recs, r.kind = .intAck ∧ r.master = .cpu ∧ r.ifl = s.flags.ifl ∧ r.locked = s.lockActive) ∧
      runMicros (List.replicate k (.cycle ⟨.intAck, 0#20, 0, 0#16, none⟩) ++ ms) s =
        runMicros ms { s with history := s.history ++ recs, draws := draws } := by
  induction k generalizing s with
  | zero => exact ⟨[], s.draws, rfl, by simp, by simp⟩
  | succ k ih =>
    have h1 : s.doMicro (.cycle ⟨.intAck, 0#20, 0, 0#16, none⟩) =
        .ok (s.logCycle ⟨.intAck, 0#20, 0, 0#16, none⟩ none) := by
      simp [State.doMicro, State.runCycle_of_busFree hf, State.completeData]
    obtain ⟨r, hr, k1, k2, -, -, k5, k6⟩ := s.logCycle_history ⟨.intAck, 0#20, 0, 0#16, none⟩ none
    obtain ⟨recs, d, e1, e2, e3⟩ := ih (s := s.logCycle ⟨.intAck, 0#20, 0, 0#16, none⟩ none)
      (by simpa [State.BusFree] using hf)
    refine ⟨r :: recs, d, by simp [e1], ?_, ?_⟩
    · simp only [List.mem_cons, forall_eq_or_imp]
      exact ⟨⟨k1, k2, k5, k6⟩, e2⟩
    · rw [List.replicate_succ, List.cons_append, runMicros_cons_ok h1, e3, hr, List.append_assoc]
      rfl

/-- With the bus free, an acknowledge that the controller answers with `b` leaves what `Acknowledged` says
(R140). -/
theorem State.acknowledge_spec {s : State} {b : Byte} (ip : Word) (hf : s.BusFree)
    (hv : s.pins.vector = some b) (hc : s.cfg.wf = true) :
    ∃ t, s.acknowledge ip = .next t ∧ s.Acknowledged b ip t := by
  have hf0 : ({ s with latch := [] } : State).BusFree := hf
  obtain ⟨recs, d, e1, e2, e3⟩ := State.runMicros_acks hf0 (s.cfg.intaCycles - 1)
    [.cycle ⟨.intAck, 0#20, 8, 0#16, none⟩, .enterType ip]
  generalize hs1 : ({ s with latch := [], history := _, draws := d } : State) = s1 at e3
  have hf1 : s1.BusFree := by rw [← hs1]; exact hf
  have hd : s1.doMicro (.cycle ⟨.intAck, 0#20, 8, 0#16, none⟩) =
      .ok ({ s1 with latch := [b] }.logCycle ⟨.intAck, 0#20, 8, 0#16, none⟩ (some (b.setWidth 16))) := by
    simp only [State.doMicro, State.runCycle_of_busFree hf1, State.completeData, if_true]
    rw [show s1.pins.vector = some b by rw [← hs1]; exact hv, show s1.latch = [] by rw [← hs1]]
    rfl
  obtain ⟨r, hr, k1, k2, -, -, k5, k6⟩ := State.logCycle_history { s1 with latch := [b] }
    ⟨.intAck, 0#20, 8, 0#16, none⟩ (some (b.setWidth 16))
  have h1 : 1 ≤ s.cfg.intaCycles := by
    simp only [Params.wf, Bool.and_eq_true, decide_eq_true_eq] at hc
    omega
  refine ⟨({ s1 with latch := [b] }.logCycle ⟨.intAck, 0#20, 8, 0#16, none⟩
    (some (b.setWidth 16))).enterType ip, ?_, recs ++ [r], ?_, ?_, ?_, ?_⟩
  · rw [State.acknowledge, State.start, ackCycles, List.append_assoc, List.cons_append, List.nil_append, e3,
      runMicros_cons_ok hd]
    rfl
  · rw [State.enterType_history, hr, ← hs1, List.append_assoc]
  · rw [List.length_append, e1, List.length_singleton]
    omega
  · intro x hx
    rcases List.mem_append.1 hx with h | h
    · exact e2 x h
    · rw [List.mem_singleton] at h
      subst h hs1
      exact ⟨k1, k2, k5, k6⟩
  · subst hs1
    rfl

/-- The state `u` from which the parts of an entry of `s` are run: the stack, the queue and the bus are those of
`s`. -/
structure State.EntryFrom (s u : State) : Prop where
  ss : u.ss = s.ss
  cfg : u.cfg = s.cfg
  gen : u.gen = s.gen
  queue : u.queue = s.queue
  free : s.BusFree → u.BusFree
  entry : ∀ n ip, u.interruptEntry n ip = s.interruptEntry n ip

/-- A request taken runs the parts of an entry (R138, R147). -/
theorem State.EntryFrom.takeInterrupt {s u : State} (h : s.EntryFrom u) (n : Nat) (ip : Word) :
    ∃ v, s.EntryFrom v ∧
      u.takeInterrupt n ip = (runMicros (s.interruptEntry n ip ++ [.endEntry]) v).toOutcome := by
  refine ⟨{ (if n = 2 then { u with nmiPending := false } else u : State) with latch := [] }, ?_, ?_⟩
  · split <;> exact ⟨h.1, h.2, h.3, h.4, h.5, h.6⟩
  · unfold State.takeInterrupt State.start
    rw [← h.entry]
    split <;> rfl

/-- Whatever begins an entry of type `n` in `s` runs the parts of `State.interruptEntry` (R147). -/
theorem EntryBegins.runs {n : Nat} {s : State} {o : Host.Outcome State Fault Refusal} (h : EntryBegins n s o) :
    ∃ u ip ms, s.EntryFrom u ∧ o = (runMicros (s.interruptEntry n ip ++ ms) u).toOutcome := by
  have taken : ∀ (u : State) (ip : Word), s.EntryFrom u → ∃ v saved ms, s.EntryFrom v ∧
      u.takeInterrupt n ip = (runMicros (s.interruptEntry n saved ++ ms) v).toOutcome :=
    fun u ip hu => (hu.takeInterrupt n ip).imp fun _ hv => ⟨ip, _, hv⟩
  rcases h with ⟨i, hi, rfl⟩ | ⟨ip, rfl⟩ | ⟨ip, hm, rfl⟩ | ⟨u, rfl, rfl, h⟩
  · refine ⟨{ s with latch := [] }, s.ip, [.endInstr s.flags.tf], ⟨rfl, rfl, rfl, rfl, id, fun _ _ => rfl⟩, ?_⟩
    rcases hi with rfl | ⟨rfl, rfl⟩ | ⟨rfl, rfl, ho⟩
    · rfl
    · rfl
    · simp only [exec, execInto, ho, if_true]
      rfl
  · exact taken s ip ⟨rfl, rfl, rfl, rfl, id, fun _ _ => rfl⟩
  · exact ⟨{ s with micro := [] }, ip, [.endEntry], ⟨rfl, rfl, rfl, rfl, id, fun _ _ => rfl⟩,
      by rw [State.resume, hm]⟩
  · rcases h with ⟨⟨hq, h1, h2, -, h4⟩, hn, rfl⟩ | ⟨⟨hq, h1, h2, -, h4⟩, hn, hd, rfl⟩ | ⟨hq, h1, hn, rfl⟩ |
      ⟨hq, h1, h2, ht, hn, rfl⟩ | ⟨hq, ip, hm⟩
    all_goals obtain ⟨q1, q2, q3, q4, -, q6, q7, q8⟩ := id hq
    · rw [show step u = ({ u with turn := .free, boundary := none } : State).takeInterrupt 2 u.ip by
        rw [step_of_quiet hq]
        simp [turnOf, State.prepare, State.afterWait, State.proceed, q2, q4, q6, h1, h2, h4, State.examine, hn]]
      exact taken _ _ ⟨rfl, rfl, rfl, rfl, id, fun _ _ => rfl⟩
    · rw [show step u = ({ u with turn := .free, boundary := none } : State).takeInterrupt 1 u.ip by
        rw [step_of_quiet hq]
        simp only [State.dueIntr] at hd
        simp [turnOf, State.prepare, State.afterWait, State.proceed, q2, q4, q6, h1, h2, h4, State.examine, hn,
          State.takesIntr, State.dueIntr, hd]]
      exact taken _ _ ⟨rfl, rfl, rfl, rfl, id, fun _ _ => rfl⟩
    · rw [show step u = ({ u with turn := .free, halted := false } : State).takeInterrupt 2 u.ip by
        rw [step_of_quiet hq]
        simp [turnOf, State.prepare, State.afterWait, State.proceed, q2, q4, q6, h1, State.idleTurn,
          State.leaveIdle, State.releases, hn]]
      exact taken _ _ ⟨rfl, rfl, rfl, rfl, id, fun _ _ => rfl⟩
    · rw [show step u = ({ u with turn := .free, lockActive := false } : State).takeInterrupt 2 u.insnStart by
        rw [step_of_quiet hq]
        simp [turnOf, State.prepare, State.afterWait, State.proceed, q2, q4, q6, h1, h2, State.idleTurn,
          State.leaveIdle, State.releases, hn, ht]]
      exact taken _ _ ⟨rfl, rfl, rfl, rfl, id, fun _ _ => rfl⟩
    · refine ⟨{ u with turn := .free, micro := [] }, ip, [.endEntry],
        ⟨rfl, rfl, rfl, rfl, id, fun _ _ => rfl⟩, ?_⟩
      rw [step_of_pending (s := u) q1 (State.settle_none q2 q3 q4 q7 q8) q2 q4 (by rw [hm]; simp), State.resume]
      exact congrArg (fun ms => (runMicros ms { u with turn := .free, micro := [] }).toOutcome) hm

end Sys2Proof.Machine
end

