-- ==== Sys2Proof/Laws/Fetch.lean ====
section
/-! SUPPORT. The one lemma about taking a byte from the queue (10_state.md R19, R28; 30_encoding.md R67),
and that the machine after RESET has its memory in canonical form. -/

namespace Sys2Proof.Machine

open Sys2Proof

/-- What handing a byte to the decoder changes. -/
theorem State.takeByte_eq (s : State) (b : Byte) (rest : List Host.Cell) :
    s.takeByte b rest = { s with
      queue := rest, ip := s.ip + 1#16, opbuf := s.opbuf ++ [b]
      qsHistory := s.qsHistory ++ s.qsReports [if s.opbuf = [] then .first else .next]
      insnStart := if s.opbuf = [] ∧ s.lockActive = false then s.ip else s.insnStart } := by
  rw [State.takeByte, State.reportQueue_eq]
  rfl

/-- A code access fetches a word or a byte (R56). -/
theorem State.codeCycle_width (s : State) : s.codeCycle.width = 16 ∨ s.codeCycle.width = 8 := by
  simp only [State.codeCycle]
  split
  · exact .inl rfl
  · exact .inr rfl

/-- With the bus free and the invariant, the next byte is the one memory holds at `CS:IP`, out of the queue
or by a code access at its address, and is reported once; else only the queue, the history and the draws
move. -/
theorem State.takeNext_spec {s : State} (hb : s.BusFree) (hi : s.Inv) (hc : s.cfg.wf = true)
    (ha : s.isAbsent (phys s.cfg s.cs s.ip) = false) :
    ∃ q hist draws off, s.takeNext = .ok { s with
        queue := q, fetchOff := off, history := hist, draws := draws, ip := s.ip + 1#16
        qsHistory := s.qsHistory ++ s.qsReports [if s.opbuf = [] then .first else .next]
        opbuf := s.opbuf ++ [Memory.read s.mem (phys s.cfg s.cs s.ip).toNat]
        insnStart := if s.opbuf = [] ∧ s.lockActive = false then s.ip else s.insnStart } ∧
      ∃ recs, hist = s.history ++ recs ∧ s.queue.length + (recs.map fun r => r.width / 8).sum = q.length + 1 ∧
        ∀ r ∈ recs, r.kind = .codeAccess ∧ r.master = .cpu ∧ r.pa = phys s.cfg s.cs s.ip ∧
        r.seg = Seg.cs.code ∧ r.ifl = s.flags.ifl ∧ r.locked = s.lockActive := by
  obtain ⟨o1, o2, o3, o4⟩ := hb
  obtain ⟨-, i2, i3, -, -, -⟩ := hi
  cases hq : s.queue with
  | cons c q =>
    obtain ⟨a, b⟩ := c
    rw [hq] at i2
    obtain ⟨e1, e2, -⟩ := i2
    have e := s.takeByte_eq b q
    refine ⟨q, s.history, s.draws, s.fetchOff, ?_, [], by simp, by simp, by simp⟩
    simp only [State.takeNext, State.fillQueue, hq]
    rw [e, ← e2 ha, e1]
  | nil =>
    simp only [Params.wf, Bool.and_eq_true, decide_eq_true_eq] at hc
    have hroom : s.hasRoom = true := by
      simp only [State.hasRoom, hq, List.length_nil, Nat.zero_add, State.codeBytes, decide_eq_true_eq]
      rcases s.codeCycle_width with h | h <;> rw [h] <;> omega
    have hm : s.mayStart = true := by simp [State.mayStart, o1, o4]
    have hfo : s.fetchOff = s.ip := by rw [i3, hq]; simp
    have hff : s.fillQueue = .ok s.completeFetch := by
      simp only [State.fillQueue, hq, o2, hm, hroom, Bool.and_self, if_true, State.spend_of_unlimited o4,
        State.endFetch, o3]
    have hpa : s.codeCycle.pa = phys s.cfg s.cs s.ip := by rw [← hfo]; rfl
    obtain ⟨rest, hq2, hlen⟩ : ∃ rest, s.completeFetch.queue =
        ((phys s.cfg s.cs s.ip).toNat, Memory.read s.mem (phys s.cfg s.cs s.ip).toNat) :: rest ∧
        s.codeCycle.width / 8 = rest.length + 1 := by
      rw [show s.completeFetch.queue = s.queue ++ ((targets s.codeCycle.pa s.codeCycle.width).map BitVec.toNat).zip
        (s.readBytes s.codeCycle.pa s.codeCycle.width) from rfl, hq, hpa]
      rcases s.codeCycle_width with h | h <;> rw [h]
      · exact ⟨[_], by simp only [targets, State.readBytes, State.byteAt_present ha]; rfl, rfl⟩
      · exact ⟨[], by simp only [targets, State.readBytes, State.byteAt_present ha]; rfl, rfl⟩
    have e := s.completeFetch.takeByte_eq (Memory.read s.mem (phys s.cfg s.cs s.ip).toNat) rest
    refine ⟨rest, s.completeFetch.history, s.completeFetch.draws, s.completeFetch.fetchOff, ?_,
      [_], rfl, by simp [hq, hlen], ?_⟩
    · have hbusy : s.completeFetch.busy = s.busy := by rw [o2]; rfl
      simp only [State.takeNext, hff, hq2]
      rw [e, MicroRes.ok.injEq]
      show ({ s.completeFetch with
        queue := rest, qsHistory := _, ip := s.ip + 1#16, opbuf := _, insnStart := _ } : State) = _
      rw [← hbusy]
      rfl
    · simp [State.paOf, State.segOf, hpa]; exact ⟨rfl, by simp [State.codeCycle]⟩

/-- The memory after RESET is in canonical form. -/
theorem State.reset_mem_wf : Memory.wf State.reset.mem = true := rfl

/-- Placing code keeps memory's canonical form. -/
theorem State.placeCode_wf (s : State) (off : Word) (bs : List Byte) (h : Memory.wf s.mem = true) :
    Memory.wf (s.placeCode off bs).mem = true := by
  induction bs generalizing s off with
  | nil => exact h
  | cons b bs ih => exact ih _ _ (Memory.wf_write b h (phys s.cfg s.cs off).isLt)

end Sys2Proof.Machine
end

