-- ==== Sys2Proof/Laws/PerInstr.lean ====
section
/-! SUPPORT. The families of statements about every instruction as syntax, one lemma per constructor of
`Instr`. -/

namespace Sys2Proof.Laws.Complete

open Sys2Proof

/-- R68, R69: whatever the opcode bytes, the code of an instruction is not empty, is no longer than the longest
instruction, and is complete only with its last byte: of fewer of its bytes the decoder asks for more. -/
def Statement (i : Instr) : Prop :=
  ∀ o : OpcodeMap, i.wf = true →
    0 < (encode o i).length ∧ (encode o i).length ≤ maxInstrBytes ∧
      ∀ k, k < (encode o i).length → decode o ((encode o i).take k) = .error .truncated

/-- A code of one byte is complete with it. -/
theorem of_singleton {i : Instr} (h : ∀ o, (encode o i).length = 1) : Statement i := by
  intro o _
  rw [h]
  refine ⟨Nat.zero_lt_one, Nat.le_succ 1, fun k hk => ?_⟩
  obtain rfl : k = 0 := by simpa using hk
  simp [decode]

theorem lock : Statement .lock := of_singleton fun _ => rfl

theorem nop : Statement .nop := of_singleton fun _ => rfl

theorem wait : Statement .wait := of_singleton fun _ => rfl

theorem int3 : Statement .int3 := of_singleton fun _ => rfl

theorem intN (n : Nat) : Statement (.intN n) := by
  intro o _
  refine ⟨Nat.zero_lt_two, Nat.le_refl 2, fun k hk => ?_⟩
  match k, hk with
  | 0, _ => rfl
  | 1, _ => simp [encode, decode]

theorem into : Statement .into := of_singleton fun _ => rfl

theorem iret : Statement .iret := of_singleton fun _ => rfl

theorem hlt : Statement .hlt := of_singleton fun _ => rfl

theorem cli : Statement .cli := of_singleton fun _ => rfl

theorem sti : Statement .sti := of_singleton fun _ => rfl

end Sys2Proof.Laws.Complete
end

