-- ==== Sys2Proof/Laws/Pins.lean ====
section
/-! SUPPORT. Which signals have a pin (40_pins_and_modes.md R80 to R83, R89), and what the others show. -/

namespace Sys2Proof.Machine

open Sys2Proof

/-- The package has pins 1 to 40 (R1). -/
theorem pinSignal_range {chip : Chip} {mode : Mode} {pin : Nat} {g : Signal}
    (h : pinSignal chip mode pin = some g) : 1 ≤ pin ∧ pin ≤ 40 := by
  by_contra hp
  unfold pinSignal at h
  simp (disch := omega) only [if_neg, reduceCtorEq] at h

/-- A signal has a pin in a mode exactly when one of the package's pins carries it. -/
theorem hasPin_iff {chip : Chip} {mode : Mode} {g : Signal} :
    hasPin chip mode g = true ↔ ∃ pin, pinSignal chip mode pin = some g := by
  simp only [hasPin, packagePins, List.any_eq_true, List.mem_range'_1, decide_eq_true_eq]
  exact ⟨fun ⟨pin, _, h⟩ => ⟨pin, h⟩, fun ⟨pin, h⟩ => ⟨pin, by have := pinSignal_range h; omega, h⟩⟩

/-- A signal that has a pin shows the level the processor drives. -/
theorem State.outputLevel_of_pin {s : State} {pin : Nat} {g : Signal}
    (h : pinSignal s.cfg.chip s.cfg.mode pin = some g) (m : Moment) (q : Option QueueOp) :
    s.outputLevel m q g = s.drivenLevel m q g := by
  rw [State.outputLevel, hasPin_iff.2 ⟨pin, h⟩]
  rfl

end Sys2Proof.Machine
end

