-- ==== Sys2Proof/Tests/Slice0.lean ====
section
/-! SUPPORT. Small tests. The expected values are the spec's worked examples (95_test_vectors.md, cited by
section), and each `test_meets_…` shows a concrete state that meets the premises of the statement of that
name. -/

namespace Sys2Proof.Tests

open Sys2Proof Sys2Proof.Machine

/-! ### Helpers -/

/-- A step's answer satisfies a test on the next state. -/
def after (o : Host.Outcome State Fault Refusal) (p : State → Bool) : Bool :=
  match o with
  | .next s => p s
  | .fault _ => false
  | .refused _ => false

/-- A step is refused for this reason. -/
def refusedAs (o : Host.Outcome State Fault Refusal) (r : Refusal) : Bool :=
  match o with
  | .next _ => false
  | .fault _ => false
  | .refused r' => decide (r' = r)

/-- A step answers a next state. -/
theorem next_of_after {o : Host.Outcome State Fault Refusal} {p : State → Bool} (h : after o p = true) :
    ∃ t, o = .next t ∧ p t = true := by
  cases o with
  | next s => exact ⟨s, rfl, h⟩
  | fault f => cases h
  | refused r => cases h

/-- The premises of an entry where the launch declares memory everywhere, with R43's `phys`. -/
theorem entryRuns_of {s : State} {n : Nat} (hf : s.BusFree) (hn : n < 256) (ha : s.absent = [])
    (hp : s.cfg.physRule = .gk)
    (h : (s.overVector n || wordAtEnd s.cfg s.ss (s.gen.sp - 2#16) || wordAtEnd s.cfg s.ss (s.gen.sp - 4#16) ||
      wordAtEnd s.cfg s.ss (s.gen.sp - 6#16) || s.inQueue (s.entryStack s.gen.sp)) = false) : s.EntryRuns n := by
  simp only [Bool.or_eq_false_iff] at h
  obtain ⟨⟨⟨⟨h1, h2⟩, h3⟩, h4⟩, h5⟩ := h
  exact ⟨hf, hn, h1, h2, h3, h4, h5, fun a _ => by simp [State.isAbsent, ha],
    State.entryStack_nodup_gk hp h2 h3 h4⟩

/-- With no script nothing moves the pin `RESET`. -/
theorem noReset_of {s : State} (h : s.script = []) : s.NoResetNext := by
  intro level rest e
  rw [h] at e
  cases e

def noFlags : Flags := ⟨false, false, false, false, false, false, false, false, false⟩
def ifOnly : Flags := { noFlags with ifl := true }

/-- A launch state (R167). -/
def launch (chip : Chip) (mode : Mode) (cs ip ss sp : Word) (f : Flags) (mem : List Host.Cell) : State :=
  let s := State.resetWith (gkParams chip mode)
  { s with cs := cs, ip := ip, fetchOff := ip, ss := ss, gen := { s.gen with sp := sp }, flags := f, mem := mem }

/-- The common start of 95_test_vectors.md 2.7, with code at `IP`. -/
def start (ip : Word) (mem : List Host.Cell) : State :=
  launch .i8086 .min 0x1000#16 ip 0x2000#16 0x0100#16 ifOnly mem

/-- The state in which an instruction runs, in the middle of nothing. -/
def plain : State := start 0x0102#16 []

/-- At the boundary after something begun with `TF = tfb`. -/
def atBoundary (tfb : Bool) : State := { plain with boundary := some tfb }

/-! ### WellFormed -/

theorem test_ill_formed_type : (Instr.intN 256).wf = false := by decide

theorem test_well_formed_type : (Instr.intN 255).wf = true := by decide

theorem test_ill_formed_map : { gkOpcodes with nop := 0xF0#8 }.wf = false := by decide

/-! ### Decoding: words of 95_test_vectors.md 2.4 and 30_encoding.md R72 -/

theorem test_decode_lock : decodeTableWord 8 0b11110000 = some .lock := by decide

theorem test_decode_nop : decodeTableWord 8 0b10010000 = some .nop := by decide

theorem test_decode_wait : decodeTableWord 8 0b10011011 = some .wait := by decide

theorem test_decode_int3 : decodeTableWord 8 0b11001100 = some .int3 := by decide

theorem test_decode_intN : decodeTableWord 16 0b0010000111001101 = some (.intN 0x21) := by decide

theorem test_decode_into : decodeTableWord 8 0b11001110 = some .into := by decide

theorem test_decode_iret : decodeTableWord 8 0b11001111 = some .iret := by decide

theorem test_decode_hlt : decodeTableWord 8 0b11110100 = some .hlt := by decide

theorem test_decode_cli : decodeTableWord 8 0b11111010 = some .cli := by decide

theorem test_decode_sti : decodeTableWord 8 0b11111011 = some .sti := by decide

theorem test_decode_out_of_scope :
    [0x00#8, 0x0F#8, 0x26#8, 0xF3#8, 0xFF#8].all (fun b => decide (decode gkOpcodes [b] = .error (.outOfScope b))) =
      true := by decide

/-! ### Addresses, images: 2.1, 2.3 -/

theorem test_phys :
    let phys := phys (gkParams .i8086 .min)
    phys 0xFFFF#16 0x0010#16 = 0x00000#20 ∧ phys 0x1234#16 0x5678#16 = 0x179B8#20 ∧
      phys 0xFFFF#16 0xFFFF#16 = 0x0FFEF#20 := by decide

theorem test_popped_image : Flags.ofImage 0x0A00#16 = { noFlags with of := true, ifl := true } ∧
    Flags.ofImage 0x022A#16 = ifOnly ∧
    Flags.ofImage 0xFFFF#16 = ⟨true, true, true, true, true, true, true, true, true⟩ := by decide

/-! ### One step each -/

/-- 2.5. -/
theorem test_cli : after (step ((launch .i8086 .min 0#16 0x10#16 0#16 0#16 ifOnly []).withFetchWord 8 0xFA))
    (fun t => !t.flags.ifl && decide (t.ip = 0x11#16)) = true := by decide

/-- 2.5, on the first step after RESET (P1 step 2). -/
theorem test_sti : after (step (State.reset.withFetchWord 8 0xFB))
    (fun t => t.flags.ifl && t.intInhibit && decide (t.ip = 1#16)) = true := by decide

/-- 2.6. -/
theorem test_nop : after (step (State.reset.withFetchWord 8 0x90))
    (fun t => decide (t.ip = 1#16) && decide (t.flags = noFlags) && decide (t.boundary = some false)) =
      true := by decide

/-- 2.6, `TEST = 1`. -/
theorem test_wait_idles : after (step
    ({ State.reset with pins := { State.reset.pins with test := true } }.withFetchWord 8 0x9B))
    (fun t => t.waiting && decide (t.ip = 1#16)) = true := by decide

/-- 2.6: the prefix, then no boundary. -/
theorem test_lock : after (step (State.reset.withFetchWord 16 0x90F0))
    (fun t => t.lockActive && decide (t.ip = 1#16) && decide (t.boundary = none)) = true := by decide

/-- 2.4: `F0 F0 90`. -/
theorem test_lock_lock : refusedAs (exec .lock { plain with lockActive := true }) (.opcodeOutOfScope 0xF0#8) =
    true := by decide

/-- 2.6: one `Halt` record, with the `LOCK` level. -/
theorem test_hlt_locked : after (exec .hlt { plain with lockActive := true })
    (fun t => t.halted && !t.lockActive &&
      decide (t.history.map (fun r => (r.kind, r.width, r.locked)) = [(CycleKind.halt, 0, true)])) = true := by
  decide

/-- 2.7, `CD 21` at `IP = 0100H`. -/
theorem test_int21 : after (step ((start 0x0100#16
    [(0x00084, 0x10#8), (0x00087, 0x30#8)]).withFetchWord 16 0x21CD))
    (fun t => decide (t.gen.sp = 0x00FA#16) && decide (t.wordAt 0x200FE#20 = 0xF202#16) &&
      decide (t.wordAt 0x200FC#20 = 0x1000#16) && decide (t.wordAt 0x200FA#20 = 0x0102#16) &&
      decide (t.flags = noFlags) && decide (t.cs = 0x3000#16) && decide (t.ip = 0x0010#16)) = true := by
  decide

/-- 2.7, `CC` at `IP = 0200H`. -/
theorem test_int3 : after (step ((start 0x0200#16
    [(0x0000D, 0x02#8), (0x0000F, 0x40#8)]).withFetchWord 8 0xCC))
    (fun t => decide (t.wordAt 0x200FA#20 = 0x0201#16) && decide (t.cs = 0x4000#16) &&
      decide (t.ip = 0x0200#16)) = true := by decide

/-- 2.7, `CE` with `OF = 1`. -/
theorem test_into : after (step ({ start 0x0300#16 [] with flags := { ifOnly with of := true } }.withFetchWord 8 0xCE))
    (fun t => decide (t.wordAt 0x200FE#20 = 0xFA02#16) && decide (t.wordAt 0x200FA#20 = 0x0301#16) &&
      t.flags.of && !t.flags.ifl) = true := by decide

/-- 2.7, `CF`. -/
theorem test_iret : after (exec .iret (launch .i8086 .min 0x3000#16 0x12#16 0x2000#16 0x00FA#16 noFlags
    [(0x200FA, 0x02#8), (0x200FB, 0x01#8), (0x200FD, 0x10#8), (0x200FE, 0x02#8), (0x200FF, 0xF2#8)]))
    (fun t => decide (t.ip = 0x0102#16) && decide (t.cs = 0x1000#16) && decide (t.flags = ifOnly) &&
      decide (t.gen.sp = 0x0100#16) && decide (t.queue = [])) = true := by decide

/-- 2.7, `SP = 0001H`. -/
theorem test_push_at_segment_end :
    refusedAs (exec (.intN 0x21) { plain with gen := { plain.gen with sp := 1#16 } }) .wordAtSegmentEnd =
      true := by decide

/-- 2.7, `SS = 0000H`, `SP = 0088H`. -/
theorem test_stack_over_vector :
    refusedAs (exec (.intN 0x21) { plain with ss := 0#16, gen := { plain.gen with sp := 0x88#16 } })
      .stackOverVector = true := by decide

/-- 42_bus_control.md R110, R159: with a prefetch held by `READY = 0` the processor takes nothing from its queue,
and the `CLI` there runs after the cycle has ended, whose record shows the old `IF` (R97). -/
theorem test_held_prefetch :
    let s := { start 0x0100#16 [] with queue := [(0x10100, 0xFA#8)], fetchOff := 0x0101#16, busy := some .fetch }
    after (step { s with pins := { s.pins with ready := false } })
        (fun t => t.flags.ifl && decide (t.ip = 0x0100#16) && decide (t.queue.length = 1)) = true ∧
      after (step { s with script := [.cpu .free] })
        (fun t => !t.flags.ifl && decide (t.ip = 0x0101#16) &&
          decide (t.history.map (fun r => (r.kind, r.pa, r.ifl)) = [(CycleKind.codeAccess, 0x10101#20, true)])) =
        true := by decide

/-- R118, R9: the grant is a pulse to 0 on a line that rests at 1. -/
theorem test_grant_pulse :
    let s := { State.resetWith (gkParams .i8086 .max) with req1 := true, script := [.bus (.grantLine .gt1)] }
    after (step s) (fun t => decide (t.grants = [⟨.gt1, 0⟩]) && decide (t.busOwner = .gt1) &&
      decide (t.outputLevel (.grant .gt1) none .rqgt1 = .zero) &&
      decide (t.outputLevel (.grant .gt1) none .rqgt0 = .one) &&
      decide (t.outputLevel .between none .rqgt1 = .one)) = true := by decide

/-- R83, R165, R89: pin 34 of the 8088 in maximum mode, a strobe during RESET, and signals without a pin. -/
theorem test_pins_by_mode :
    let s := { State.resetWith (gkParams .i8088 .max) with busOwner := .gt0 }
    let u := { State.reset with pins := { State.reset.pins with reset := true } }
    s.outputLevel .between none .ss0 = .one ∧ s.outputLevel .between none .wr = .noPin ∧
      u.outputLevel .between none .wr = .hiZOrInactive ∧ u.outputLevel .between none .lock = .noPin ∧
      State.reset.outputLevel .between none .mio = .unstated := by decide

/-- R140 on the 8086: `INTA` is 0 in the status part of an acknowledge cycle. -/
theorem test_inta_level :
    let r : BusRecord := ⟨.cpu, .intAck, 0#20, none, 8, some 0x21#16, 0#2, true, false, none⟩
    State.reset.outputLevel (.cycle r .status) none .inta = .zero ∧
      State.reset.outputLevel (.cycle r .address) none .ale = .one := by decide

/-- P5 on the 8086: the eight cycles of an entry on an odd stack. -/
theorem test_odd_stack : after (exec .int3 { start 0x0201#16
      [(0x0000D, 0x02#8), (0x0000F, 0x40#8)] with gen := { plain.gen with sp := 0x0101#16 } })
    (fun t => decide (t.history.map (fun r => (r.kind, r.pa, r.width, r.data)) =
      [(CycleKind.memWrite, 0x200FF#20, 8, some 0x02#16), (.memWrite, 0x20100#20, 8, some 0xF2#16),
        (.memWrite, 0x200FD#20, 8, some 0x00#16), (.memWrite, 0x200FE#20, 8, some 0x10#16),
        (.memWrite, 0x200FB#20, 8, some 0x01#16), (.memWrite, 0x200FC#20, 8, some 0x02#16),
        (.memRead, 0x0000C#20, 16, some 0x0200#16), (.memRead, 0x0000E#20, 16, some 0x4000#16)])) = true := by
  decide

/-! ### The premises of the statements can be met -/

/-- The machine right after RESET, with `NOP` where it fetches first. -/
def atNop : State := State.reset.withFetchWord 8 0x90

theorem test_meets_BusFree : plain.BusFree ∧ (launch .i8088 .max 0#16 0#16 0#16 0#16 noFlags []).BusFree := by
  unfold State.BusFree
  decide

theorem test_meets_DecodeAndEncodeAgree :
    gkOpcodes.wf = true ∧ { gkOpcodes with nop := 0x91#8 }.wf = true := by decide

theorem test_meets_BytesOutsideTheMapAreRefused :
    let s := State.reset.withFetchWord 8 0xEA
    let u := { State.reset.withFetchWord 8 0xF0 with lockActive := true }
    (s.AtFetch ∧ s.Inv ∧ s.cfg.wf = true ∧ s.isAbsent (phys s.cfg s.cs s.ip) = false ∧
      Memory.read s.mem (phys s.cfg s.cs s.ip).toNat = 0xEA#8 ∧ 0xEA#8 ∉ s.cfg.opc.bytes) ∧
    (u.AtFetch ∧ u.Inv ∧ u.cfg.wf = true ∧ u.isAbsent (phys u.cfg u.cs u.ip) = false ∧
      Memory.read u.mem (phys u.cfg u.cs u.ip).toNat = u.cfg.opc.lock ∧ u.lockActive = true) := by
  unfold State.AtFetch State.Quiet State.Inv
  refine ⟨?_, ?_⟩ <;> refine ⟨by decide, ⟨by decide, trivial, by decide⟩, by decide⟩

theorem test_meets_StepRunsDecodedInstruction :
    let s := atNop
    let u := { launch .i8088 .max 0x1000#16 0xFFFF#16 0#16 0#16 noFlags
      [(0x10000, 0x21#8), (0x1FFFF, 0xCD#8)] with queue := [(0x1FFFF, 0xCD#8)], fetchOff := 0#16 }
    (s.AtFetch ∧ s.Inv ∧ s.cfg.wf = true ∧ s.isAbsent (phys s.cfg s.cs s.ip) = false ∧
      s.isAbsent (phys s.cfg s.cs (s.ip + 1#16)) = false ∧
      decode s.cfg.opc [Memory.read s.mem (phys s.cfg s.cs s.ip).toNat,
        Memory.read s.mem (phys s.cfg s.cs (s.ip + 1#16)).toNat] = .ok (.nop, [0#8])) ∧
    (u.AtFetch ∧ u.Inv ∧ u.cfg.wf = true ∧ u.isAbsent (phys u.cfg u.cs u.ip) = false ∧
      u.isAbsent (phys u.cfg u.cs (u.ip + 1#16)) = false ∧
      decode u.cfg.opc [Memory.read u.mem (phys u.cfg u.cs u.ip).toNat,
        Memory.read u.mem (phys u.cfg u.cs (u.ip + 1#16)).toNat] = .ok (.intN 0x21, [])) := by
  unfold State.AtFetch State.Quiet State.Inv
  refine ⟨⟨by decide, ⟨by decide, trivial, by decide⟩, by decide⟩,
    ⟨by decide, ⟨by decide, ⟨by decide, by decide, trivial⟩, by decide⟩, by decide⟩⟩

theorem test_meets_StepKeepsTheInvariant : atNop.Inv ∧ ∃ t, step atNop = .next t := by
  refine ⟨⟨by decide, trivial, by decide⟩, ?_⟩
  obtain ⟨t, h, -⟩ := next_of_after (o := step atNop) (p := fun _ => true) (by decide)
  exact ⟨t, h⟩

theorem test_meets_NoResetNext : atNop.NoResetNext := noReset_of rfl

/-- An interrupt that writes memory, on a processor in minimum mode. -/
def atInt : State := (start 0x0100#16 [(0x00087, 0x30#8)]).withFetchWord 16 0x21CD

theorem test_meets_HistoryExplainsMemory :
    atInt.NoResetNext ∧ atInt.cfg.mode = .min ∧ ∃ t, step atInt = .next t ∧ t.mem ≠ atInt.mem := by
  refine ⟨noReset_of rfl, by decide, ?_⟩
  obtain ⟨t, h, hp⟩ := next_of_after (o := step atInt) (p := fun t => decide (t.mem ≠ atInt.mem)) (by decide)
  exact ⟨t, h, by simpa using hp⟩

/-- The same interrupt in maximum mode. -/
def atIntMax : State :=
  (launch .i8088 .max 0x1000#16 0x0100#16 0x2000#16 0x0100#16 ifOnly [(0x00087, 0x30#8)]).withFetchWord 16 0x21CD

theorem test_meets_QueueStatusOfAStep :
    atInt.NoResetNext ∧ atInt.cfg.mode = .min ∧ atIntMax.NoResetNext ∧ atIntMax.cfg.mode = .max ∧
      ∃ t, step atIntMax = .next t ∧ t.qsHistory = [.first, .next, .flush] := by
  refine ⟨noReset_of rfl, by decide, noReset_of rfl, by decide, ?_⟩
  obtain ⟨t, h, hp⟩ := next_of_after (o := step atIntMax)
    (p := fun t => decide (t.qsHistory = [.first, .next, .flush])) (by decide)
  exact ⟨t, h, by simpa using hp⟩

theorem test_meets_CodeSegmentChangeEmptiesQueue : ∃ t, step atInt = .next t ∧ t.cs ≠ atInt.cs := by
  obtain ⟨t, h, hp⟩ := next_of_after (o := step atInt) (p := fun t => decide (t.cs ≠ atInt.cs)) (by decide)
  exact ⟨t, h, by simpa using hp⟩

/-- `RESET` goes to 1 in the middle of a write; R162, U12. -/
theorem test_meets_Reset :
    let c : Machine.Cycle := ⟨.memWrite, 0x200FE#20, 16, 0xF202#16, some .ss⟩
    let s := { plain with script := [.env (.pin .reset true)] }
    let v := { s with busy := some (.data c), micro := [.cycle c, .clearIfTf], opbuf := [], latch := [] }
    let u := { plain with
      script := [.env (.pin .reset false)], pins := { plain.pins with reset := true } }
    (s.script = .env (.pin .reset true) :: [] ∧ s.pins.reset = false ∧ s.busy = none) ∧
      (v.script = .env (.pin .reset true) :: [] ∧ v.pins.reset = false ∧ v.busy = some (.data c) ∧
        c.kind = .memWrite ∧ 0x200FE#20 ∈ targets c.pa c.width ∧ 0x20100#20 ∉ targets c.pa c.width) ∧
      u.script = .env (.pin .reset false) :: [] ∧ u.pins.reset = true := by decide

theorem test_meets_NothingRunsDuringReset :
    let s := { plain with pins := { plain.pins with reset := true } }
    s.pins.reset = true ∧ s.script = [] ∧
      { s with script := [.cpu .free] }.script = .cpu .free :: [] := by decide

theorem test_meets_FlagsImageRoundTrips :
    0xF002#16 &&& 0x0FD5#16 = 0#16 ∧ 0xF02A#16 &&& 0x0FD5#16 = 0#16 ∧
      (gkParams .i8086 .min).flagsFixed &&& 0x0FD5#16 = 0#16 := by decide

theorem test_meets_WordWriteIsLittleEndian :
    Memory.wf plain.mem = true ∧ plain.isAbsent 0xFFFFF#20 = false ∧
      plain.isAbsent (0xFFFFF#20 + 1#20) = false := by decide

theorem test_meets_WordCycles :
    let u := launch .i8088 .max 0x1000#16 0#16 0x2000#16 0x0100#16 ifOnly []
    plain.cfg.chip = .i8086 ∧ plain.inQueue [0x00400#20, 0x00400#20 + 1#20] = false ∧
      plain.inQueue [0x200FF#20, 0x200FF#20 + 1#20] = false ∧
      plain.isAbsent 0x00401#20 = false ∧ plain.isAbsent (0x00401#20 + 1#20) = false ∧
      isOdd 0x00400#20 = false ∧ isOdd 0x200FF#20 = true ∧ 0xFFFFE#20 ≠ 0xFFFFF#20 ∧
      u.cfg.chip = .i8088 ∧ u.inQueue [0x00400#20, 0x00400#20 + 1#20] = false ∧
      u.isAbsent 0x00401#20 = false ∧ u.isAbsent (0x00401#20 + 1#20) = false := by decide

/-- 20_memory.md R53 on the 8088: a word at an even address is two byte cycles, in the segment of the access. -/
theorem test_word_write_8088 :
    let s := launch .i8088 .max 0x1000#16 0#16 0x2000#16 0x0100#16 ifOnly []
    (match runMicros ((wordCycles .i8088 .memWrite 0x200FE#20 0xF202#16 (some .ss)).map .cycle) s with
      | .ok t => decide (t.history.map (fun r => (r.pa, r.bhe, r.data, r.seg, r.ifl, r.locked)) =
          [(0x200FE#20, none, some 0x02#16, 0b01#2, true, false),
            (0x200FF#20, none, some 0xF2#16, 0b01#2, true, false)])
      | .parked _ => false
      | .refused _ => false) = true := by decide

theorem test_meets_NoCycleWithoutTheBus :
    let s := { plain with busOwner := .hold }
    let u := { s with pins := { s.pins with hold := true } }
    s.busOwner ≠ .cpu ∧ s.busy = none ∧ (∃ t, exec (.intN 0x21) s = .next t) ∧ (∃ t, turnOf s = .next t) ∧
      u.busOwner ≠ .cpu ∧ u.busy = none ∧ u.NoResetNext ∧ ∃ t, step u = .next t := by
  refine ⟨by decide, by decide, ?_, ?_, by decide, by decide, noReset_of rfl, ?_⟩
  · obtain ⟨t, h, -⟩ := next_of_after (o := exec (.intN 0x21) { plain with busOwner := .hold })
      (p := fun _ => true) (by decide)
    exact ⟨t, h⟩
  · obtain ⟨t, h, -⟩ := next_of_after (o := turnOf { plain with busOwner := .hold })
      (p := fun _ => true) (by decide)
    exact ⟨t, h⟩
  · obtain ⟨t, h, -⟩ := next_of_after
      (o := step { plain with busOwner := .hold, pins := { plain.pins with hold := true } })
      (p := fun _ => true) (by decide)
    exact ⟨t, h⟩

/-- `READY = 0`. -/
def notReady : State := { plain with pins := { plain.pins with ready := false } }

theorem test_meets_WaitStates :
    notReady.pins.ready = false ∧ plain.micro = [] ∧ plain.busy = none ∧
      ∃ p, exec (.intN 0x21) { plain with pins := { plain.pins with ready := false } } = .next p ∧
        p.micro ≠ [] := by
  refine ⟨by decide, by decide, by decide, ?_⟩
  obtain ⟨t, h, hp⟩ := next_of_after (o := exec (.intN 0x21) notReady)
    (p := fun t => decide (t.micro ≠ [])) (by decide)
  exact ⟨t, h, by simpa using hp⟩

theorem test_meets_HeldCycleIdlesTheProcessor :
    let s := { notReady with micro := [.cycle haltCycle, .enterHalt], busy := some (.data haltCycle) }
    let u := { notReady with busy := some .fetch, queue := [(0x10102, 0xFA#8)] }
    (s.busy ≠ none ∧ s.pins.ready = false ∧ s.busOwner = .cpu ∧ s.script = []) ∧
      (u.busy ≠ none ∧ u.pins.ready = false ∧ u.busOwner = .cpu ∧ u.script = []) := by decide

theorem test_meets_NoCycleEndsWhileNotReady :
    let s := { notReady with micro := [.cycle haltCycle, .enterHalt] }
    s.pins.ready = false ∧ s.NoResetNext ∧ (∃ t, turnOf s = .next t) ∧ ∃ t, step s = .next t := by
  refine ⟨rfl, noReset_of rfl, ?_, ?_⟩
  · obtain ⟨t, h, -⟩ := next_of_after
      (o := turnOf { notReady with micro := [.cycle haltCycle, .enterHalt] }) (p := fun _ => true) (by decide)
    exact ⟨t, h⟩
  · obtain ⟨t, h, -⟩ := next_of_after
      (o := step { notReady with micro := [.cycle haltCycle, .enterHalt] }) (p := fun _ => true) (by decide)
    exact ⟨t, h⟩

/-- A byte of the first, the second and the third stack word in the queue; the upper byte too. -/
theorem test_meets_StaleStackWriteRefused :
    let s (a : Nat) := { plain with queue := [(a, 0x90#8)] }
    let slot (j : Nat) := phys plain.cfg plain.ss (plain.pushSlot j)
    plain.BusFree ∧ plain.overVector 0x21 = false ∧ plain.overVector 3 = false ∧ plain.overVector 4 = false ∧
      (∀ j, j ≤ 2 → wordAtEnd plain.cfg plain.ss (plain.pushSlot j) = false) ∧
      (s 0x200FF).inQueue [slot 0, slot 0 + 1#20] = true ∧
      (s 0x200FC).inQueue [slot 1, slot 1 + 1#20] = true ∧
      (s 0x200FB).inQueue [slot 2, slot 2 + 1#20] = true ∧
      EntryBegins 0x21 (s 0x200FF) (exec (.intN 0x21) (s 0x200FF)) ∧ Enters .int3 3 (s 0x200FC) ∧
      Enters .into 4 { s 0x200FB with flags := { ifOnly with of := true } } := by
  refine ⟨⟨rfl, rfl, rfl, rfl⟩, by decide, by decide, by decide, by decide, by decide, by decide, by decide,
    .inl ⟨_, .inl rfl, rfl⟩, .inr (.inl ⟨rfl, rfl⟩), .inr (.inr ⟨rfl, rfl, rfl⟩)⟩

theorem test_meets_UndeclaredReadIsFree :
    let s := { plain with absent := [⟨0x400, 0x400⟩] }
    s.BusFree ∧ s.isAbsent 0x400#20 = true ∧ s.isAbsent 0x401#20 = false := by
  unfold State.BusFree
  decide

theorem test_meets_HoldHandshake :
    let s := { plain with script := [.bus .grantHold], pins := { plain.pins with hold := true } }
    let u := { plain with script := [.bus .releaseHold], busOwner := .hold }
    (s.pins.reset = false ∧ s.script = .bus .grantHold :: [] ∧ s.cfg.mode = .min ∧ s.busOwner = .cpu ∧
      s.pins.hold = true ∧ s.busy = none) ∧
    (u.pins.reset = false ∧ u.script = .bus .releaseHold :: [] ∧ u.busOwner = .hold ∧
      u.pins.hold = false) := by decide

/-- A maximum mode machine with a request on both lines. -/
def requested : State :=
  { launch .i8086 .max 0x1000#16 0#16 0x2000#16 0x0100#16 noFlags [] with
    req0 := true, req1 := true, script := [.bus (.grantLine .gt0)] }

theorem test_meets_LineHandshake :
    let r := { requested with req0 := false, script := [.env (.request .gt0)] }
    let u := { requested with busOwner := .gt1, script := [.env (.release .gt1)] }
    (requested.pins.reset = false ∧ requested.script = .bus (.grantLine .gt0) :: [] ∧
      requested.canGrantLine .gt0 = true ∧ requested.canGrantLine .gt1 = false) ∧
    (r.script = .env (.request .gt0) :: [] ∧ r.cfg.mode = .max ∧ r.busOwner ≠ .gt0 ∧ r.req .gt0 = false) ∧
    (u.script = .env (.release .gt1) :: [] ∧ u.busOwner = .gt1) := by decide

theorem test_meets_LockKeepsTheBus :
    let s := { requested with script := [], lockActive := true, boundary := some false }
    s.lockActive = true ∧ s.busOwner = .cpu ∧
      ∃ t, step ({ s with script := [.env (.pin .test true)] }) = .next t := by
  refine ⟨by decide, by decide, ?_⟩
  exact ⟨_, rfl⟩

theorem test_meets_OtherMasterWrite :
    let s := { requested with
      busOwner := .gt0, script := [.env (.master .memWrite 0x00500#20 8 0x55#16)], queue := [] }
    let u := { s with queue := [(0x00500, 0x90#8)] }
    Memory.wf s.mem = true ∧ s.busOwner ≠ .cpu ∧
      s.script = .env (.master .memWrite 0x00500#20 8 0x55#16) :: [] ∧
      s.inQueue [0x00500#20] = false ∧ s.isAbsent 0x00500#20 = false ∧
      u.inQueue [0x00500#20] = true := by decide

theorem test_meets_TestPin :
    plain.pins.test = false ∧ { plain with pins := { plain.pins with test := true } }.pins.test = true := by
  decide

/-- Idle in `WAIT`. -/
def waitingState : State :=
  { plain with waiting := true, insnStart := 0x0101#16, pins := { plain.pins with test := true } }

theorem test_meets_IdleWaitGoesOn :
    waitingState.Quiet ∧ waitingState.waiting = true ∧ waitingState.halted = false ∧
      waitingState.pins.test = true ∧ waitingState.nmiPending = false ∧ waitingState.dueIntr = false ∧
      { waitingState with pins := plain.pins }.pins.test = false := by
  unfold State.Quiet
  decide

theorem test_meets_LockResult :
    plain.lockActive = false ∧ { plain with lockActive := true }.lockActive = true := by decide

theorem test_meets_EntryRuns :
    plain.EntryRuns 0x21 ∧ plain.EntryRuns 0 ∧ plain.EntryRuns 255 ∧ plain.EntryRuns 3 ∧
      { plain with flags := { ifOnly with of := true } }.EntryRuns 4 ∧ Memory.wf plain.mem = true := by
  refine ⟨?_, ?_, ?_, ?_, ?_, rfl⟩ <;> exact entryRuns_of ⟨rfl, rfl, rfl, rfl⟩ (by decide) rfl rfl rfl

/-- Fetched in minimum mode, with its bytes in the queue already. -/
theorem test_meets_BothFormsOfInt3 :
    let s := { start 0x0200#16 [] with queue := [(0x10200, 0xCD#8), (0x10201, 0x03#8)] }
    let s1 := { s with ip := 0x0201#16, insnStart := 0x0200#16, queue := [(0x10201, 0x03#8)] }
    let s2 := { s with ip := 0x0202#16, insnStart := 0x0200#16, queue := [] }
    s1.EntryRuns 3 ∧ s2.EntryRuns 3 ∧ Memory.wf s1.mem = true ∧ s1.FetchedFrom s 1 ∧ s2.FetchedFrom s 2 := by
  refine ⟨entryRuns_of ⟨rfl, rfl, rfl, rfl⟩ (by decide) rfl rfl rfl,
    entryRuns_of ⟨rfl, rfl, rfl, rfl⟩ (by decide) rfl rfl rfl, rfl, ?_, ?_⟩ <;>
  exact ⟨rfl, rfl, rfl, rfl, ⟨[], rfl, rfl, fun _ h => absurd h List.not_mem_nil⟩, rfl⟩

theorem test_meets_IntoWithoutOverflow :
    plain.flags.of = false ∧ { plain with flags := { ifOnly with of := true } }.flags.of = true := by decide

theorem test_meets_IretResult : plain.ReturnRuns :=
  ⟨⟨rfl, rfl, rfl, rfl⟩, rfl, rfl, rfl, fun _ _ => ⟨rfl, rfl⟩⟩

theorem test_meets_ReturnUndoesEntry :
    plain.EntryRuns 0x21 ∧ plain.cfg.wf = true ∧ Memory.wf plain.mem = true ∧
      ∃ t, exec (.intN 0x21) plain = .next t ∧ t.BusFree := by
  refine ⟨test_meets_EntryRuns.1, by decide, by decide, ?_⟩
  obtain ⟨t, h, hp⟩ := next_of_after (o := exec (.intN 0x21) plain)
    (p := fun t => decide (t.busOwner = .cpu ∧ t.busy = none ∧ t.pins.ready = true ∧ t.turn.cycles = none))
    (by decide)
  exact ⟨t, h, by simpa [State.BusFree] using hp⟩

/-- `plain` with the stack elsewhere. -/
def withStack (ss sp : Word) : State := { plain with ss := ss, gen := { plain.gen with sp := sp } }

/-- A state in which push `k` of an entry of type 21H is at an end and the earlier ones go through. -/
abbrev PushEnds (s : State) (k : Nat) : Prop :=
  s.overVector 0x21 = false ∧ wordAtEnd s.cfg s.ss (s.pushSlot k) = true ∧
  ∀ j, j < k → wordAtEnd s.cfg s.ss (s.pushSlot j) = false ∧
    s.inQueue [phys s.cfg s.ss (s.pushSlot j), phys s.cfg s.ss (s.pushSlot j) + 1#20] = false

/-- A state in which pop `k` of a return is at an end and the earlier ones go through. -/
abbrev PopEnds (s : State) (k : Nat) : Prop :=
  wordAtEnd s.cfg s.ss (s.popSlot k) = true ∧ ∀ j, j < k → wordAtEnd s.cfg s.ss (s.popSlot j) = false

/-- The first, second and third push, at the end of the segment and at the end of memory, and the same for the
pops. -/
theorem test_meets_WordAtSegmentEndRefused :
    let s := withStack plain.ss
    let u := withStack 0xFFFF#16
    (∀ sp, (s sp).BusFree ∧ (u sp).BusFree ∧ EntryBegins 0x21 (s sp) (exec (.intN 0x21) (s sp)) ∧
      EntryBegins 0x21 (u sp) ((u sp).takeInterrupt 0x21 (u sp).ip)) ∧
    PushEnds (s 0x0001#16) 0 ∧ PushEnds (s 0x0003#16) 1 ∧ PushEnds (s 0x0005#16) 2 ∧
    PushEnds (u 0x0011#16) 0 ∧ PushEnds (u 0x0013#16) 1 ∧ PushEnds (u 0x0015#16) 2 ∧
    PopEnds (s 0xFFFF#16) 0 ∧ PopEnds (s 0xFFFD#16) 1 ∧ PopEnds (s 0xFFFB#16) 2 ∧
    PopEnds (u 0x000F#16) 0 ∧ PopEnds (u 0x000D#16) 1 ∧ PopEnds (u 0x000B#16) 2 := by
  refine ⟨fun _ => ⟨⟨rfl, rfl, rfl, rfl⟩, ⟨rfl, rfl, rfl, rfl⟩,
    .inl ⟨_, .inl rfl, rfl⟩, .inr (.inl ⟨_, rfl⟩)⟩, ?_⟩
  decide

theorem test_meets_StackOverVectorRefused :
    let s := { plain with ss := 0#16, gen := { plain.gen with sp := 0x88#16 } }
    0x00084#20 ∈ s.entryStack s.gen.sp ∧ 0x00084#20 ∈ vectorBytes 0x21 ∧
      EntryBegins 0x21 s (exec (.intN 0x21) s) :=
  ⟨by decide, by decide, .inl ⟨_, .inl rfl, rfl⟩⟩

/-- The steps that begin an entry: `NMI` at a boundary, single step, `NMI` while halted and waiting, and the entry
that an acknowledge has left; each with the byte at the top of the stack in the queue. -/
theorem test_meets_EntryBegins :
    let stale (s : State) : State := { s with queue := [(0x200FE, 0x90#8)] }
    let u1 := stale { atBoundary false with nmiPending := true }
    let u2 := stale (atBoundary true)
    let u3 := stale { plain with halted := true, nmiPending := true }
    let u4 := stale { waitingState with nmiPending := true }
    let u5 := stale { plain with micro := plain.interruptEntry 0x21 plain.ip ++ [.endEntry] }
    EntryBegins 2 u1 (step u1) ∧ EntryBegins 1 u2 (step u2) ∧ EntryBegins 2 u3 (step u3) ∧
      EntryBegins 2 u4 (step u4) ∧ EntryBegins 0x21 u5 (step u5) ∧
      (∀ u ∈ [u1, u2, u3, u4, u5], u.BusFree ∧ u.overVector 1 = false ∧ u.overVector 2 = false ∧
        u.overVector 0x21 = false ∧ wordAtEnd u.cfg u.ss (u.pushSlot 0) = false ∧
        u.inQueue [phys u.cfg u.ss (u.pushSlot 0), phys u.cfg u.ss (u.pushSlot 0) + 1#20] = true) := by
  refine ⟨.inr (.inr (.inr ⟨_, rfl, rfl, .inl ?_⟩)), .inr (.inr (.inr ⟨_, rfl, rfl, .inr (.inl ?_)⟩)),
    .inr (.inr (.inr ⟨_, rfl, rfl, .inr (.inr (.inl ?_))⟩)),
    .inr (.inr (.inr ⟨_, rfl, rfl, .inr (.inr (.inr (.inl ?_)))⟩)),
    .inr (.inr (.inr ⟨_, rfl, rfl, .inr (.inr (.inr (.inr ⟨?_, plain.ip, rfl⟩)))⟩)), ?_⟩
  · unfold State.AtBoundary State.Quiet
    decide
  · unfold State.AtBoundary State.Quiet
    decide
  · unfold State.Quiet
    decide
  · unfold State.Quiet
    decide
  · unfold State.Quiet
    decide
  · unfold State.BusFree
    decide

theorem test_meets_NmiTakenAtBoundary :
    let s := { atBoundary false with nmiPending := true }
    s.AtBoundary false ∧ s.nmiPending = true ∧ { s with turn := .free }.EntryRuns 2 ∧
      Memory.wf s.mem = true := by
  refine ⟨?_, by decide, ?_, by decide⟩
  · unfold State.AtBoundary State.Quiet
    decide
  · exact entryRuns_of ⟨rfl, rfl, rfl, rfl⟩ (by decide) rfl rfl rfl

theorem test_meets_SingleStepTakenAtBoundary :
    let s := atBoundary true
    s.AtBoundary true ∧ s.nmiPending = false ∧ s.dueIntr = false ∧ { s with turn := .free }.EntryRuns 1 ∧
      Memory.wf s.mem = true := by
  refine ⟨?_, by decide, by decide, ?_, by decide⟩
  · unfold State.AtBoundary State.Quiet
    decide
  · exact entryRuns_of ⟨rfl, rfl, rfl, rfl⟩ (by decide) rfl rfl rfl

theorem test_meets_SimultaneousRefused :
    let s := { atBoundary true with nmiPending := true }
    let u := { atBoundary true with pins := { plain.pins with intr := true } }
    (s.AtBoundary true ∧ s.nmiPending = true) ∧ (u.AtBoundary true ∧ u.dueIntr = true) := by
  unfold State.AtBoundary State.Quiet
  decide

/-- A due `INTR`, with the controller ready to answer type 21H. -/
def dueState : State :=
  { atBoundary false with pins := { plain.pins with intr := true, vector := some 0x21#8 } }

theorem test_meets_IntrAcknowledged :
    dueState.AtBoundary false ∧ dueState.nmiPending = false ∧ dueState.dueIntr = true ∧
      dueState.intInhibit = false ∧ dueState.cfg.wf = true ∧ dueState.pins.vector = some 0x21#8 ∧
      { dueState with turn := .free }.EntryRuns 0x21 ∧ Memory.wf dueState.mem = true := by
  refine ⟨?_, by decide, by decide, by decide, by decide, by decide, ?_, by decide⟩
  · unfold State.AtBoundary State.Quiet
    decide
  · exact entryRuns_of ⟨rfl, rfl, rfl, rfl⟩ (by decide) rfl rfl rfl

/-- 60_exceptions.md R140, R147: the acknowledge and the entry of type 21H are two steps; the saved offset. -/
theorem test_intr_entry :
    after (step dueState) (fun t => decide (t.history.map (·.kind) = [CycleKind.intAck, .intAck]) &&
      after (step t) (fun u => decide (u.wordAt 0x200FA#20 = 0x0102#16) && decide (u.gen.sp = 0x00FA#16) &&
        decide (u.boundary = some false))) = true := by decide

theorem test_meets_MaskedIntrIgnored :
    let s := { dueState with flags := noFlags }
    s.AtBoundary false ∧ s.nmiPending = false ∧ s.dueIntr = false ∧ s.pins.intr = true := by
  unfold State.AtBoundary State.Quiet
  decide

theorem test_meets_AcknowledgeOnlyForIntr :
    atNop.micro = [] ∧ atNop.dueIntr = false ∧ atNop.NoResetNext ∧ ∃ t, step atNop = .next t :=
  ⟨by decide, by decide, test_meets_NoResetNext, test_meets_StepKeepsTheInvariant.2⟩

theorem test_meets_IntrAfterStiEitherWay :
    let s := { dueState with intInhibit := true }
    s.AtBoundary false ∧ s.nmiPending = false ∧ s.dueIntr = true ∧ s.intInhibit = true ∧
      s.turn.alt = false ∧ { s with turn := { s.turn with alt := true } }.turn.alt = true := by
  unfold State.AtBoundary State.Quiet
  decide

theorem test_meets_NmiEdgeLatched :
    let s := { plain with script := [.env (.pin .nmi true)] }
    s.script = .env (.pin .nmi true) :: [] ∧ s.pins.nmi = false := by decide

theorem test_meets_InterruptEndsHalt :
    let s := { plain with halted := true, nmiPending := true }
    let u := { dueState with halted := true, boundary := none }
    (s.Quiet ∧ s.halted = true ∧ s.nmiPending = true ∧ { s with turn := .free }.EntryRuns 2 ∧
      Memory.wf s.mem = true) ∧
    (u.Quiet ∧ u.halted = true ∧ u.nmiPending = false ∧ u.dueIntr = true ∧ u.intInhibit = false ∧
      u.cfg.wf = true ∧ u.pins.vector = some 0x21#8 ∧ { u with turn := .free }.EntryRuns 0x21 ∧
      Memory.wf u.mem = true) := by
  refine ⟨⟨?_, by decide, by decide, ?_, by decide⟩, ?_, by decide, by decide, by decide, by decide, by decide,
    by decide, ?_, by decide⟩
  · unfold State.Quiet
    decide
  · exact entryRuns_of ⟨rfl, rfl, rfl, rfl⟩ (by decide) rfl rfl rfl
  · unfold State.Quiet
    decide
  · exact entryRuns_of ⟨rfl, rfl, rfl, rfl⟩ (by decide) rfl rfl rfl

theorem test_meets_InterruptEndsWait :
    let s := { waitingState with nmiPending := true, lockActive := true }
    let u := { waitingState with
      lockActive := true, pins := { waitingState.pins with intr := true, vector := some 0x21#8 } }
    (s.Quiet ∧ s.waiting = true ∧ s.halted = false ∧ s.pins.test = true ∧ s.nmiPending = true ∧
      { s with turn := .free }.EntryRuns 2 ∧ Memory.wf s.mem = true) ∧
    (u.Quiet ∧ u.waiting = true ∧ u.halted = false ∧ u.pins.test = true ∧ u.nmiPending = false ∧
      u.dueIntr = true ∧ u.intInhibit = false ∧ u.cfg.wf = true ∧ u.pins.vector = some 0x21#8 ∧
      { u with turn := .free }.EntryRuns 0x21 ∧ Memory.wf u.mem = true) := by
  refine ⟨⟨?_, by decide, by decide, by decide, by decide, ?_, by decide⟩, ?_, by decide, by decide, by decide,
    by decide, by decide, by decide, by decide, by decide, ?_, by decide⟩
  · unfold State.Quiet
    decide
  · exact entryRuns_of ⟨rfl, rfl, rfl, rfl⟩ (by decide) rfl rfl rfl
  · unfold State.Quiet
    decide
  · exact entryRuns_of ⟨rfl, rfl, rfl, rfl⟩ (by decide) rfl rfl rfl

theorem test_meets_EndOfRunStays :
    let s := { plain with halted := true }
    s.EndOfRun ∧ s.Quiet := by
  unfold State.EndOfRun State.Quiet
  decide

theorem test_meets_PinStatements :
    let u := { State.resetWith (gkParams .i8088 .max) with busOwner := .gt0 }
    let p := { plain with script := [.env (.pin .mnmx false)] }
    { plain with busOwner := .hold }.busOwner ≠ .cpu ∧ plain.busOwner = .cpu ∧ plain.pins.reset = false ∧
      plain.cfg.mode = .min ∧ requested.cfg.mode = .max ∧ requested.busOwner = .cpu ∧
      requested.pins.reset = false ∧ u.busOwner ≠ .cpu ∧ pinSignal u.cfg.chip u.cfg.mode 32 = some .rd ∧
      pinSignal plain.cfg.chip plain.cfg.mode 2 = some (.ad 14) ∧
      pinSignal .i8088 .min 34 = some .ss0 ∧ u.cfg.chip = .i8088 ∧ u.cfg.mode = .max ∧
      p.script = .env (.pin .mnmx false) :: [] ∧ false ≠ strapLevel p.cfg.mode ∧
      isOdd 0x00400#20 = false ∧ isOdd 0x00401#20 = true := by decide

theorem test_meets_PinMaps_noPin :
    ∀ pin, pinSignal plain.cfg.chip plain.cfg.mode pin ≠ some .lock := by
  intro pin h
  have hr := Sys2Proof.Machine.pinSignal_range h
  have hall : ∀ p < 41, pinSignal plain.cfg.chip plain.cfg.mode p ≠ some .lock := by decide
  exact hall pin (by omega) h

end Sys2Proof.Tests
end

/-! Decoding and encoding (30_encoding.md R68 to R72): each of the two undoes the other, whatever ten
different opcode bytes the configuration gives. -/

namespace Sys2Proof

/-- R69: a map of opcode bytes is well formed when they are different. -/
theorem OpcodeMap.wf_iff_nodup (o : OpcodeMap) : o.wf = true ↔ o.bytes.Nodup := by
  simp [OpcodeMap.wf]

/-- What the one-byte table answers is the instruction whose code is that byte. -/
theorem encode_of_decodeOp1 {o : OpcodeMap} {b : Byte} {i : Instr} (h : decodeOp1 o b = some i) :
    i.wf = true ∧ encode o i = [b] := by
  unfold decodeOp1 at h
  split_ifs at h <;> cases h <;> subst b <;> exact ⟨rfl, rfl⟩

/-- With ten different opcode bytes the one-byte table answers every instruction of one byte, and `INT n` begins
with none of these bytes. -/
theorem decodeOp1_of_encode {o : OpcodeMap} {b : Byte} {i : Instr} (ho : o.wf = true) (h : encode o i = [b]) :
    b ≠ o.intN ∧ decodeOp1 o b = some i := by
  rw [OpcodeMap.wf_iff_nodup] at ho
  simp only [OpcodeMap.bytes, List.nodup_cons, List.mem_cons, List.not_mem_nil, or_false, not_or] at ho
  cases i
  case intN n => simp [encode] at h
  all_goals
    obtain rfl := List.singleton_inj.1 h
    simp [decodeOp1, eq_comm, ho]

/-- Only `INT n` has a code of two bytes. -/
theorem encode_intN_or_singleton (o : OpcodeMap) (i : Instr) : (∃ n, i = .intN n) ∨ ∃ b, encode o i = [b] := by
  cases i
  case intN n => exact .inl ⟨n, rfl⟩
  all_goals exact .inr ⟨_, rfl⟩

/-- R69: whatever decodes is the code of what it decodes to, followed by the bytes left over. -/
theorem encode_of_decode {o : OpcodeMap} {i : Instr} {bs rest : List Byte} (h : decode o bs = .ok (i, rest)) :
    i.wf = true ∧ bs = encode o i ++ rest := by
  unfold decode at h
  split at h
  · cases h
  · split at h
    · rename_i hb
      split at h <;> cases h
      rename_i n
      exact ⟨by simpa [Instr.wf] using n.isLt, by simp [encode, hb]⟩
    · split at h <;> cases h
      rename_i hd
      obtain ⟨hw, he⟩ := encode_of_decodeOp1 hd
      exact ⟨hw, by rw [he]; rfl⟩

/-- R68, R70: the code of a well-formed instruction decodes to it, and leaves over what follows. -/
theorem decode_encode {o : OpcodeMap} {i : Instr} (ho : o.wf = true) (hi : i.wf = true) (rest : List Byte) :
    decode o (encode o i ++ rest) = .ok (i, rest) := by
  obtain ⟨n, rfl⟩ | ⟨b, hb⟩ := encode_intN_or_singleton o i
  · have hn : n % 2 ^ 8 = n := Nat.mod_eq_of_lt (by simpa [Instr.wf] using hi)
    simp only [encode, List.cons_append, List.nil_append, decode, if_true, BitVec.toNat_ofNat, hn]
  · obtain ⟨hne, hd⟩ := decodeOp1_of_encode ho hb
    simp only [hb, List.cons_append, List.nil_append, decode, hne, if_false, hd]

/-- Settles O1: the one direction needs no premise, the other needs that the opcode bytes are different. -/
theorem decodeAndEncodeAgree : Obligations.DecodeAndEncodeAgree := by
  intro o i bs rest ho
  refine ⟨encode_of_decode, ?_⟩
  rintro ⟨hi, rfl⟩
  exact decode_encode ho hi rest

end Sys2Proof

/-! What every step but a move of the RESET pin keeps: a relation that the processor, its bus interface,
the environment and another master's cycles keep holds between the states before and after a step. Two such
relations: memory is explained by the history (20_memory.md R58), and the registers no step writes (10_state.md
R17, R25; 00_scope.md R8). -/

namespace Sys2Proof.Machine

/-- A relation that every primitive change keeps: those of the processor, and those of the other agents. `outside`
covers the fields that the bus interface and the environment set. -/
structure StepClosed (R : State → State → Prop) : Prop extends ProcClosed R where
  outside : ∀ (s : State) script busOwner req0 req1 grants pins nmiPending,
    R s { s with
      script := script, busOwner := busOwner, req0 := req0, req1 := req1, grants := grants, pins := pins
      nmiPending := nmiPending }
  masterLogs : ∀ (s : State) k pa w d, k ≠ .memWrite → R s (s.logMaster k pa w d)
  masterWrites : ∀ (s : State) pa w d, s.inQueue (targets pa w) = false →
    R s ((s.storeBytes pa w d).logMaster .memWrite pa w (s.masterData .memWrite pa w d))

namespace StepClosed

variable {R : State → State → Prop} (hR : StepClosed R)
include hR

theorem scripted (s : State) (acts : List Act) : R s { s with script := acts } :=
  hR.outside s acts s.busOwner s.req0 s.req1 s.grants s.pins s.nmiPending

theorem owned (s : State) (m : Master) : R s { s with busOwner := m } :=
  hR.outside s s.script m s.req0 s.req1 s.grants s.pins s.nmiPending

theorem setReq (s : State) (l : Line) (b : Bool) : R s (s.setReq l b) := by
  cases l
  · exact hR.outside s s.script s.busOwner b s.req1 s.grants s.pins s.nmiPending
  · exact hR.outside s s.script s.busOwner s.req0 b s.grants s.pins s.nmiPending

theorem grantLine (s : State) (l : Line) : R s (s.grantLine l) :=
  hR.trans (hR.setReq s l false) (hR.outside ..)

/-- A scripted or default turn of the processor keeps the relation. -/
theorem turn {s t : State} {rest : List Act} {tn : Turn}
    (h : turnOf { s with script := rest, turn := tn } = .next t) : R s t :=
  hR.trans (hR.trans (hR.scripted s rest) (hR.control ..)) (hR.turnOf h)

theorem busStep {s t : State} {b : BusAct} (h : s.busStep b = some (.next t)) : R s t := by
  obtain ⟨hf, he⟩ | ⟨-, rfl⟩ | ⟨-, rfl⟩ | ⟨l, -, rfl⟩ := busStep_cases h
  · exact hR.endFetch hf he
  · exact hR.owned s .hold
  · exact hR.owned s .cpu
  · exact hR.grantLine s l

theorem envAct {s t : State} {e : EnvAct} (hn : ∀ level, e ≠ .pin .reset level) (h : s.envAct e = .next t) :
    R s t := by
  obtain ⟨level, he, -⟩ | ⟨p, level, -, -, pins, nmi, rfl⟩ | ⟨b, -, rfl⟩ | ⟨l, -, -, -, rfl⟩ | ⟨l, -, -, rfl⟩ |
    ⟨k, pa, w, d, -, -, ⟨rfl, hq, rfl⟩ | ⟨hk, rfl⟩⟩ := envAct_cases h
  · exact absurd he (hn level)
  · exact hR.outside s s.script s.busOwner s.req0 s.req1 s.grants pins nmi
  · exact hR.outside s s.script s.busOwner s.req0 s.req1 s.grants _ s.nmiPending
  · exact hR.setReq s l true
  · exact hR.owned s .cpu
  · exact hR.masterWrites s pa w d hq
  · exact hR.masterLogs s k pa w _ hk

/-- Every step that does not move the RESET pin keeps the relation. -/
theorem step {s t : State} (hn : s.NoResetNext) (h : step s = .next t) : R s t := by
  obtain ⟨rest, tn, ht, -⟩ | ⟨b, rest, hb, -⟩ | ⟨e, rest, hs, he⟩ := step_cases h
  · exact hR.turn ht
  · exact hR.trans (hR.scripted s rest) (hR.busStep hb)
  · refine hR.trans (hR.scripted s rest) (hR.envAct (fun level hl => hn level rest ?_) he)
    rw [hs, hl]

end StepClosed

/-! ### Memory and the history -/

/-- `t` comes after `s` and its memory is that of `s` with the writes of the new records replayed (R58), on the
same platform (R64). -/
structure State.Explained (s t : State) : Prop where
  absent : t.absent = s.absent
  replay : ∃ recs, t.history = s.history ++ recs ∧ t.mem = recs.foldl s.replayRecord s.mem

/-- What a record does to memory depends on the platform alone. -/
theorem State.replayRecord_congr {s t : State} (h : t.absent = s.absent) : t.replayRecord = s.replayRecord := by
  funext m r
  unfold State.replayRecord
  split
  · exact State.storeBytes_mem_congr (s := { s with mem := m }) (t := { t with mem := m }) h rfl ..
  · rfl

/-- The record of a memory write replays the store. -/
theorem State.replayRecord_write (s : State) {r : BusRecord} {d : Word} (hk : r.kind = .memWrite)
    (hd : r.data = some d) : s.replayRecord s.mem r = (s.storeBytes r.pa r.width d).mem := by
  rw [State.replayRecord, if_pos hk, hd]
  rfl

/-- The record of any other cycle replays nothing. -/
theorem State.replayRecord_other (s : State) {r : BusRecord} (m : List Host.Cell) (hk : r.kind ≠ .memWrite) :
    s.replayRecord m r = m := if_neg hk

/-- Storing what the record of another master's write holds is storing what the master drives. -/
theorem State.storeBytes_masterData (s u : State) (pa : Addr) (w : Nat) (d : Word) :
    s.storeBytes pa w (u.masterData .memWrite pa w d) = s.storeBytes pa w d := by
  by_cases hw : w = 16
  · simp [State.masterData, hw]
  · simp [State.masterData, State.storeBytes, hw]

namespace State.Explained

theorem of_unchanged {s t : State} (ha : t.absent = s.absent) (hh : t.history = s.history)
    (hm : t.mem = s.mem) : s.Explained t :=
  ⟨ha, [], by simpa using hh, hm⟩

theorem of_record {s t : State} {r : BusRecord} (ha : t.absent = s.absent) (hh : t.history = s.history ++ [r])
    (hm : t.mem = s.replayRecord s.mem r) : s.Explained t :=
  ⟨ha, [r], hh, hm⟩

theorem trans {a b c : State} (hab : a.Explained b) (hbc : b.Explained c) : a.Explained c := by
  obtain ⟨ha, rs, hh, hm⟩ := hab
  obtain ⟨ha', rs', hh', hm'⟩ := hbc
  refine ⟨ha'.trans ha, rs ++ rs', by rw [hh', hh, List.append_assoc], ?_⟩
  rw [hm', hm, State.replayRecord_congr ha, List.foldl_append]

theorem logCycle (s : State) {c : Cycle} (d : Option Word) (hk : c.kind ≠ .memWrite) :
    s.Explained (s.logCycle c d) :=
  .of_record rfl rfl (s.replayRecord_other s.mem hk).symm

theorem write (s : State) {c : Cycle} (hk : c.kind = .memWrite) :
    s.Explained ((s.storeBytes c.pa c.width c.data).logCycle c (some c.data)) := by
  refine .of_record (by simp) (by rw [State.logCycle, State.storeBytes_history]) ?_
  rw [State.replayRecord_write s hk rfl]
  simp [State.paOf, hk]

theorem masterWrite (s : State) (pa : Addr) (w : Nat) (d : Word) :
    s.Explained ((s.storeBytes pa w d).logMaster .memWrite pa w (s.masterData .memWrite pa w d)) := by
  refine .of_record (s.storeBytes_absent pa w d) (by rw [State.logMaster, State.storeBytes_history]) ?_
  rw [State.replayRecord_write s rfl rfl, State.storeBytes_masterData]
  rfl

/-- Every primitive change of every agent adds to the history what it does to memory. -/
theorem stepClosed : StepClosed State.Explained where
  refl _ := .of_unchanged rfl rfl rfl
  trans := trans
  control _ _ _ _ _ _ _ _ _ _ _ _ := .of_unchanged rfl rfl rfl
  holdData _ _ := .of_unchanged rfl rfl rfl
  freeBus _ := .of_unchanged rfl rfl rfl
  holdFetch _ _ := .of_unchanged rfl rfl rfl
  fetchEnds s _ _ := .of_record rfl rfl (s.replayRecord_other s.mem (by nofun)).symm
  logs s _ d hk _ := logCycle s d hk
  writes s _ hk _ _ := write s hk
  setsSp _ _ := .of_unchanged rfl rfl rfl
  setsFlags _ _ := .of_unchanged rfl rfl rfl
  jumps _ _ _ := .of_unchanged (by simp) (by simp) (by simp)
  takes _ _ _ _ _ := .of_unchanged (by simp) (by simp) (by simp)
  outside _ _ _ _ _ _ _ _ := .of_unchanged rfl rfl rfl
  masterLogs s _ _ _ _ hk := .of_record rfl rfl (s.replayRecord_other s.mem hk).symm
  masterWrites s pa w d _ := masterWrite s pa w d

end State.Explained

/-- Settles O7: the relation `State.Explained` is kept by every primitive change. -/
theorem historyExplainsMemory : Obligations.HistoryExplainsMemory :=
  fun _ _ hn h => (State.Explained.stepClosed.step hn h).replay

/-! ### Parameters, platform and the registers no step writes -/

/-- The parameters, the platform, `DS`, `SS`, `ES` and every general register but `SP` are as before (R8, R17,
R25, R64). -/
structure State.KeepsRegisters (s t : State) : Prop where
  cfg : t.cfg = s.cfg
  absent : t.absent = s.absent
  ds : t.ds = s.ds
  ss : t.ss = s.ss
  es : t.es = s.es
  gen : t.gen = { s.gen with sp := t.gen.sp }

namespace State.KeepsRegisters

theorem of_gen_eq {s t : State} (hc : t.cfg = s.cfg) (ha : t.absent = s.absent) (hd : t.ds = s.ds)
    (hs : t.ss = s.ss) (he : t.es = s.es) (hg : t.gen = s.gen) : s.KeepsRegisters t :=
  ⟨hc, ha, hd, hs, he, by rw [hg]⟩

theorem trans {a b c : State} (hab : a.KeepsRegisters b) (hbc : b.KeepsRegisters c) : a.KeepsRegisters c where
  cfg := hbc.cfg.trans hab.cfg
  absent := hbc.absent.trans hab.absent
  ds := hbc.ds.trans hab.ds
  ss := hbc.ss.trans hab.ss
  es := hbc.es.trans hab.es
  gen := by rw [hbc.gen, hab.gen]

/-- No primitive change of any agent writes one of them: of the general registers only `SP` is ever set. -/
theorem stepClosed : StepClosed State.KeepsRegisters where
  refl _ := .of_gen_eq rfl rfl rfl rfl rfl rfl
  trans := trans
  control _ _ _ _ _ _ _ _ _ _ _ _ := .of_gen_eq rfl rfl rfl rfl rfl rfl
  holdData _ _ := .of_gen_eq rfl rfl rfl rfl rfl rfl
  freeBus _ := .of_gen_eq rfl rfl rfl rfl rfl rfl
  holdFetch _ _ := .of_gen_eq rfl rfl rfl rfl rfl rfl
  fetchEnds _ _ _ := .of_gen_eq rfl rfl rfl rfl rfl rfl
  logs _ _ _ _ _ := .of_gen_eq rfl rfl rfl rfl rfl rfl
  writes _ _ _ _ _ := .of_gen_eq (by simp) (by simp) (by simp) (by simp) (by simp) (by simp)
  setsSp _ _ := ⟨rfl, rfl, rfl, rfl, rfl, rfl⟩
  setsFlags _ _ := .of_gen_eq rfl rfl rfl rfl rfl rfl
  jumps _ _ _ := .of_gen_eq (by simp) (by simp) (by simp) (by simp) (by simp) (by simp)
  takes _ _ _ _ _ := .of_gen_eq (by simp) (by simp) (by simp) (by simp) (by simp) (by simp)
  outside _ _ _ _ _ _ _ _ := .of_gen_eq rfl rfl rfl rfl rfl rfl
  masterLogs _ _ _ _ _ _ := .of_gen_eq rfl rfl rfl rfl rfl rfl
  masterWrites s pa w d _ := .of_gen_eq (s.storeBytes_cfg pa w d) (s.storeBytes_absent pa w d)
    (s.storeBytes_ds pa w d) (s.storeBytes_ss pa w d) (s.storeBytes_es pa w d) (s.storeBytes_gen pa w d)

end State.KeepsRegisters

/-- A write cut short by RESET leaves the parameters and the platform alone. -/
theorem State.cutShort_cfg_absent (s : State) : s.cutShort.cfg = s.cfg ∧ s.cutShort.absent = s.absent := by
  unfold State.cutShort
  split
  · split
    · simp
    · exact ⟨rfl, rfl⟩
  · exact ⟨rfl, rfl⟩
  · exact ⟨rfl, rfl⟩

/-- A move of the RESET pin leaves the parameters and the platform alone (R162). -/
theorem State.resetPin_cfg_absent (s : State) (level : Bool) :
    (s.resetPin level).cfg = s.cfg ∧ (s.resetPin level).absent = s.absent := by
  unfold State.resetPin
  dsimp only
  split
  · exact ⟨rfl, rfl⟩
  · split
    · exact State.cutShort_cfg_absent { s with pins := { s.pins with reset := level } }
    · exact ⟨rfl, rfl⟩

/-- A step that moves the RESET pin is that move, with the rest of the script to come. -/
theorem step_reset {s : State} {level : Bool} {rest : List Act}
    (hs : s.script = .env (.pin .reset level) :: rest) :
    step s = .next ({ s with script := rest }.resetPin level) := by
  simp only [step, hs, State.envAct, State.setPin]

/-- No step, a move of the RESET pin included, changes the parameters or the platform (R8, R64). -/
theorem step_cfg_absent {s t : State} (h : step s = .next t) : t.cfg = s.cfg ∧ t.absent = s.absent := by
  by_cases hn : s.NoResetNext
  · have hk := State.KeepsRegisters.stepClosed.step hn h
    exact ⟨hk.cfg, hk.absent⟩
  · simp only [State.NoResetNext, not_forall, not_not] at hn
    obtain ⟨level, rest, hs⟩ := hn
    rw [step_reset hs] at h
    cases h
    exact State.resetPin_cfg_absent { s with script := rest } level

/-- Settles O8: the relation `State.KeepsRegisters` is kept by every primitive change. -/
theorem segmentsAndGeneralRegistersStay : Obligations.SegmentsAndGeneralRegistersStay := by
  intro s t h
  obtain ⟨hc, ha⟩ := step_cfg_absent h
  refine ⟨hc, ha, fun hn => ?_⟩
  have hk := State.KeepsRegisters.stepClosed.step hn h
  exact ⟨hk.ds, hk.ss, hk.es, hk.gen⟩

end Sys2Proof.Machine

/-! A bus cycle held by `READY` (42_bus_control.md R110; 00_scope.md R16) and the request/grant handshake
(R118). -/

namespace Sys2Proof.Machine

/-- While `READY = 0` holds a bus cycle, a move of the processor changes nothing (R110, R161). -/
theorem turnOf_of_held {s : State} (hb : s.busy ≠ none) (hr : s.pins.ready = false) : turnOf s = .next s := by
  have hp : s.prepare = .done (.next s) := by
    rw [State.prepare, State.afterWait_of_held hb hr]
    split <;> rfl
  rw [turnOf, hp]

/-- While `READY = 0` holds a bus cycle of a processor that owns the bus, the bus interface owes nothing: the code
access cannot end, and no grant comes during a cycle (R114, R118). -/
theorem State.settle_of_held {s : State} (hb : s.busy ≠ none) (hr : s.pins.ready = false)
    (ho : s.busOwner = .cpu) : s.settle = none := by
  have hn : s.busy.isNone = false := by rwa [Option.isNone_eq_false_iff, Option.isSome_iff_ne_none]
  simp [State.settle, hr, State.canReleaseHold, ho, State.canGrantHold, State.canGrantLine, hn]

/-- Settles O21. -/
theorem heldCycleIdlesTheProcessor : Obligations.HeldCycleIdlesTheProcessor := by
  intro s hb hr
  refine ⟨turnOf_of_held hb hr, fun ho hs => ?_⟩
  simp only [step, hs, State.settle_of_held hb hr ho]
  rw [← hs]
  exact turnOf_of_held (s := { s with turn := .free }) hb hr

/-- R118: when a line may be granted. -/
theorem State.canGrantLine_iff (s : State) (l : Line) :
    s.canGrantLine l = true ↔ s.cfg.mode = .max ∧ s.busOwner = .cpu ∧ s.req l = true ∧ s.lockActive = false ∧
      s.busy = none ∧ (l = .gt0 ∨ s.req0 = false) := by
  simp [State.canGrantLine, and_assoc]

/-- R118: a request sets the latch of its line and leaves the other. -/
theorem State.setReq_true (s : State) (l : Line) :
    s.setReq l true = { s with req0 := s.req0 || decide (l = .gt0), req1 := s.req1 || decide (l = .gt1) } := by
  cases l <;> simp [State.setReq]

/-- R118: a grant clears the latch of its line and leaves the other. -/
theorem State.setReq_false (s : State) (l : Line) :
    s.setReq l false = { s with req0 := s.req0 && decide (l ≠ .gt0), req1 := s.req1 && decide (l ≠ .gt1) } := by
  cases l <;> simp [State.setReq]

/-- R118: a grant that a script names, outside RESET. -/
theorem State.busAct_grantLine {s : State} (hr : s.pins.reset = false) (l : Line) :
    s.busAct (.grantLine l) =
      if s.cfg.mode = .max ∧ s.busOwner = .cpu ∧ s.req l = true ∧ s.lockActive = false ∧ s.busy = none ∧
          (l = .gt0 ∨ s.req0 = false)
      then .next (s.grantLine l) else .fault (.notEnabled (.bus (.grantLine l))) := by
  by_cases hg : s.canGrantLine l = true
  · rw [if_pos ((s.canGrantLine_iff l).1 hg)]
    simp [State.busAct, State.busStep, hr, hg]
  · rw [if_neg (mt (s.canGrantLine_iff l).2 hg)]
    simp [State.busAct, State.busStep, hr, hg]

/-- Settles O26: each step by the rule of its agent, in the state with the rest of the script. -/
theorem lineHandshake : Obligations.LineHandshake := by
  intro s l rest
  refine ⟨fun hs => ?request, fun hr hs => ?grant, fun hs => ?release⟩
  case request =>
    simp only [step, hs, State.envAct, State.request, State.setReq_true]
    rfl
  case grant =>
    simp only [step, hs]
    rw [State.busAct_grantLine (s := { s with script := rest }) hr l, State.grantLine, State.setReq_false]
    rfl
  case release =>
    simp only [step, hs, State.envAct, State.release]

end Sys2Proof.Machine

/-! The invariant of the machine (`State.Inv`): what it says of memory and the queue is kept by every primitive
change of every agent, what it says of the owner of the bus (42_bus_control.md R116, R117) by the handshakes;
RESET meets it afresh. -/

namespace Sys2Proof.Machine

/-- The part of the invariant about memory and the queue (R28, R41, R59, R62). -/
structure State.QueueSound (s : State) : Prop where
  mem : Memory.wf s.mem = true
  bytes : s.QueueFrom s.ip s.queue
  next : s.fetchOff = s.ip + BitVec.ofNat 16 s.queue.length
  fits : s.queue.length + (if s.fetching then s.codeBytes else 0) ≤ s.cfg.qlen

/-- The part of the invariant about the owner of the bus and the requests (R116, R117). -/
structure State.OwnerOfMode (s : State) : Prop where
  min : s.cfg.mode = .min → (s.busOwner = .cpu ∨ s.busOwner = .hold) ∧ s.req0 = false ∧ s.req1 = false
  max : s.cfg.mode = .max → s.busOwner ≠ .hold

theorem State.inv_iff (s : State) : s.Inv ↔ s.QueueSound ∧ s.OwnerOfMode :=
  ⟨fun ⟨hm, hb, hn, hf, hmin, hmax⟩ => ⟨⟨hm, hb, hn, hf⟩, hmin, hmax⟩,
    fun ⟨⟨hm, hb, hn, hf⟩, hmin, hmax⟩ => ⟨hm, hb, hn, hf, hmin, hmax⟩⟩

/-! ### What the queue holds -/

/-- What the queue is required to hold depends on the code segment, the platform, and memory at its addresses. -/
theorem State.QueueFrom.congr {s t : State} (hc : t.cfg = s.cfg) (hs : t.cs = s.cs) (ha : t.absent = s.absent)
    {q : List Host.Cell} (hm : ∀ c ∈ q, Memory.read t.mem c.1 = Memory.read s.mem c.1) {off : Word}
    (h : s.QueueFrom off q) : t.QueueFrom off q := by
  induction q generalizing off with
  | nil => trivial
  | cons c q ih =>
    obtain ⟨a, b⟩ := c
    obtain ⟨hpa, hb, hq⟩ := h
    refine ⟨by rw [hc, hs]; exact hpa, fun hp => ?_, ih (fun c hcq => hm c (List.mem_cons_of_mem _ hcq)) hq⟩
    rw [hc, hs, State.isAbsent_congr ha] at hp
    exact (hm (a, b) (List.mem_cons_self ..)).trans (hb hp)

theorem State.QueueFrom.append {s : State} {off : Word} {q r : List Host.Cell} (hq : s.QueueFrom off q)
    (hr : s.QueueFrom (off + BitVec.ofNat 16 q.length) r) : s.QueueFrom off (q ++ r) := by
  induction q generalizing off with
  | nil => simpa using hr
  | cons c q ih =>
    obtain ⟨hpa, hb, hq⟩ := hq
    refine ⟨hpa, hb, ih hq ?_⟩
    have e : off + BitVec.ofNat 16 (c :: q).length = off + 1#16 + BitVec.ofNat 16 q.length := by
      rw [List.length_cons, BitVec.ofNat_add]
      ac_rfl
    rwa [e] at hr

/-- How many bytes a code access fetches depends on the parameters and the fetch address. -/
theorem State.codeBytes_congr {s t : State} (hc : t.cfg = s.cfg) (hs : t.cs = s.cs)
    (ho : t.fetchOff = s.fetchOff) : t.codeBytes = s.codeBytes := by
  simp only [State.codeBytes, State.codeCycle, hc, hs, ho]

/-- The bytes a code access brings, with their addresses (R28, R59). -/
def State.fetchedCells (s : State) : List Host.Cell :=
  ((targets s.codeCycle.pa s.codeCycle.width).map BitVec.toNat).zip (s.readBytes s.codeCycle.pa s.codeCycle.width)

@[simp] theorem State.completeFetch_queue (s : State) : s.completeFetch.queue = s.queue ++ s.fetchedCells := rfl

@[simp] theorem State.completeFetch_fetchOff (s : State) :
    s.completeFetch.fetchOff = s.fetchOff + BitVec.ofNat 16 s.codeBytes := rfl

/-- A word is fetched only where its second byte is the next one of the code segment (R56). -/
theorem State.codeCycle_word_or_byte (s : State) :
    s.codeCycle.width = 16 ∧ phys s.cfg s.cs (s.fetchOff + 1#16) = phys s.cfg s.cs s.fetchOff + 1#20 ∨
      s.codeCycle.width = 8 := by
  simp only [State.codeCycle]
  split
  · rename_i h
    exact .inl ⟨rfl, h.2.2⟩
  · exact .inr rfl

/-- A code access brings as many bytes as it moves, and they are the next ones of the code segment. -/
theorem State.fetchedCells_spec (s : State) :
    s.fetchedCells.length = s.codeBytes ∧ s.QueueFrom s.fetchOff s.fetchedCells := by
  have hpa : s.codeCycle.pa = phys s.cfg s.cs s.fetchOff := rfl
  rcases s.codeCycle_word_or_byte with ⟨hw, hsucc⟩ | hw <;>
    simp only [State.fetchedCells, State.codeBytes, hw, hpa]
  · refine ⟨rfl, rfl, fun hp => (State.byteAt_present hp _).symm, by rw [hsucc], fun hp => ?_, trivial⟩
    rw [hsucc] at hp
    exact (State.byteAt_present hp _).symm
  · exact ⟨rfl, rfl, fun hp => (State.byteAt_present hp _).symm, trivial⟩

/-- An address of a queued byte is none of those that are not in the queue (R62). -/
theorem State.ne_of_inQueue {s : State} {as : List Addr} (h : s.inQueue as = false) {c : Host.Cell}
    (hc : c ∈ s.queue) : ∀ a ∈ as, c.1 ≠ a.toNat := by
  intro a ha e
  simp only [State.inQueue, List.any_eq_false] at h
  exact h a ha (List.any_eq_true.2 ⟨c, hc, by simpa using e⟩)

namespace State.QueueSound

/-- A change that leaves the queue and the code segment alone, keeps memory canonical and does not touch the queued
bytes, and that starts a code access only where the queue has room. -/
theorem congr {s t : State} (h : s.QueueSound) (hc : t.cfg = s.cfg) (hs : t.cs = s.cs) (hi : t.ip = s.ip)
    (ha : t.absent = s.absent) (hq : t.queue = s.queue) (ho : t.fetchOff = s.fetchOff)
    (hb : t.fetching = true → s.fetching = true ∨ s.hasRoom = true) (hm : Memory.wf t.mem = true)
    (hr : ∀ c ∈ s.queue, Memory.read t.mem c.1 = Memory.read s.mem c.1) : t.QueueSound where
  mem := hm
  bytes := by rw [hi, hq]; exact h.bytes.congr hc hs ha hr
  next := by rw [ho, hi, hq]; exact h.next
  fits := by
    have hf := h.fits
    rw [hq, hc, State.codeBytes_congr hc hs ho]
    split
    · rcases hb ‹_› with hb | hb
      · simpa [hb] using hf
      · simpa [State.hasRoom] using hb
    · omega

/-- A change of none of the fields it speaks of, but that a cycle in progress may end. -/
theorem of_same {s t : State} (h : s.QueueSound) (hc : t.cfg = s.cfg) (hs : t.cs = s.cs) (hi : t.ip = s.ip)
    (ha : t.absent = s.absent) (hq : t.queue = s.queue) (ho : t.fetchOff = s.fetchOff)
    (hb : t.fetching = true → s.fetching = true ∨ s.hasRoom = true) (hm : t.mem = s.mem) : t.QueueSound :=
  h.congr hc hs hi ha hq ho hb (hm ▸ h.mem) fun c _ => by rw [hm]

/-- An empty queue that fetches next at `IP` holds what it should. -/
theorem of_empty {s : State} (hm : Memory.wf s.mem = true) (hq : s.queue = []) (ho : s.fetchOff = s.ip)
    (hb : s.busy = none) : s.QueueSound where
  mem := hm
  bytes := by rw [hq]; trivial
  next := by simp [hq, ho]
  fits := by simp [hq, State.fetching, hb]

/-- A write off the queued bytes, however it is recorded. -/
theorem stored {s t : State} (h : s.QueueSound) {pa : Addr} {w : Nat} {d : Word}
    (hf : s.inQueue (targets pa w) = false) (hm : t.mem = (s.storeBytes pa w d).mem) (hc : t.cfg = s.cfg)
    (hs : t.cs = s.cs) (hi : t.ip = s.ip) (ha : t.absent = s.absent) (hq : t.queue = s.queue)
    (ho : t.fetchOff = s.fetchOff) (hb : t.busy = s.busy) : t.QueueSound := by
  refine h.congr hc hs hi ha hq ho (fun hft => .inl ?_) (hm ▸ State.storeBytes_wf pa w d h.mem) fun c hcq => ?_
  · rwa [State.fetching, ← hb]
  · rw [hm]
    exact State.storeBytes_read_other d (State.ne_of_inQueue hf hcq)

/-- A code access for which there was room brings the next bytes of the code segment. -/
theorem completeFetch {s : State} (h : s.QueueSound) (hb : s.fetching = true ∨ s.hasRoom = true) :
    s.completeFetch.QueueSound where
  mem := h.mem
  bytes := by
    have hf := s.fetchedCells_spec.2
    rw [h.next] at hf
    exact State.QueueFrom.congr (s := s) (t := s.completeFetch) rfl rfl rfl (fun _ _ => rfl) (h.bytes.append hf)
  next := by
    rw [State.completeFetch_fetchOff, State.completeFetch_queue, State.completeFetch_ip, h.next,
      List.length_append, s.fetchedCells_spec.1, BitVec.ofNat_add, BitVec.add_assoc]
  fits := by
    have hlen : s.queue.length + s.codeBytes ≤ s.cfg.qlen := by
      rcases hb with hb | hb
      · simpa [hb] using h.fits
      · simpa [State.hasRoom] using hb
    simpa [State.fetching, s.fetchedCells_spec.1] using hlen

/-- A byte handed to the decoder leaves the queue at its head, and `IP` goes with it (R19, R67). -/
theorem takeByte {s : State} (h : s.QueueSound) {a : Nat} {b : Byte} {rest : List Host.Cell}
    (hq : s.queue = (a, b) :: rest) : (s.takeByte b rest).QueueSound where
  mem := by simpa using h.mem
  bytes := by
    have hb := h.bytes
    rw [hq] at hb
    obtain ⟨-, -, hrest⟩ := hb
    rw [State.takeByte_ip, State.takeByte_queue]
    exact hrest.congr (by simp) (by simp) (by simp) fun c _ => by simp
  next := by
    rw [State.takeByte_fetchOff, State.takeByte_ip, State.takeByte_queue, h.next, hq, List.length_cons,
      BitVec.ofNat_add]
    ac_rfl
  fits := by
    have hf := h.fits
    rw [hq, List.length_cons] at hf
    rw [State.takeByte_queue, State.takeByte_cfg,
      State.codeBytes_congr (s := s) (by simp) (by simp) (by simp),
      show (s.takeByte b rest).fetching = s.fetching by simp [State.fetching]]
    omega

/-- Every primitive change of every agent keeps what the invariant says of memory and the queue. -/
theorem stepClosed : StepClosed fun s t => s.QueueSound → t.QueueSound where
  refl _ := id
  trans hab hbc := hbc ∘ hab
  control _ _ _ _ _ _ _ _ _ _ _ _ h := h.of_same rfl rfl rfl rfl rfl rfl .inl rfl
  holdData _ _ h := h.of_same rfl rfl rfl rfl rfl rfl (by simp [State.fetching]) rfl
  freeBus _ h := h.of_same rfl rfl rfl rfl rfl rfl (by simp [State.fetching]) rfl
  holdFetch _ hb h := h.of_same rfl rfl rfl rfl rfl rfl (fun _ => hb) rfl
  fetchEnds _ hb _ h := h.completeFetch hb
  logs _ _ _ _ _ h := h.of_same rfl rfl rfl rfl rfl rfl .inl rfl
  writes s c _ hq _ h := h.stored hq rfl (s.storeBytes_cfg ..) (s.storeBytes_cs ..) (s.storeBytes_ip ..)
    (s.storeBytes_absent ..) (s.storeBytes_queue ..) (s.storeBytes_fetchOff ..) (s.storeBytes_busy ..)
  setsSp _ _ h := h.of_same rfl rfl rfl rfl rfl rfl .inl rfl
  setsFlags _ _ h := h.of_same rfl rfl rfl rfl rfl rfl .inl rfl
  jumps _ _ _ h := .of_empty (by simpa using h.mem) (by simp) (by simp) (by simp)
  takes _ _ _ _ hq h := h.takeByte hq
  outside _ _ _ _ _ _ _ _ h := h.of_same rfl rfl rfl rfl rfl rfl .inl rfl
  masterLogs _ _ _ _ _ _ h := h.of_same rfl rfl rfl rfl rfl rfl .inl rfl
  masterWrites s pa w d hq h := h.stored hq rfl (s.storeBytes_cfg ..) (s.storeBytes_cs ..) (s.storeBytes_ip ..)
    (s.storeBytes_absent ..) (s.storeBytes_queue ..) (s.storeBytes_fetchOff ..) (s.storeBytes_busy ..)

end State.QueueSound

/-! ### Who owns the bus -/

/-- The mode, the owner of the bus and the requests are as before. -/
structure State.KeepsOwner (s t : State) : Prop where
  cfg : t.cfg = s.cfg
  busOwner : t.busOwner = s.busOwner
  req0 : t.req0 = s.req0
  req1 : t.req1 = s.req1

namespace State.KeepsOwner

/-- The processor itself never gives the bus away (R114, R118): none of its primitive changes does. -/
theorem procClosed : ProcClosed State.KeepsOwner where
  refl _ := ⟨rfl, rfl, rfl, rfl⟩
  trans hab hbc := ⟨hbc.cfg.trans hab.cfg, hbc.busOwner.trans hab.busOwner, hbc.req0.trans hab.req0,
    hbc.req1.trans hab.req1⟩
  control _ _ _ _ _ _ _ _ _ _ _ _ := ⟨rfl, rfl, rfl, rfl⟩
  holdData _ _ := ⟨rfl, rfl, rfl, rfl⟩
  freeBus _ := ⟨rfl, rfl, rfl, rfl⟩
  holdFetch _ _ := ⟨rfl, rfl, rfl, rfl⟩
  fetchEnds _ _ _ := ⟨rfl, rfl, rfl, rfl⟩
  logs _ _ _ _ _ := ⟨rfl, rfl, rfl, rfl⟩
  writes s _ _ _ _ := ⟨s.storeBytes_cfg .., s.storeBytes_busOwner .., s.storeBytes_req0 .., s.storeBytes_req1 ..⟩
  setsSp _ _ := ⟨rfl, rfl, rfl, rfl⟩
  setsFlags _ _ := ⟨rfl, rfl, rfl, rfl⟩
  jumps _ _ _ := ⟨by simp, by simp, by simp, by simp⟩
  takes _ _ _ _ _ := ⟨by simp, by simp, by simp, by simp⟩

theorem ownerOfMode {s t : State} (h : s.KeepsOwner t) (hs : s.OwnerOfMode) : t.OwnerOfMode where
  min hm := by
    rw [h.cfg] at hm
    rw [h.busOwner, h.req0, h.req1]
    exact hs.min hm
  max hm := by
    rw [h.cfg] at hm
    rw [h.busOwner]
    exact hs.max hm

end State.KeepsOwner

theorem Line.master_ne_hold (l : Line) : l.master ≠ .hold := by cases l <;> decide

namespace State.OwnerOfMode

/-- Giving the bus back to the processor fits either mode (R114, R118). -/
theorem toCpu {s : State} (h : s.OwnerOfMode) : { s with busOwner := .cpu }.OwnerOfMode where
  min hm := ⟨.inl rfl, (h.min hm).2⟩
  max _ := nofun

/-- The bus interface hands the bus to `HOLD` in minimum mode and to a line in maximum mode only (R114, R118). -/
theorem busStep {s t : State} {b : BusAct} (h : s.OwnerOfMode) (hb : s.busStep b = some (.next t)) :
    t.OwnerOfMode := by
  obtain ⟨hf, he⟩ | ⟨hg, rfl⟩ | ⟨-, rfl⟩ | ⟨l, hg, rfl⟩ := busStep_cases hb
  · exact (State.KeepsOwner.procClosed.endFetch hf he).ownerOfMode h
  · have hmin : s.cfg.mode = .min := by
      simp only [State.canGrantHold, Bool.and_eq_true, decide_eq_true_eq] at hg
      exact hg.1.1.1
    exact ⟨fun hm => ⟨.inr rfl, (h.min hm).2⟩, fun hm => absurd (hm.symm.trans hmin) (by decide)⟩
  · exact h.toCpu
  · have hmax : s.cfg.mode = .max := ((s.canGrantLine_iff l).1 hg).1
    refine ⟨fun hm => absurd (?_ : Mode.max = .min) (by decide), fun _ => l.master_ne_hold⟩
    rw [← hmax, ← hm]
    cases l <;> rfl

/-- A request is latched in maximum mode only; a release gives the bus back to the processor (R118). -/
theorem envAct {s t : State} {e : EnvAct} (hn : ∀ level, e ≠ .pin .reset level) (h : s.OwnerOfMode)
    (he : s.envAct e = .next t) : t.OwnerOfMode := by
  obtain ⟨level, hr, -⟩ | ⟨p, level, -, -, pins, nmi, rfl⟩ | ⟨b, -, rfl⟩ | ⟨l, -, hmax, -, rfl⟩ | ⟨l, -, -, rfl⟩ |
    ⟨k, pa, w, d, -, -, ⟨-, -, rfl⟩ | ⟨-, rfl⟩⟩ := envAct_cases he
  · exact absurd hr (hn level)
  · exact ⟨h.min, h.max⟩
  · exact ⟨h.min, h.max⟩
  · cases l <;> exact ⟨fun hm => absurd (hm.symm.trans hmax) (by decide), h.max⟩
  · exact h.toCpu
  · exact State.KeepsOwner.ownerOfMode (s := s) ⟨by simp, by simp, by simp, by simp⟩ h
  · exact ⟨h.min, h.max⟩

/-- Every step that does not move the RESET pin. -/
theorem step {s t : State} (hn : s.NoResetNext) (h : s.OwnerOfMode) (hs : step s = .next t) : t.OwnerOfMode := by
  obtain ⟨rest, tn, ht, -⟩ | ⟨b, rest, hb, -⟩ | ⟨e, rest, hscript, he⟩ := step_cases hs
  · exact (State.KeepsOwner.procClosed.turnOf ht).ownerOfMode ⟨h.min, h.max⟩
  · exact State.OwnerOfMode.busStep (s := { s with script := rest }) ⟨h.min, h.max⟩ hb
  · refine State.OwnerOfMode.envAct (s := { s with script := rest }) (fun level hl => hn level rest ?_)
      ⟨h.min, h.max⟩ he
    rw [hscript, hl]

end State.OwnerOfMode

/-! ### RESET -/

/-- With the queue empty and the bus the processor's, as RESET leaves them, the invariant asks for canonical memory
alone. -/
theorem State.inv_of_reset {s : State} (hm : Memory.wf s.mem = true) (hq : s.queue = []) (ho : s.fetchOff = s.ip)
    (hb : s.busy = none) (hown : s.busOwner = .cpu) (h0 : s.req0 = false) (h1 : s.req1 = false) : s.Inv :=
  s.inv_iff.2 ⟨.of_empty hm hq ho hb, fun _ => ⟨.inl hown, h0, h1⟩, fun _ => by rw [hown]; decide⟩

/-- Settles O6. -/
theorem resetMeetsTheInvariant : Obligations.ResetMeetsTheInvariant :=
  have h p : (State.resetWith p).Inv := State.inv_of_reset rfl rfl rfl rfl rfl rfl rfl
  ⟨h _, h⟩

/-- A new run starts with the invariant when it takes over canonical memory (R162). -/
theorem State.applyReset_inv {s : State} (hm : Memory.wf s.mem = true) : s.applyReset.Inv :=
  State.inv_of_reset hm rfl rfl rfl rfl rfl rfl

/-- A write cut short by RESET keeps memory canonical. -/
theorem State.cutShort_mem_wf {s : State} (hm : Memory.wf s.mem = true) : Memory.wf s.cutShort.mem = true := by
  unfold State.cutShort
  split
  · split
    · exact State.storeBytes_wf _ _ _ hm
    · exact hm
  · exact hm
  · exact hm

/-- A move of the RESET pin keeps the invariant: where it changes the level, a new run starts. -/
theorem State.resetPin_inv {s : State} (h : s.Inv) (level : Bool) : (s.resetPin level).Inv := by
  obtain ⟨hq, hown⟩ := s.inv_iff.1 h
  unfold State.resetPin
  dsimp only
  split
  · exact (State.inv_iff _).2 ⟨hq.of_same rfl rfl rfl rfl rfl rfl .inl rfl, hown.min, hown.max⟩
  · split
    · exact State.applyReset_inv (State.cutShort_mem_wf hq.mem)
    · exact State.applyReset_inv hq.mem

/-- The next step moves the RESET pin or it does not. -/
theorem State.noResetNext_or (s : State) :
    s.NoResetNext ∨ ∃ level rest, s.script = .env (.pin .reset level) :: rest := by
  by_cases hn : s.NoResetNext
  · exact .inl hn
  · simp only [State.NoResetNext, not_forall, not_not] at hn
    exact .inr hn

/-- Settles O5: the two parts of the invariant apart, and a move of the RESET pin by itself. -/
theorem stepKeepsTheInvariant : Obligations.StepKeepsTheInvariant := by
  intro s t h hs
  obtain ⟨hq, hown⟩ := s.inv_iff.1 h
  obtain hn | ⟨level, rest, hscript⟩ := s.noResetNext_or
  · exact t.inv_iff.2 ⟨State.QueueSound.stepClosed.step hn hs hq, hown.step hn hs⟩
  · rw [step_reset hscript] at hs
    cases hs
    refine State.resetPin_inv (s := { s with script := rest }) ((State.inv_iff _).2 ⟨?_, hown.min, hown.max⟩) level
    exact hq.of_same rfl rfl rfl rfl rfl rfl .inl rfl

end Sys2Proof.Machine

/-! A move of the processor in two phases: it takes the bytes of an instruction from the queue, and then it runs
bus cycles, jumps, and steers itself. A relation that keeps the second phase needs to say of bus cycles only what
`State.runCycle` leaves, so it may speak of cycles that do not start (20_memory.md R47, 42_bus_control.md R115). -/

namespace Sys2Proof.Machine

/-- What a processor's preparation comes to (10_state.md R19): the instruction just taken is run. -/
def Prepared.outcome : Prepared → Host.Outcome State Fault Refusal
  | .run i s => exec i s
  | .done o => o

theorem turnOf_eq_outcome (s : State) : turnOf s = s.prepare.outcome := by
  unfold turnOf Prepared.outcome
  cases s.prepare <;> rfl

/-- A relation that the parts of an instruction or entry keep, each bus cycle taken as a whole. `control` covers the
fields that only steer execution. -/
structure ExecClosed (R : State → State → Prop) : Prop where
  refl : ∀ s, R s s
  trans : ∀ {a b c}, R a b → R b c → R a c
  control : ∀ (s : State) micro latch turn boundary waiting halted lockActive intInhibit nmiPending,
    R s { s with
      micro := micro, latch := latch, turn := turn, boundary := boundary, waiting := waiting, halted := halted
      lockActive := lockActive, intInhibit := intInhibit, nmiPending := nmiPending }
  setsSp : ∀ (s : State) v, R s (s.setSp v)
  setsFlags : ∀ (s : State) f, R s { s with flags := f }
  jumps : ∀ (s : State) cs ip, R s { s with cs := cs, ip := ip }.flushQueue
  cycle : ∀ {s t : State} {c}, (s.runCycle c).Leaves t → R s t

namespace ExecClosed

variable {R : State → State → Prop} (hR : ExecClosed R)
include hR

theorem latched (s : State) (l : List Byte) : R s { s with latch := l } :=
  hR.control s s.micro l s.turn s.boundary s.waiting s.halted s.lockActive s.intInhibit s.nmiPending

theorem parks (s : State) (ms : List Micro) : R s { s with micro := ms } :=
  hR.control s ms s.latch s.turn s.boundary s.waiting s.halted s.lockActive s.intInhibit s.nmiPending

theorem endInstr (s : State) (b : Bool) : R s (s.endInstr b) := hR.control ..

theorem doMicro {s t : State} {m : Micro} (h : (s.doMicro m).Leaves t) : R s t := by
  cases m <;> simp only [State.doMicro, MicroRes.leaves_ok, MicroRes.leaves_refused] at h
  case cycle c => exact hR.cycle h
  case setSp v => subst h; exact hR.setsSp s v
  case clearIfTf => subst h; exact hR.setsFlags s _
  case enterHandler =>
    subst h
    exact hR.trans (hR.control s s.micro [] s.turn s.boundary false false s.lockActive s.intInhibit s.nmiPending)
      (hR.jumps ..)
  case leaveHandler =>
    subst h
    exact hR.trans (hR.trans (hR.setsFlags s _) (hR.latched _ [])) (hR.jumps ..)
  all_goals subst h; exact hR.control ..

theorem runMicros {ms : List Micro} {s t : State} (h : (runMicros ms s).Leaves t) : R s t := by
  induction ms generalizing s with
  | nil =>
    rw [Sys2Proof.Machine.runMicros, MicroRes.leaves_ok] at h
    subst h
    exact hR.refl s
  | cons m ms ih =>
    rw [Sys2Proof.Machine.runMicros] at h
    split at h
    · exact hR.trans (hR.doMicro (.inl ‹_›)) (ih h)
    · rw [MicroRes.leaves_parked] at h
      subst h
      exact hR.trans (hR.doMicro (.inr ‹_›)) (hR.parks ..)
    · exact absurd h MicroRes.leaves_refused

theorem start {ms : List Micro} {s t : State} (h : s.start ms = .next t) : R s t :=
  hR.trans (hR.latched s []) (hR.runMicros (MicroRes.toOutcome_next.1 h))

theorem resume {s t : State} (h : s.resume = .next t) : R s t :=
  hR.trans (hR.parks s []) (hR.runMicros (MicroRes.toOutcome_next.1 h))

theorem exec {i : Instr} {s t : State} (h : exec i s = .next t) : R s t := by
  cases i <;> simp only [Sys2Proof.Machine.exec] at h
  case lock =>
    unfold execLock at h
    split at h <;> cases h
    exact hR.control ..
  case nop => cases h; exact hR.endInstr s _
  case wait =>
    unfold execWait at h
    split at h <;> cases h <;> exact hR.control ..
  case int3 => exact hR.start h
  case intN n => exact hR.start h
  case into =>
    unfold execInto at h
    split at h
    · exact hR.start h
    · cases h; exact hR.endInstr s _
  case iret => exact hR.start h
  case hlt => exact hR.start h
  case cli => cases h; exact hR.trans (hR.setsFlags s _) (hR.endInstr _ _)
  case sti => cases h; exact hR.trans (hR.setsFlags s { s.flags with ifl := true }) (hR.control ..)

theorem takeInterrupt {n : Nat} {ip : Word} {s t : State} (h : s.takeInterrupt n ip = .next t) : R s t := by
  unfold State.takeInterrupt at h
  refine hR.trans ?_ (hR.start h)
  split
  · exact hR.control ..
  · exact hR.refl s

theorem idleTurn {s t : State} (h : s.idleTurn = .next t) : R s t := by
  have left : R s s.leaveIdle.1 := by
    unfold State.leaveIdle
    split <;> exact hR.control ..
  unfold State.idleTurn at h
  split at h
  · cases h; exact hR.control ..
  · split at h
    · exact hR.trans left (hR.takeInterrupt h)
    · split at h
      · exact hR.trans left (hR.start h)
      · cases h; exact hR.refl s

end ExecClosed

/-- From `s` to `t` at most `k` bytes have been taken, of one instruction (R67, R69). -/
def State.Fetches (s : State) (k : Nat) (t : State) : Prop :=
  fetchInstr k s = .done (.next t) ∨ ∃ i, fetchInstr k s = .run i t

theorem State.Fetches.eq_of_zero {s t : State} (h : s.Fetches 0 t) : t = s := by
  simpa [State.Fetches, fetchInstr, eq_comm] using h

/-- A byte is waited for; or it is taken, and completes the instruction or not. -/
theorem State.Fetches.cases_succ {s t : State} {k : Nat} (h : s.Fetches (k + 1) t) :
    s.takeNext = .parked t ∨ ∃ u, s.takeNext = .ok u ∧ (t = { u with opbuf := [] } ∨ u.Fetches k t) := by
  unfold State.Fetches at h
  simp only [fetchInstr] at h
  split at h
  · simp at h
  · simp only [Prepared.done.injEq, Host.Outcome.next.injEq, reduceCtorEq, exists_false, or_false] at h
    subst h
    exact .inl ‹_›
  · refine .inr ⟨_, ‹_›, ?_⟩
    split at h
    · simp only [reduceCtorEq, false_or, Prepared.run.injEq] at h
      obtain ⟨i, -, rfl⟩ := h
      exact .inl rfl
    · exact .inr h
    · simp at h

namespace ExecClosed

variable {R : State → State → Prop} (hR : ExecClosed R)
include hR

theorem fetched {s t : State} (h : (fetchInstr maxInstrBytes s).outcome = .next t) :
    ∃ u, s.Fetches maxInstrBytes u ∧ R u t := by
  generalize hp : fetchInstr maxInstrBytes s = p at h
  cases p with
  | run i u => exact ⟨u, .inr ⟨i, hp⟩, hR.exec h⟩
  | done o =>
    obtain rfl : o = .next t := h
    exact ⟨t, .inl hp, hR.refl t⟩

theorem proceed {s t : State} (h : s.proceed.outcome = .next t) :
    R s t ∨ ∃ b u, { s with boundary := b }.Fetches maxInstrBytes u ∧ R u t := by
  unfold State.proceed at h
  split at h
  · exact .inl (hR.resume h)
  · split at h
    · exact .inl (hR.idleTurn h)
    · split at h
      · exact .inr ⟨s.boundary, hR.fetched h⟩
      · have left : R s { s with boundary := none } := hR.control s s.micro s.latch s.turn none s.waiting s.halted
          s.lockActive s.intInhibit s.nmiPending
        dsimp only at h
        split at h
        · cases h
        · exact .inl (hR.trans left (hR.takeInterrupt h))
        · exact .inl (hR.trans left (hR.start h))
        · exact .inr ⟨none, hR.fetched h⟩

/-- A move of the processor: nothing; or, once a code access in progress has ended, the parts of an instruction or
entry, with the bytes of an instruction taken before them or not. -/
theorem turnOf {s t : State} (h : turnOf s = .next t) :
    t = s ∨ ∃ u, s.afterWait = some u ∧
      (R u t ∨ ∃ b v, { u with boundary := b }.Fetches maxInstrBytes v ∧ R v t) := by
  rw [turnOf_eq_outcome, State.prepare] at h
  split at h
  · cases h
    exact .inl rfl
  · split at h
    · cases h
      exact .inl rfl
    · exact .inr ⟨_, ‹_›, hR.proceed h⟩

end ExecClosed

end Sys2Proof.Machine

/-! The queue status of a step (10_state.md R29; 41_status_signals.md R101, R102): a move of the processor takes
bytes from the queue, then it may empty the queue; and where it has emptied it, the queue is empty at its end. -/

namespace Sys2Proof.Machine

/-! ### What a bus cycle leaves alone -/

/-- `CS:IP`, the bytes of the current instruction and the queue status history are as before. -/
structure State.KeepsCode (s t : State) : Prop where
  cfg : t.cfg = s.cfg
  cs : t.cs = s.cs
  ip : t.ip = s.ip
  opbuf : t.opbuf = s.opbuf
  qsHistory : t.qsHistory = s.qsHistory

theorem State.KeepsCode.refl (s : State) : s.KeepsCode s := ⟨rfl, rfl, rfl, rfl, rfl⟩

theorem State.KeepsCode.trans {a b c : State} (hab : a.KeepsCode b) (hbc : b.KeepsCode c) : a.KeepsCode c :=
  ⟨hbc.cfg.trans hab.cfg, hbc.cs.trans hab.cs, hbc.ip.trans hab.ip, hbc.opbuf.trans hab.opbuf,
    hbc.qsHistory.trans hab.qsHistory⟩

/-- No byte has been taken and no jump made; and the queue stays as it is unless a code access was in progress. -/
structure State.NoJump (s t : State) : Prop extends State.KeepsCode s t where
  queue : s.fetching = false → t.fetching = false ∧ t.queue = s.queue ∧ t.fetchOff = s.fetchOff

namespace State.NoJump

theorem of_same {s t : State} (h : s.KeepsCode t) (hf : t.fetching = s.fetching) (hq : t.queue = s.queue)
    (ho : t.fetchOff = s.fetchOff) : s.NoJump t :=
  ⟨h, fun h => ⟨hf.trans h, hq, ho⟩⟩

theorem refl (s : State) : s.NoJump s := .of_same (.refl s) rfl rfl rfl

theorem trans {a b c : State} (hab : a.NoJump b) (hbc : b.NoJump c) : a.NoJump c where
  toKeepsCode := hab.toKeepsCode.trans hbc.toKeepsCode
  queue h := by
    obtain ⟨hf, hq, ho⟩ := hab.queue h
    obtain ⟨hf', hq', ho'⟩ := hbc.queue hf
    exact ⟨hf', hq'.trans hq, ho'.trans ho⟩

theorem completeData {s t : State} {c : Cycle} (h : (s.completeData c).Leaves t) : s.NoJump t := by
  unfold State.completeData at h
  split at h
  · rw [MicroRes.leaves_ok] at h
    subst h
    exact .of_same ⟨rfl, rfl, rfl, rfl, rfl⟩ rfl rfl rfl
  · split at h
    · exact absurd h MicroRes.leaves_refused
    · rw [MicroRes.leaves_ok] at h
      subst h
      exact .of_same ⟨s.storeBytes_cfg .., s.storeBytes_cs .., s.storeBytes_ip .., s.storeBytes_opbuf ..,
        s.storeBytes_qsHistory ..⟩ (by simp [State.fetching, State.logCycle]) (s.storeBytes_queue ..)
        (s.storeBytes_fetchOff ..)
  · split at h <;> rw [MicroRes.leaves_ok] at h <;> subst h <;>
      exact .of_same ⟨rfl, rfl, rfl, rfl, rfl⟩ rfl rfl rfl
  · rw [MicroRes.leaves_ok] at h
    subst h
    exact .of_same ⟨rfl, rfl, rfl, rfl, rfl⟩ rfl rfl rfl

theorem endData {s t : State} {c : Cycle} (h : (s.endData c).Leaves t) : s.NoJump t := by
  unfold State.endData at h
  split at h
  · have hfree : s.NoJump { s with busy := none } := ⟨⟨rfl, rfl, rfl, rfl, rfl⟩, fun _ => ⟨rfl, rfl, rfl⟩⟩
    exact hfree.trans (completeData h)
  · rw [MicroRes.leaves_parked] at h
    subst h
    exact ⟨⟨rfl, rfl, rfl, rfl, rfl⟩, fun _ => ⟨rfl, rfl, rfl⟩⟩

theorem startData {s t : State} {c : Cycle} (h : (s.startData c).Leaves t) : s.NoJump t := by
  unfold State.startData at h
  split at h
  · have hspend : s.NoJump s.spend := .of_same ⟨rfl, rfl, rfl, rfl, rfl⟩ rfl rfl rfl
    exact hspend.trans (endData h)
  · rw [MicroRes.leaves_parked] at h
    subst h
    exact .refl s

end State.NoJump

/-- A code access, ended or held, reports nothing and leaves `CS:IP` alone. -/
theorem State.KeepsCode.endFetch {s t : State} (h : s.endFetch.Leaves t) : s.KeepsCode t := by
  unfold State.endFetch at h
  split at h <;> simp only [MicroRes.leaves_ok, MicroRes.leaves_parked] at h <;> subst h <;>
    exact ⟨rfl, rfl, rfl, rfl, rfl⟩

theorem State.NoJump.runCycle {s t : State} {c : Cycle} (h : (s.runCycle c).Leaves t) : s.NoJump t := by
  have fetched : ∀ {u : State}, s.busy = some .fetch → s.endFetch.Leaves u → s.NoJump u :=
    fun hb hu => ⟨.endFetch hu, fun hf => by simp [State.fetching, hb] at hf⟩
  unfold State.runCycle at h
  split at h
  · exact .startData h
  · exact .endData h
  · rename_i hb
    split at h
    · rename_i u hu
      exact (fetched hb (.inl hu)).trans (.startData h)
    · rename_i u hu
      rw [MicroRes.leaves_parked] at h
      subst h
      exact fetched hb (.inr hu)
    · exact absurd h MicroRes.leaves_refused

/-! ### Emptying the queue -/

/-- The queue is empty, the next fetch is at `IP`, and no code access is in progress. -/
def State.Flushed (s : State) : Prop := s.queue = [] ∧ s.fetchOff = s.ip ∧ s.fetching = false

/-- From `s` to `t` the queue has been emptied `n` times, each time reported once (R29, R102), and no byte has been
taken; after an emptying nothing is fetched. -/
structure State.Emptied (s t : State) (n : Nat) : Prop where
  cfg : t.cfg = s.cfg
  reports : t.qsHistory = s.qsHistory ++ s.qsReports (List.replicate n .flush)
  stays : n = 0 → t.ip = s.ip ∧ t.cs = s.cs
  flushed : n ≠ 0 ∨ s.Flushed → t.Flushed

/-- What the queue status history gains depends on the mode. -/
theorem State.qsReports_congr {s t : State} (h : t.cfg = s.cfg) (ops : List QueueOp) :
    t.qsReports ops = s.qsReports ops := by
  rw [State.qsReports, State.qsReports, h]

@[simp] theorem State.qsReports_nil (s : State) : s.qsReports [] = [] := by
  unfold State.qsReports
  split <;> rfl

namespace State.Emptied

/-- Without a jump nothing is emptied. -/
theorem of_noJump {s t : State} (h : s.NoJump t) : s.Emptied t 0 where
  cfg := h.cfg
  reports := by simp [h.qsHistory]
  stays _ := ⟨h.ip, h.cs⟩
  flushed hs := by
    obtain ⟨hq, ho, hf⟩ := hs.resolve_left (by simp)
    obtain ⟨hf', hq', ho'⟩ := h.queue hf
    exact ⟨hq'.trans hq, by rw [ho', ho, h.ip], hf'⟩

/-- A change of the fields that only steer execution. -/
theorem of_steered {s t : State} (h : s.KeepsCode t) (hf : t.fetching = s.fetching) (hq : t.queue = s.queue)
    (ho : t.fetchOff = s.fetchOff) : ∃ n, s.Emptied t n :=
  ⟨0, .of_noJump (.of_same h hf hq ho)⟩

/-- A jump empties the queue once (R29). -/
theorem jump {s u : State} (hc : u.cfg = s.cfg) (hh : u.qsHistory = s.qsHistory) : s.Emptied u.flushQueue 1 where
  cfg := by simp [hc]
  reports := by
    rw [State.flushQueue_qsHistory, hh, State.qsReports_congr hc]
    rfl
  stays := nofun
  flushed _ := ⟨by simp, by simp, by simp [State.fetching]⟩

theorem trans {a b c : State} {m n : Nat} (hab : a.Emptied b m) (hbc : b.Emptied c n) : a.Emptied c (m + n) where
  cfg := hbc.cfg.trans hab.cfg
  reports := by
    rw [hbc.reports, hab.reports, State.qsReports_congr hab.cfg, List.append_assoc, ← State.qsReports_append,
      List.replicate_append_replicate]
  stays h := by
    obtain ⟨hi, hs⟩ := hab.stays (by omega)
    obtain ⟨hi', hs'⟩ := hbc.stays (by omega)
    exact ⟨hi'.trans hi, hs'.trans hs⟩
  flushed h := by
    refine hbc.flushed ?_
    by_cases hn : n = 0
    · exact .inr (hab.flushed (h.imp_left fun h => by omega))
    · exact .inl hn

/-- Whatever the parts of an instruction or entry do, they empty the queue some number of times. -/
theorem execClosed : ExecClosed fun s t => ∃ n, s.Emptied t n where
  refl s := of_steered (.refl s) rfl rfl rfl
  trans := by
    rintro a b c ⟨m, hm⟩ ⟨n, hn⟩
    exact ⟨m + n, hm.trans hn⟩
  control _ _ _ _ _ _ _ _ _ _ := of_steered ⟨rfl, rfl, rfl, rfl, rfl⟩ rfl rfl rfl
  setsSp _ _ := of_steered ⟨rfl, rfl, rfl, rfl, rfl⟩ rfl rfl rfl
  setsFlags _ _ := of_steered ⟨rfl, rfl, rfl, rfl, rfl⟩ rfl rfl rfl
  jumps _ _ _ := ⟨1, jump rfl rfl⟩
  cycle h := ⟨0, .of_noJump (.runCycle h)⟩

end State.Emptied

/-! ### Taking bytes -/

/-- What taking `n` bytes reports (R102). -/
def State.takeReports (s : State) (n : Nat) : List QueueOp :=
  (List.range n).map fun k => if s.opbuf = [] ∧ k = 0 then .first else .next

theorem State.takeReports_succ (s : State) (n : Nat) :
    s.takeReports (n + 1) = (if s.opbuf = [] then .first else .next) :: List.replicate n .next := by
  simp [State.takeReports, List.range_succ_eq_map, Function.comp_def]

theorem State.takeReports_of_begun {s : State} (h : s.opbuf ≠ []) (n : Nat) :
    s.takeReports n = List.replicate n .next := by
  simp [State.takeReports, h]

/-- From `s` to `t` `n` bytes have been taken, each reported once (R102), and `IP` has gone with them (R19). -/
structure State.Took (s t : State) (n : Nat) : Prop where
  cfg : t.cfg = s.cfg
  cs : t.cs = s.cs
  ip : t.ip = s.ip + BitVec.ofNat 16 n
  reports : t.qsHistory = s.qsHistory ++ s.qsReports (s.takeReports n)

namespace State.Took

theorem of_keepsCode {s t : State} (h : s.KeepsCode t) : s.Took t 0 :=
  ⟨h.cfg, h.cs, by simp [h.ip], by simp [h.qsHistory, State.takeReports]⟩

/-- What leaves `CS:IP` alone before the first byte changes nothing of it. -/
theorem afterKeepsCode {a b c : State} {n : Nat} (hab : a.KeepsCode b) (h : b.Took c n) : a.Took c n where
  cfg := h.cfg.trans hab.cfg
  cs := h.cs.trans hab.cs
  ip := by rw [h.ip, hab.ip]
  reports := by
    rw [h.reports, hab.qsHistory, State.qsReports_congr hab.cfg]
    simp only [State.takeReports, hab.opbuf]

/-- A byte and then others of the same instruction. -/
theorem cons {a b c : State} {n : Nat} (hab : a.Took b 1) (hb : b.opbuf ≠ []) (hbc : b.Took c n) :
    a.Took c (n + 1) where
  cfg := hbc.cfg.trans hab.cfg
  cs := hbc.cs.trans hab.cs
  ip := by
    rw [hbc.ip, hab.ip, BitVec.ofNat_add]
    ac_rfl
  reports := by
    rw [hbc.reports, hab.reports, State.qsReports_congr hab.cfg, List.append_assoc, ← State.qsReports_append,
      State.takeReports_of_begun hb, State.takeReports_succ, State.takeReports_succ]
    rfl

theorem takeByte (s : State) (b : Byte) (rest : List Host.Cell) : s.Took (s.takeByte b rest) 1 where
  cfg := by simp
  cs := by simp
  ip := by simp
  reports := by rw [s.takeByte_eq, State.takeReports_succ]; rfl

end State.Took

theorem State.KeepsCode.fillQueue {s t : State} (h : s.fillQueue.Leaves t) : s.KeepsCode t := by
  unfold State.fillQueue at h
  split at h
  · rw [MicroRes.leaves_ok] at h
    subst h
    exact .refl s
  · split at h
    · exact .endFetch h
    · rw [MicroRes.leaves_parked] at h
      subst h
      exact .refl s
    · split at h
      · exact State.KeepsCode.trans (b := s.spend) ⟨rfl, rfl, rfl, rfl, rfl⟩ (.endFetch h)
      · rw [MicroRes.leaves_parked] at h
        subst h
        exact .refl s

namespace State.Took

/-- Taking a byte, or waiting for one. -/
theorem takeNext {s t : State} :
    (s.takeNext = .ok t → s.Took t 1 ∧ t.opbuf ≠ []) ∧ (s.takeNext = .parked t → s.Took t 0) := by
  unfold State.takeNext
  split
  · rename_i u hu
    have hk : s.KeepsCode u := .fillQueue (.inl hu)
    split
    · refine ⟨fun h => ?_, nofun⟩
      cases h
      exact ⟨.afterKeepsCode hk (.takeByte ..), by simp⟩
    · refine ⟨nofun, fun h => ?_⟩
      cases h
      exact .of_keepsCode hk
  · rename_i u hu
    refine ⟨nofun, fun h => ?_⟩
    cases h
    exact .of_keepsCode (.fillQueue (.inr hu))
  · exact ⟨nofun, nofun⟩

/-- The bytes of one instruction, or as many of them as there are (R69). -/
theorem fetches {k : Nat} {s t : State} (h : s.Fetches k t) : ∃ n ≤ k, s.Took t n := by
  induction k generalizing s with
  | zero =>
    rw [h.eq_of_zero]
    exact ⟨0, Nat.le_refl 0, .of_keepsCode (.refl s)⟩
  | succ k ih =>
    obtain hwaits | ⟨u, hu, hrest⟩ := h.cases_succ
    · exact ⟨0, Nat.zero_le _, takeNext.2 hwaits⟩
    · obtain ⟨htook, hop⟩ := takeNext.1 hu
      obtain rfl | hrest := hrest
      · exact ⟨1, by omega, htook.cfg, htook.cs, htook.ip, htook.reports⟩
      · obtain ⟨n, hn, hmore⟩ := ih hrest
        exact ⟨n + 1, by omega, htook.cons hop hmore⟩

end State.Took

/-! ### A step -/

/-- From `s` to `t` `taken` bytes of one instruction have been taken, and then the queue has been emptied `emptied`
times. -/
def State.Moved (s t : State) (taken emptied : Nat) : Prop :=
  taken ≤ maxInstrBytes ∧ ∃ u : State, s.Took u taken ∧ u.Emptied t emptied

namespace State.Moved

theorem of_keepsCode {s t : State} (h : s.KeepsCode t) : ∃ k n, s.Moved t k n :=
  ⟨0, 0, Nat.zero_le _, t, .of_keepsCode h, .of_noJump (.refl t)⟩

/-- What leaves `CS:IP` alone before the first byte changes nothing of it. -/
theorem afterKeepsCode {a b c : State} (hab : a.KeepsCode b) (h : ∃ k n, b.Moved c k n) :
    ∃ k n, a.Moved c k n := by
  obtain ⟨k, n, hk, u, hu, hn⟩ := h
  exact ⟨k, n, hk, u, .afterKeepsCode hab hu, hn⟩

end State.Moved

/-- Ending a code access before going on leaves `CS:IP` alone. -/
theorem State.KeepsCode.afterWait {s t : State} (h : s.afterWait = some t) : s.KeepsCode t := by
  unfold State.afterWait at h
  split at h
  · cases h
    exact .refl s
  · split at h <;> cases h
    exact .refl s
  · split at h <;> cases h
    exact ⟨rfl, rfl, rfl, rfl, rfl⟩

/-- The environment touches neither `CS:IP` nor the queue status. -/
theorem State.KeepsCode.envAct {s t : State} {e : EnvAct} (hn : ∀ level, e ≠ .pin .reset level)
    (h : s.envAct e = .next t) : s.KeepsCode t := by
  obtain ⟨level, hr, -⟩ | ⟨p, level, -, -, pins, nmi, rfl⟩ | ⟨b, -, rfl⟩ | ⟨l, -, -, -, rfl⟩ | ⟨l, -, -, rfl⟩ |
    ⟨k, pa, w, d, -, -, ⟨-, -, rfl⟩ | ⟨-, rfl⟩⟩ := envAct_cases h
  · exact absurd hr (hn level)
  · exact ⟨rfl, rfl, rfl, rfl, rfl⟩
  · exact ⟨rfl, rfl, rfl, rfl, rfl⟩
  · cases l <;> exact ⟨rfl, rfl, rfl, rfl, rfl⟩
  · exact ⟨rfl, rfl, rfl, rfl, rfl⟩
  · exact ⟨by simp, by simp, by simp, by simp, by simp⟩
  · exact ⟨rfl, rfl, rfl, rfl, rfl⟩

/-- Nor does the bus interface. -/
theorem State.KeepsCode.busStep {s t : State} {b : BusAct} (h : s.busStep b = some (.next t)) : s.KeepsCode t := by
  obtain ⟨-, he⟩ | ⟨-, rfl⟩ | ⟨-, rfl⟩ | ⟨l, -, rfl⟩ := busStep_cases h
  · exact .endFetch he
  · exact ⟨rfl, rfl, rfl, rfl, rfl⟩
  · exact ⟨rfl, rfl, rfl, rfl, rfl⟩
  · cases l <;> exact ⟨rfl, rfl, rfl, rfl, rfl⟩

namespace State.Moved

/-- A move of the processor takes the bytes and then does the rest. -/
theorem turnOf {s t : State} (h : turnOf s = .next t) : ∃ k n, s.Moved t k n := by
  obtain rfl | ⟨u, hu, ⟨n, hn⟩ | ⟨b, v, hv, n, hn⟩⟩ := State.Emptied.execClosed.turnOf h
  · exact of_keepsCode (.refl t)
  · exact ⟨0, n, Nat.zero_le _, u, .of_keepsCode (.afterWait hu), hn⟩
  · obtain ⟨k, hk, htook⟩ := State.Took.fetches hv
    have hfree : s.KeepsCode { u with boundary := b } :=
      (State.KeepsCode.afterWait hu).trans ⟨rfl, rfl, rfl, rfl, rfl⟩
    exact ⟨k, n, hk, v, .afterKeepsCode hfree htook, hn⟩

/-- Every step that does not move the RESET pin takes bytes of one instruction at most, and then it may empty the
queue. -/
theorem step {s t : State} (hn : s.NoResetNext) (h : step s = .next t) : ∃ k n, s.Moved t k n := by
  obtain ⟨rest, tn, ht, -⟩ | ⟨b, rest, hb, -⟩ | ⟨e, rest, hs, he⟩ := step_cases h
  · exact afterKeepsCode (b := { s with script := rest, turn := tn }) ⟨rfl, rfl, rfl, rfl, rfl⟩ (turnOf ht)
  · exact afterKeepsCode (b := { s with script := rest }) ⟨rfl, rfl, rfl, rfl, rfl⟩ (of_keepsCode (.busStep hb))
  · refine afterKeepsCode (b := { s with script := rest }) ⟨rfl, rfl, rfl, rfl, rfl⟩
      (of_keepsCode (.envAct (fun level hl => hn level rest ?_) he))
    rw [hs, hl]

end State.Moved

/-- Settles O10: the counts are those of `State.Moved`. -/
theorem queueStatusOfAStep : Obligations.QueueStatusOfAStep := by
  intro s t hn h
  obtain ⟨taken, emptied, hle, u, htook, hemptied⟩ := State.Moved.step hn h
  refine ⟨taken, emptied, hle, ?_, fun he => ?_⟩
  · rw [hemptied.reports, htook.reports, State.qsReports_congr htook.cfg, List.append_assoc,
      ← State.qsReports_append]
    rfl
  · obtain ⟨hi, hs⟩ := hemptied.stays he
    exact ⟨hi.trans htook.ip, hs.trans htook.cs⟩

/-- A move of the RESET pin keeps `CS` or starts a run with an empty queue (R39, R162). -/
theorem State.resetPin_cs (s : State) (level : Bool) :
    (s.resetPin level).cs = s.cs ∨
      (s.resetPin level).queue = [] ∧ (s.resetPin level).fetchOff = (s.resetPin level).ip := by
  unfold State.resetPin
  dsimp only
  split
  · exact .inl rfl
  · split <;> exact .inr ⟨rfl, rfl⟩

/-- Settles O9: only an emptying changes `CS`, and after the last one of a step nothing is fetched. -/
theorem codeSegmentChangeEmptiesQueue : Obligations.CodeSegmentChangeEmptiesQueue := by
  intro s t h hcs
  obtain hn | ⟨level, rest, hscript⟩ := s.noResetNext_or
  · obtain ⟨taken, emptied, -, u, htook, hemptied⟩ := State.Moved.step hn h
    have hne : emptied ≠ 0 := fun he => hcs ((hemptied.stays he).2.trans htook.cs)
    obtain ⟨hq, ho, -⟩ := hemptied.flushed (.inl hne)
    exact ⟨hq, ho⟩
  · rw [step_reset hscript] at h
    cases h
    exact (State.resetPin_cs { s with script := rest } level).resolve_left hcs

end Sys2Proof.Machine

/-! While another master owns the bus (10_state.md R34; 20_memory.md R47; 42_bus_control.md R115): the processor can
start no bus cycle, so it waits at the first one it needs. -/

namespace Sys2Proof.Machine

/-- Another master owns the bus, and no bus cycle of the processor is in progress. -/
def State.BusAway (s : State) : Prop := s.busOwner ≠ .cpu ∧ s.busy = none

theorem State.BusAway.mayStart {s : State} (h : s.BusAway) : s.mayStart = false := by
  simp [State.mayStart, h.1]

/-- A bus cycle has to wait. -/
theorem State.BusAway.runCycle {s : State} (h : s.BusAway) (c : Cycle) : s.runCycle c = .parked s := by
  simp [State.runCycle, h.2, State.startData, h.mayStart]

/-- No bus cycle has been run: of the history, memory, the queue and the bus, the queue alone may have lost bytes. -/
structure State.RunsNoCycle (s t : State) : Prop where
  history : t.history = s.history
  mem : t.mem = s.mem
  queue : t.queue <:+ s.queue
  busOwner : t.busOwner = s.busOwner
  busy : s.busy = none → t.busy = none

namespace State.RunsNoCycle

theorem of_same {s t : State} (hh : t.history = s.history) (hm : t.mem = s.mem) (hq : t.queue = s.queue)
    (ho : t.busOwner = s.busOwner) (hb : t.busy = s.busy) : s.RunsNoCycle t :=
  ⟨hh, hm, hq ▸ List.suffix_refl _, ho, fun h => hb.trans h⟩

theorem refl (s : State) : s.RunsNoCycle s := .of_same rfl rfl rfl rfl rfl

theorem trans {a b c : State} (hab : a.RunsNoCycle b) (hbc : b.RunsNoCycle c) : a.RunsNoCycle c :=
  ⟨hbc.history.trans hab.history, hbc.mem.trans hab.mem, hbc.queue.trans hab.queue,
    hbc.busOwner.trans hab.busOwner, hbc.busy ∘ hab.busy⟩

theorem busAway {s t : State} (h : s.RunsNoCycle t) (ha : s.BusAway) : t.BusAway :=
  ⟨h.busOwner ▸ ha.1, h.busy ha.2⟩

/-- The parts of an instruction or entry run no bus cycle while the bus is away: each one waits. -/
theorem execClosed : ExecClosed fun s t => s.BusAway → s.RunsNoCycle t where
  refl s _ := .refl s
  trans hab hbc ha := (hab ha).trans (hbc ((hab ha).busAway ha))
  control _ _ _ _ _ _ _ _ _ _ _ := .of_same rfl rfl rfl rfl rfl
  setsSp _ _ _ := .of_same rfl rfl rfl rfl rfl
  setsFlags _ _ _ := .of_same rfl rfl rfl rfl rfl
  jumps _ _ _ _ := ⟨by simp, by simp, by simp, by simp, by simp⟩
  cycle h ha := by
    rw [ha.runCycle, MicroRes.leaves_parked] at h
    subst h
    exact .refl _

/-- A byte is taken from the queue or waited for; there is no code access for it. -/
theorem takeNext {s t : State} (ha : s.BusAway) (h : s.takeNext.Leaves t) : s.RunsNoCycle t := by
  cases hq : s.queue with
  | nil =>
    simp only [State.takeNext, State.fillQueue, hq, ha.2, ha.mayStart, Bool.false_and, Bool.false_eq_true, if_false,
      MicroRes.leaves_parked] at h
    subst h
    exact .refl s
  | cons q rest =>
    simp only [State.takeNext, State.fillQueue, hq, MicroRes.leaves_ok] at h
    subst h
    exact ⟨by simp, by simp, by simp [hq], by simp, by simp⟩

theorem fetches {k : Nat} {s t : State} (ha : s.BusAway) (h : s.Fetches k t) : s.RunsNoCycle t := by
  induction k generalizing s with
  | zero =>
    rw [h.eq_of_zero]
    exact .refl s
  | succ k ih =>
    obtain hwaits | ⟨u, hu, hrest⟩ := h.cases_succ
    · exact takeNext ha (.inr hwaits)
    · have htaken := takeNext ha (.inl hu)
      obtain rfl | hrest := hrest
      · exact htaken.trans (.of_same rfl rfl rfl rfl rfl)
      · exact htaken.trans (ih (htaken.busAway ha) hrest)

/-- A move of the processor, its fetch included. -/
theorem turnOf {s t : State} (ha : s.BusAway) (h : turnOf s = .next t) : s.RunsNoCycle t := by
  obtain rfl | ⟨u, hu, hmove⟩ := execClosed.turnOf h
  · exact .refl t
  · have hus : u = s := by
      rw [State.afterWait, ha.2] at hu
      exact (Option.some.inj hu).symm
    subst hus
    obtain hmove | ⟨b, v, hv, hmove⟩ := hmove
    · exact hmove ha
    · have hfetched := fetches (s := { u with boundary := b }) ha hv
      exact State.RunsNoCycle.trans (b := { u with boundary := b }) (.of_same rfl rfl rfl rfl rfl)
        (hfetched.trans (hmove (hfetched.busAway ha)))

end State.RunsNoCycle

/-! ### An instruction jumps only after a bus cycle -/

/-- The first bus cycle or refusal comes before the first jump. -/
def WaitsBeforeJump : List Micro → Prop
  | [] => True
  | m :: ms =>
    match m with
    | .cycle _ => True
    | .refuse _ => True
    | .enterHandler => False
    | .leaveHandler => False
    | _ => WaitsBeforeJump ms

/-- While the bus is away such parts leave the queue alone. -/
theorem runMicros_queue_of_busAway {ms : List Micro} {s t : State} (ha : s.BusAway) (hw : WaitsBeforeJump ms)
    (h : (runMicros ms s).Leaves t) : t.queue = s.queue := by
  induction ms generalizing s with
  | nil =>
    rw [runMicros, MicroRes.leaves_ok] at h
    rw [h]
  | cons m ms ih =>
    cases m <;> simp only [runMicros, State.doMicro, ha.runCycle, MicroRes.leaves_parked] at h
    case cycle c => rw [← h]
    case enterHandler => exact hw.elim
    case leaveHandler => exact hw.elim
    case refuse r => exact absurd h MicroRes.leaves_refused
    all_goals exact (ih (by exact ha) hw h).trans rfl

/-- A word access to the stack begins with a bus cycle or a refusal. -/
theorem State.stackWord_waits (s : State) (kind : CycleKind) (off v : Word) (ms : List Micro) :
    WaitsBeforeJump (s.stackWord kind off v ++ ms) := by
  unfold State.stackWord wordCycles
  split
  · trivial
  · split <;> trivial

theorem State.vectorRead_waits (s : State) (pa : Addr) (ms : List Micro) :
    WaitsBeforeJump (s.vectorRead pa ++ ms) := by
  unfold State.vectorRead wordCycles
  split <;> trivial

/-- Whatever order the turn gives, an entry jumps only after its first bus cycle or refusal. -/
theorem State.interruptEntry_waits (s : State) (n : Nat) (ip : Word) (ms : List Micro) :
    WaitsBeforeJump (s.interruptEntry n ip ++ ms) := by
  unfold State.interruptEntry
  split
  · trivial
  · simp only [mergeEntry, List.append_assoc]
    cases s.turn.order.first with
    | zero => exact s.vectorRead_waits _ _
    | succ k =>
      simp only [List.take_succ_cons, List.flatten_cons, State.pushOps, List.cons_append, List.append_assoc]
      exact s.stackWord_waits ..

/-- No instruction touches the queue while the bus is away. -/
theorem exec_queue_of_busAway {i : Instr} {s t : State} (ha : s.BusAway) (h : exec i s = .next t) :
    t.queue = s.queue := by
  have started : ∀ {ms : List Micro}, WaitsBeforeJump ms → s.start ms = .next t → t.queue = s.queue :=
    fun hw h => runMicros_queue_of_busAway (s := { s with latch := [] }) ha hw (MicroRes.toOutcome_next.1 h)
  cases i <;> simp only [exec] at h
  case lock =>
    unfold execLock at h
    split at h <;> cases h
    rfl
  case wait =>
    unfold execWait at h
    split at h <;> cases h <;> rfl
  case int3 => exact started (s.interruptEntry_waits ..) h
  case intN n => exact started (s.interruptEntry_waits ..) h
  case into =>
    unfold execInto at h
    split at h
    · exact started (s.interruptEntry_waits ..) h
    · cases h; rfl
  case iret =>
    refine started ?_ h
    simp only [State.interruptReturn, State.popOps, List.append_assoc]
    exact s.stackWord_waits ..
  case hlt => exact started (ms := [.cycle haltCycle, .enterHalt]) trivial h
  all_goals cases h; rfl

/-! ### A step of any agent -/

/-- The bus interface fetches nothing while the bus is away. -/
theorem State.busStep_history_of_busAway {s t : State} {b : BusAct} (ha : s.BusAway)
    (h : s.busStep b = some (.next t)) : t.history = s.history := by
  have hfetch : s.codeFetch = none := by
    simp [State.codeFetch, State.fetching, State.canPrefetch, ha.1, ha.2]
  unfold State.busStep at h
  split at h
  · cases h
  · split at h
    · rw [hfetch] at h
      cases h
    · split at h <;> cases h
      rfl
    · split at h <;> cases h
      rfl
    · split at h <;> cases h
      rename_i l _
      cases l <;> rfl

/-- The environment's bus cycles are those of the master that owns the bus (R124). -/
theorem State.envAct_history_of_busAway {s t : State} {e : EnvAct} (ha : s.BusAway)
    (hn : ∀ level, e ≠ .pin .reset level) (h : s.envAct e = .next t) :
    ∃ recs, t.history = s.history ++ recs ∧ ∀ r ∈ recs, r.master ≠ .cpu := by
  have same : ∀ {u : State}, u.history = s.history →
      ∃ recs, u.history = s.history ++ recs ∧ ∀ r ∈ recs, r.master ≠ .cpu :=
    fun hu => ⟨[], by simpa using hu, by simp⟩
  obtain ⟨level, hr, -⟩ | ⟨p, level, -, -, pins, nmi, rfl⟩ | ⟨b, -, rfl⟩ | ⟨l, -, -, -, rfl⟩ | ⟨l, -, -, rfl⟩ |
    ⟨k, pa, w, d, -, -, ⟨-, -, rfl⟩ | ⟨-, rfl⟩⟩ := envAct_cases h
  · exact absurd hr (hn level)
  · exact same rfl
  · exact same rfl
  · cases l <;> exact same rfl
  · exact same rfl
  · exact ⟨[_], by rw [State.logMaster, State.storeBytes_history], by simpa using ha.1⟩
  · exact ⟨[_], rfl, by simpa using ha.1⟩

/-- Settles O19: `State.RunsNoCycle` for the processor, `WaitsBeforeJump` for the queue of an instruction, and the
other agents by their own steps. -/
theorem noCycleWithoutTheBus : Obligations.NoCycleWithoutTheBus := by
  refine ⟨fun i s t ho hb h => ?instruction, fun s t ho hb h => ?move, fun s t ho hb hn h => ?step⟩
  case instruction =>
    have hr := State.RunsNoCycle.execClosed.exec h ⟨ho, hb⟩
    exact ⟨hr.history, hr.mem, exec_queue_of_busAway ⟨ho, hb⟩ h, hr.busOwner⟩
  case move =>
    have hr := State.RunsNoCycle.turnOf ⟨ho, hb⟩ h
    exact ⟨hr.history, hr.mem, hr.queue, hr.busOwner⟩
  case step =>
    obtain ⟨rest, tn, ht, -⟩ | ⟨b, rest, hbus, -⟩ | ⟨e, rest, hs, he⟩ := step_cases h
    · have hr := State.RunsNoCycle.turnOf (s := { s with script := rest, turn := tn }) ⟨ho, hb⟩ ht
      exact ⟨[], by simpa using hr.history, by simp⟩
    · have hh := State.busStep_history_of_busAway (s := { s with script := rest }) ⟨ho, hb⟩ hbus
      exact ⟨[], by simpa using hh, by simp⟩
    · refine State.envAct_history_of_busAway (s := { s with script := rest }) ⟨ho, hb⟩ (fun level hl => ?_) he
      exact hn level rest (by rw [hs, hl])

end Sys2Proof.Machine

/-! The flags image (10_state.md R23; 45_interrupt_instructions.md R134), the flag instructions
(43_flag_instructions.md R125, R126), and two moves of the input pins: the release of RESET (10_state.md R39,
70_reset_and_hazards.md R162) and an edge on `NMI` (60_exceptions.md R142). -/

namespace Sys2Proof.Machine

/-! ### The flags image -/

/-- One flag stands at its bit of the image and nowhere else. -/
theorem flagBit_getLsbD (b : Bool) (k i : Nat) (hi : i < 16) : (flagBit b k).getLsbD i = (b && decide (i = k)) := by
  simp only [flagBit, BitVec.getLsbD_shiftLeft, BitVec.getLsbD_setWidth, BitVec.getLsbD_ofBool, hi, decide_true,
    Bool.true_and]
  by_cases h : i = k
  · subst h
    cases b <;> simp
  · by_cases hlt : i < k
    · simp [hlt, h]
    · have hne : i - k ≠ 0 := by omega
      simp [hne, h]

/-- A word that is 0 at the nine flag bits has none of them. -/
theorem getLsbD_of_masked {w : Word} (h : w &&& 0x0FD5#16 = 0#16) {k : Nat} (hk : (0x0FD5#16).getLsbD k = true) :
    w.getLsbD k = false := by
  have hbit := congrArg (·.getLsbD k) h
  simpa [hk] using hbit

/-- Each flag is read back from the image, whatever its other bits are (R23, R134). -/
theorem Flags.ofImage_image (f : Flags) {fixed : Word} (h : fixed &&& 0x0FD5#16 = 0#16) :
    Flags.ofImage (f.image fixed) = f := by
  have hbit : ∀ {k}, (0x0FD5#16).getLsbD k = true → fixed.getLsbD k = false := getLsbD_of_masked h
  simp only [Flags.ofImage, Flags.image, BitVec.getLsbD_or, flagBit_getLsbD, Nat.reduceLT]
  simp (disch := decide) only [hbit]
  simp

/-- The bits that hold no flag are not read back (R134). -/
theorem Flags.ofImage_xor (w : Word) {junk : Word} (h : junk &&& 0x0FD5#16 = 0#16) :
    Flags.ofImage (w ^^^ junk) = Flags.ofImage w := by
  have hbit : ∀ {k}, (0x0FD5#16).getLsbD k = true → junk.getLsbD k = false := getLsbD_of_masked h
  simp only [Flags.ofImage, BitVec.getLsbD_xor]
  simp (disch := decide) only [hbit, Bool.xor_false]

/-- A bit that holds no flag is that of `FLAGS_FIXED` (R23). -/
theorem Flags.image_getLsbD_unused (f : Flags) (fixed : Word) {k : Nat} (hk : k < 16)
    (hm : (0x0FD5#16).getLsbD k = false) : (f.image fixed).getLsbD k = fixed.getLsbD k := by
  have hne : ∀ j, (0x0FD5#16).getLsbD j = true → k ≠ j := by
    rintro j hj rfl
    exact Bool.false_ne_true (hm.symm.trans hj)
  simp only [Flags.image, BitVec.getLsbD_or, flagBit_getLsbD _ _ k hk]
  simp (disch := decide) [hne]

/-- The seven bits that hold no flag are those of `FLAGS_FIXED` (R23). -/
theorem Flags.image_and_unused (f : Flags) {fixed : Word} (h : fixed &&& 0x0FD5#16 = 0#16) :
    f.image fixed &&& 0xF02A#16 = fixed := by
  have hmask : ∀ k < 16, (0xF02A#16).getLsbD k = !(0x0FD5#16).getLsbD k := by decide
  refine BitVec.eq_of_getLsbD_eq fun k hk => ?_
  rw [BitVec.getLsbD_and, hmask k hk]
  cases hm : (0x0FD5#16).getLsbD k with
  | false => rw [f.image_getLsbD_unused fixed hk hm, Bool.not_false, Bool.and_true]
  | true => rw [getLsbD_of_masked h hm, Bool.not_true, Bool.and_false]

/-- Settles O14. -/
theorem flagsImageRoundTrips : Obligations.FlagsImageRoundTrips :=
  ⟨fun f _ h => f.ofImage_image h, fun w _ h => Flags.ofImage_xor w h, fun f _ h => f.image_and_unused h⟩

/-- Settles O15: the spec's table is about closed words. -/
theorem flagsImageVectors : Obligations.FlagsImageVectors := by
  unfold Obligations.FlagsImageVectors
  decide

/-! ### The flag instructions -/

/-- Settles O29: `CLI` writes `IF` and ends as every instruction does. -/
theorem cliResult : Obligations.CliResult := fun _ => rfl

/-- Settles O30: `STI` writes `IF`, ends as every instruction does, and then inhibits. -/
theorem stiResult : Obligations.StiResult := fun _ => rfl

/-! ### Moves of the pins -/

/-- A run starts with the values of R39, in whatever state RESET was released. -/
theorem State.applyReset_hasResetValues (s : State) : s.applyReset.HasResetValues :=
  ⟨rfl, rfl, rfl, rfl, rfl, rfl, rfl, rfl, rfl, rfl, rfl, rfl, rfl, rfl, rfl, rfl⟩

/-- The release of RESET starts a run (R161, R162). -/
theorem State.resetPin_release {s : State} (h : s.pins.reset = true) :
    s.resetPin false = { s with pins := { s.pins with reset := false } }.applyReset := by
  simp [State.resetPin, h]

/-- Settles O11. -/
theorem resetReleaseLeavesResetValues : Obligations.ResetReleaseLeavesResetValues := by
  intro s rest hs hr
  refine ⟨_, (step_reset hs).trans (congrArg _ (State.resetPin_release (s := { s with script := rest }) hr)), ?_⟩
  exact ⟨State.applyReset_hasResetValues _, rfl, rfl, rfl⟩

/-- Settles O50: the step is `State.nmiPin`, which says what the latch becomes. -/
theorem nmiEdgeLatched : Obligations.NmiEdgeLatched := by
  intro s level rest hs
  refine ⟨{ s with script := rest }.nmiPin level, ?_, rfl, rfl, rfl, rfl, rfl, rfl, rfl⟩
  simp only [step, hs, State.envAct, State.setPin]

end Sys2Proof.Machine

/-! What an instruction that enters a handler and one that leaves it do when the bus is free
(45_interrupt_instructions.md R131 to R134; 60_exceptions.md R147), and what the processor does at an instruction
boundary (R138). -/

namespace Sys2Proof.Machine

/-! ### Entering and leaving a handler -/

/-- `INT n`, `INT 3` and taken `INTO` run an entry that saves the offset of the following instruction (R131 to
R133, R148). -/
theorem exec_of_enters {i : Instr} {n : Nat} {s : State} (h : Enters i n s) :
    exec i s = s.start (s.interruptEntry n s.ip ++ [.endInstr s.flags.tf]) := by
  obtain rfl | ⟨rfl, rfl⟩ | ⟨rfl, rfl, ho⟩ := h
  · rfl
  · rfl
  · simp only [exec, execInto, ho, if_true]

/-- Settles O36: the entry by `State.start_entry`, then the end of the instruction. -/
theorem softwareInterruptResult : Obligations.SoftwareInterruptResult := by
  intro s i n hr hw hi
  obtain ⟨t, he, hd, hrec, hnmi, -⟩ := State.start_entry (ip := s.ip) (m := .endInstr s.flags.tf) hr hw fun _ => rfl
  exact ⟨t.endInstr s.flags.tf, (exec_of_enters hi).trans he, hd, hrec, rfl, rfl, rfl, hnmi⟩

/-- The state of a return from `s` that has popped the bytes `l` and run the cycles `cs`, with `SP` at `sp`. -/
def State.InReturn (s : State) (sp : Word) (l : List Byte) (cs : List (Bool × Cycle)) (t : State) : Prop :=
  s.Ran s.lockActive cs t.history ∧ ∃ hist draws, t = { s with
    gen := { s.gen with sp := sp }, latch := l, history := hist, draws := draws }

/-- The two bytes memory holds at a physical address, as a pop leaves them in the latch (R54). -/
def State.wordBytes (s : State) (pa : Addr) : List Byte :=
  [Memory.read s.mem pa.toNat, Memory.read s.mem (pa + 1#20).toNat]

/-- A return begins with nothing popped. -/
theorem State.InReturn.start (s : State) : s.InReturn s.gen.sp [] [] { s with latch := [] } :=
  ⟨s.ran_nil _, s.history, s.draws, rfl⟩

/-- A pop of a return. -/
theorem State.InReturn.pop {s t : State} {sp : Word} {l : List Byte} {cs : List (Bool × Cycle)} (hf : s.BusFree)
    (ht : s.InReturn sp l cs t) (he : wordAtEnd s.cfg s.ss sp = false)
    (hp : s.isAbsent (phys s.cfg s.ss sp) = false ∧ s.isAbsent (phys s.cfg s.ss sp + 1#20) = false) :
    ∃ t', runMicros (s.popOps sp) t = .ok t' ∧
      s.InReturn (sp + 2#16) (l ++ s.wordBytes (phys s.cfg s.ss sp))
        (cs ++ under s.flags.ifl (s.popCycles sp)) t' := by
  obtain ⟨hran, hist, draws, rfl⟩ := ht
  obtain ⟨hist', draws', hran', he'⟩ := State.runMicros_pop
    (s := { s with gen := { s.gen with sp := sp }, latch := l, history := hist, draws := draws })
    hf (s0 := s) rfl rfl sp he hp []
  rw [List.append_nil] at he'
  exact ⟨_, he'.trans rfl, hran.trans rfl (State.wordCycles_readBytes hp rfl rfl rfl) hran', hist', draws', rfl⟩

/-- The three pops of a return whose premises hold. -/
theorem State.runMicros_return {s : State} (hr : s.ReturnRuns) (ms : List Micro) :
    ∃ t, s.InReturn (s.gen.sp + 6#16)
        (s.wordBytes (phys s.cfg s.ss s.gen.sp) ++ s.wordBytes (phys s.cfg s.ss (s.gen.sp + 2#16)) ++
          s.wordBytes (phys s.cfg s.ss (s.gen.sp + 4#16)))
        (under s.flags.ifl s.returnCycles) t ∧
      runMicros (s.interruptReturn ++ ms) { s with latch := [] } = runMicros ms t.leaveHandler := by
  obtain ⟨hf, h0, h2, h4, hp⟩ := hr
  simp only [List.mem_cons, List.not_mem_nil, or_false, forall_eq_or_imp, forall_eq] at hp
  obtain ⟨p0, p2, p4⟩ := hp
  have e4 : s.gen.sp + 2#16 + 2#16 = s.gen.sp + 4#16 := by bv_omega
  have e6 : s.gen.sp + 4#16 + 2#16 = s.gen.sp + 6#16 := by bv_omega
  obtain ⟨t1, r1, i1⟩ := (State.InReturn.start s).pop hf h0 p0
  obtain ⟨t2, r2, i2⟩ := i1.pop hf h2 p2
  rw [e4] at i2
  obtain ⟨t3, r3, i3⟩ := i2.pop hf h4 p4
  rw [e6] at i3
  refine ⟨t3, by simpa [State.returnCycles, under] using i3, ?_⟩
  simp only [State.interruptReturn, List.append_assoc]
  rw [runMicros_append_ok r1, runMicros_append_ok r2, runMicros_append_ok r3]
  exact runMicros_cons_ok rfl

/-- A return loads `IP`, `CS` and the flags from the three words it has popped (R134). -/
theorem State.leaveHandler_eq (s : State) : s.leaveHandler = { s with
    ip := joinBytes (s.latch.getD 1 0#8) (s.latch.getD 0 0#8)
    cs := joinBytes (s.latch.getD 3 0#8) (s.latch.getD 2 0#8)
    flags := Flags.ofImage (joinBytes (s.latch.getD 5 0#8) (s.latch.getD 4 0#8))
    fetchOff := joinBytes (s.latch.getD 1 0#8) (s.latch.getD 0 0#8)
    latch := [], queue := [], busy := none, qsHistory := s.qsHistory ++ s.qsReports [.flush] } := by
  rw [State.leaveHandler, State.flushQueue, State.reportQueue_eq]
  rfl

/-- Settles O39: the three pops, then `State.leaveHandler` and the end of the instruction. -/
theorem iretResult : Obligations.IretResult := by
  intro s hr
  obtain ⟨t, ⟨hran, hist, draws, rfl⟩, he⟩ := State.runMicros_return hr [.endInstr s.flags.tf]
  rw [State.leaveHandler_eq] at he
  exact ⟨_, congrArg MicroRes.toOutcome he, rfl, rfl, rfl, rfl, rfl, rfl, rfl,
    ⟨rfl, rfl, rfl, rfl, rfl, rfl, rfl, rfl, rfl, rfl, rfl, rfl⟩, rfl, rfl, rfl, rfl, rfl, rfl, rfl, hran⟩

/-! ### An instruction boundary -/

/-- With nothing waiting and no boundary to examine, a running processor takes the next instruction. -/
theorem State.proceed_of_no_boundary {s : State} (hm : s.micro = []) (hi : (s.halted || s.waiting) = false)
    (hb : s.boundary = none) : s.proceed = fetchInstr maxInstrBytes s := by
  simp [State.proceed, hm, hi, hb]

section Boundary

variable {s : State} {tfb : Bool} (h : s.AtBoundary tfb)
include h

/-- At a boundary nothing waits and the processor is running. -/
theorem State.running_atBoundary :
    s.prepare = s.proceed ∧ s.micro = [] ∧ (s.halted || s.waiting) = false ∧ s.boundary = some tfb := by
  obtain ⟨⟨-, hreset, -, hbusy, -, hmicro, -, -⟩, hh, hw, -, hb⟩ := h
  exact ⟨State.prepare_of_free hreset hbusy, hmicro, by rw [hh, hw]; rfl, hb⟩

/-- A boundary that leads to an entry starts it, saving the offset of the next instruction (R138, R148). -/
theorem turnOf_atBoundary_enter {n : Nat} (hx : s.examine tfb = .enter n) :
    turnOf s = { s with boundary := none }.takeInterrupt n s.ip := by
  obtain ⟨hp, hm, hi, hb⟩ := State.running_atBoundary h
  simp [turnOf, hp, State.proceed, hm, hi, hb, hx]

/-- A boundary at which an `INTR` is taken acknowledges it (R138, R140). -/
theorem turnOf_atBoundary_acknowledge (hx : s.examine tfb = .acknowledge) :
    turnOf s = { s with boundary := none }.acknowledge s.ip := by
  obtain ⟨hp, hm, hi, hb⟩ := State.running_atBoundary h
  simp [turnOf, hp, State.proceed, hm, hi, hb, hx]

/-- A boundary at which nothing is taken is as none (R138). -/
theorem turnOf_atBoundary_pass (hx : s.examine tfb = .pass) : turnOf s = turnOf { s with boundary := none } := by
  obtain ⟨hp, hm, hi, hb⟩ := State.running_atBoundary h
  have hpass : s.proceed = fetchInstr maxInstrBytes { s with boundary := none } := by
    simp [State.proceed, hm, hi, hb, hx]
  obtain ⟨⟨-, hreset, -, hbusy, -⟩, -⟩ := h
  rw [turnOf_eq_outcome, turnOf_eq_outcome, hp, hpass,
    State.prepare_of_free (s := { s with boundary := none }) hreset hbusy,
    State.proceed_of_no_boundary (s := { s with boundary := none }) hm hi rfl]

end Boundary

/-- A step at a boundary is the processor's default turn there. -/
theorem step_of_atBoundary {s : State} {tfb : Bool} (h : s.AtBoundary tfb) :
    step s = turnOf { s with turn := .free } ∧ ({ s with turn := .free } : State).AtBoundary tfb :=
  ⟨step_of_quiet h.1, h⟩

/-- Settles O44: with nothing else due the boundary leads to type 1. -/
theorem singleStepTakenAtBoundary : Obligations.SingleStepTakenAtBoundary := by
  intro s hb hn hd hr hw
  obtain ⟨hstep, hb'⟩ := step_of_atBoundary hb
  have hx : ({ s with turn := .free } : State).examine true = .enter 1 := by
    simp only [State.dueIntr] at hd
    simp [State.examine, State.takesIntr, State.dueIntr, hn, hd]
  obtain ⟨t, he, hdone, hrec, hnmi, -⟩ := State.start_entry (s := { s with turn := .free, boundary := none })
    (ip := s.ip) (m := .endEntry) hr hw fun _ => rfl
  refine ⟨t.endEntry, hstep.trans ((turnOf_atBoundary_enter hb' hx).trans he), hdone, ?_, rfl, hnmi.trans hn⟩
  exact State.Ran.congr (s := { s with turn := .free }) hrec rfl rfl rfl rfl rfl

/-- Settles O47: a boundary where nothing is due leads to nothing. -/
theorem maskedIntrIgnored : Obligations.MaskedIntrIgnored := by
  intro s hb hn hd
  obtain ⟨hstep, hb'⟩ := step_of_atBoundary hb
  have hx : ({ s with turn := .free } : State).examine false = .pass := by
    simp only [State.dueIntr] at hd
    simp [State.examine, State.takesIntr, State.dueIntr, hn, hd]
  have hquiet : ({ s with boundary := none } : State).Quiet := hb.1
  rw [hstep, step_of_quiet hquiet, turnOf_atBoundary_pass hb' hx]

/-- Settles O49: right after `STI` the turn's choice decides what the boundary leads to. -/
theorem intrAfterStiEitherWay : Obligations.IntrAfterStiEitherWay := by
  intro s hb hn hd hi
  refine ⟨fun ha => turnOf_atBoundary_acknowledge hb ?_, fun ha => turnOf_atBoundary_pass hb ?_⟩ <;>
    simp [State.examine, State.takesIntr, hn, hd, hi, ha]

end Sys2Proof.Machine

/-! Taking the bytes of an instruction (10_state.md R19, R28; 30_encoding.md R67, R69): from memory that declares
them, one byte after the other, as many as the instruction has. -/

namespace Sys2Proof.Machine

/-- The code accesses between `s` and `t`, in which `len` bytes have been taken (R56, R96, R97, R120): each is for one
of these bytes, and the queue has gained what they brought. -/
def State.CodeAccesses (s t : State) (len : Nat) : Prop :=
  ∃ recs, t.history = s.history ++ recs ∧
    s.queue.length + (recs.map fun r => r.width / 8).sum = t.queue.length + len ∧
    ∀ r ∈ recs, r.kind = .codeAccess ∧ r.master = .cpu ∧
      (∃ k, k < len ∧ r.pa = phys s.cfg s.cs (s.ip + BitVec.ofNat 16 k)) ∧
      r.seg = Seg.cs.code ∧ r.ifl = s.flags.ifl ∧ r.locked = s.lockActive

/-- From `s`, at the first byte of an instruction, the bytes `bs` have been taken: as `State.FetchedFrom`, with the
instruction not yet complete. -/
structure State.HasTaken (s t : State) (bs : List Byte) : Prop where
  ip : t.ip = s.ip + BitVec.ofNat 16 bs.length
  opbuf : t.opbuf = bs
  insnStart : t.insnStart = if s.lockActive then s.insnStart else s.ip
  qsHistory : t.qsHistory = s.qsHistory ++ s.qsReports (.first :: List.replicate (bs.length - 1) .next)
  accesses : s.CodeAccesses t bs.length
  frame : t = { s with
    ip := t.ip, opbuf := t.opbuf, insnStart := t.insnStart, history := t.history, queue := t.queue
    fetchOff := t.fetchOff, qsHistory := t.qsHistory, draws := t.draws }

/-- The byte memory holds at an offset of the code segment. -/
def State.codeByte (s : State) (off : Word) : Byte := Memory.read s.mem (phys s.cfg s.cs off).toNat

/-- Taking a byte keeps the invariant: `State.Inv` speaks of the queue and of fields no fetch touches. -/
theorem State.Inv.takeNext {s t : State} (hi : s.Inv) (h : s.takeNext = .ok t) : t.Inv := by
  obtain ⟨hq, ho⟩ := s.inv_iff.1 hi
  exact t.inv_iff.2 ⟨State.QueueSound.stepClosed.toProcClosed.takeNext (.inl h) hq,
    (State.KeepsOwner.procClosed.takeNext (.inl h)).ownerOfMode ho⟩

section Taking

variable {s : State} (hb : s.BusFree) (hc : s.cfg.wf = true)
include hb hc

/-- The first byte of an instruction. -/
theorem State.HasTaken.first (hi : s.Inv) (ho : s.opbuf = []) (ha : s.isAbsent (phys s.cfg s.cs s.ip) = false) :
    ∃ t, s.takeNext = .ok t ∧ s.HasTaken t [s.codeByte s.ip] := by
  obtain ⟨q, hist, draws, off, he, recs, hh, hlen, hrecs⟩ := State.takeNext_spec hb hi hc ha
  refine ⟨_, he, rfl, by simp [ho, State.codeByte], ?_, by simp [ho], ⟨recs, hh, hlen, fun r hr => ?_⟩, rfl⟩
  · cases s.lockActive <;> simp [ho]
  · obtain ⟨h1, h2, h3, h4⟩ := hrecs r hr
    exact ⟨h1, h2, ⟨0, by simp, by simpa using h3⟩, h4⟩

/-- A later byte of an instruction. -/
theorem State.HasTaken.next {t : State} {bs : List Byte} (h : s.HasTaken t bs) (hne : bs ≠ []) (hi : t.Inv)
    (ha : s.isAbsent (phys s.cfg s.cs (s.ip + BitVec.ofNat 16 bs.length)) = false) :
    ∃ u, t.takeNext = .ok u ∧ s.HasTaken u (bs ++ [s.codeByte (s.ip + BitVec.ofNat 16 bs.length)]) := by
  obtain ⟨hip, hop, hst, hqs, ⟨recs, hh, hlen, hrecs⟩, hframe⟩ := h
  have hfree : t.BusFree := by rw [hframe]; exact hb
  rw [hip, hop, hst, hqs] at hframe
  generalize t.history = hist, t.queue = queue, t.fetchOff = off, t.draws = draws at *
  subst hframe
  obtain ⟨q, hist', draws', off', he, recs', hh', hlen', hrecs'⟩ := State.takeNext_spec hfree hi hc ha
  obtain ⟨k, hk⟩ : ∃ k, bs.length = k + 1 := Nat.exists_eq_succ_of_ne_zero (by simpa using hne)
  refine ⟨_, he, ?_, rfl, by simp [hne], ?_, ⟨recs ++ recs', ?_, ?_, fun r hr => ?_⟩, rfl⟩
  · rw [List.length_append, List.length_singleton, BitVec.ofNat_add, ← BitVec.add_assoc]
  · rw [List.length_append, List.length_singleton, Nat.add_sub_cancel, hk, Nat.add_sub_cancel, List.replicate_succ',
      ← List.cons_append, State.qsReports_append, ← List.append_assoc, if_neg hne]
    rfl
  · rw [hh', hh, List.append_assoc]
  · simp only [List.map_append, List.sum_append, List.length_append, List.length_singleton] at hlen' ⊢
    omega
  · rw [List.length_append, List.length_singleton]
    obtain hr | hr := List.mem_append.1 hr
    · obtain ⟨h1, h2, ⟨j, hj, h3⟩, h4⟩ := hrecs r hr
      exact ⟨h1, h2, ⟨j, by omega, h3⟩, h4⟩
    · obtain ⟨h1, h2, h3, h4⟩ := hrecs' r hr
      exact ⟨h1, h2, ⟨bs.length, by omega, h3⟩, h4⟩

end Taking

/-- What has been taken is what `FetchedFrom` says, once the instruction is complete. -/
theorem State.HasTaken.fetchedFrom {s t : State} {bs : List Byte}
    (h : ({ s with turn := .free } : State).HasTaken t bs) : { t with opbuf := [] }.FetchedFrom s bs.length :=
  ⟨h.ip, rfl, h.insnStart, h.qsHistory, h.accesses, by rw [h.frame]⟩

/-- Once the bytes taken are an instruction, it is run. -/
theorem fetchInstr_of_complete {k : Nat} {s t : State} {i : Instr} {rest : List Byte} (ht : s.takeNext = .ok t)
    (hd : decode t.cfg.opc t.opbuf = .ok (i, rest)) : fetchInstr (k + 1) s = .run i { t with opbuf := [] } := by
  simp only [fetchInstr, ht, hd]

/-- While they are not complete, the next byte is taken. -/
theorem fetchInstr_of_truncated {k : Nat} {s t : State} (ht : s.takeNext = .ok t)
    (hd : decode t.cfg.opc t.opbuf = .error .truncated) : fetchInstr (k + 1) s = fetchInstr k t := by
  simp only [fetchInstr, ht, hd]

/-- Settles O4: one or two bytes are taken, as many as the code of the instruction has. -/
theorem stepRunsDecodedInstruction : Obligations.StepRunsDecodedInstruction := by
  intro s i rest hf hi hc ha ha' hd
  obtain ⟨hq, -, -, hop, -⟩ := id hf
  obtain ⟨-, -, hown, hbusy, hready, -⟩ := hq
  obtain ⟨hw, hbs⟩ := encode_of_decode hd
  have ho : s.cfg.opc.wf = true := by
    simp only [Params.wf, Bool.and_eq_true] at hc
    exact hc.2
  have hfree : ({ s with turn := .free } : State).BusFree := ⟨hown, hbusy, hready, rfl⟩
  have hinv : ({ s with turn := .free } : State).Inv := by
    obtain ⟨hqs, hom⟩ := s.inv_iff.1 hi
    exact (State.inv_iff _).2 ⟨hqs.of_same rfl rfl rfl rfl rfl rfl .inl rfl, hom.min, hom.max⟩
  obtain ⟨t, ht, htaken⟩ := State.HasTaken.first hfree hc hinv hop ha
  have hcfg : t.cfg = s.cfg := by rw [htaken.frame]
  rw [step_of_atFetch hf]
  obtain ⟨n, rfl⟩ | ⟨b, hb⟩ := encode_intN_or_singleton s.cfg.opc i
  · have hfirst : decode t.cfg.opc t.opbuf = .error .truncated := by
      have e := (List.cons.inj hbs).1
      rw [hcfg, htaken.opbuf]
      simp only [State.codeByte, e, decode, if_true]
    obtain ⟨u, hu, hutaken⟩ := htaken.next hfree hc (by simp) (hinv.takeNext ht) ha'
    have hall : decode u.cfg.opc u.opbuf = .ok (.intN n, rest) := by
      rw [show u.cfg = s.cfg by rw [hutaken.frame], hutaken.opbuf]
      exact hd
    rw [maxInstrBytes, fetchInstr_of_truncated ht hfirst, fetchInstr_of_complete hu hall]
    exact ⟨_, rfl, hutaken.fetchedFrom⟩
  · have hall : decode t.cfg.opc t.opbuf = .ok (i, []) := by
      have e := (List.cons.inj (hbs.trans (by rw [hb]; rfl))).1
      rw [hcfg, htaken.opbuf, ← decode_encode ho hw [], hb]
      simp only [State.codeByte, e, List.append_nil]
    rw [maxInstrBytes, fetchInstr_of_complete ht hall, hb]
    exact ⟨_, rfl, htaken.fetchedFrom⟩

end Sys2Proof.Machine

/-! Bytes and words in memory, and the bus cycles that move them (20_memory.md R44 to R55, R64): what a word store
leaves, and the records of a word access. -/

namespace Sys2Proof.Machine

/-! ### The banks of the 8086 -/

/-- The addresses of the two bytes of a word lie in different banks (R46). -/
theorem isOdd_succ (pa : Addr) : isOdd (pa + 1#20) = !isOdd pa := by
  rw [isOdd, BitVec.getLsbD_add (by decide)]
  simp [isOdd]

/-- Settles O60: `BHE` by its definition, from the parity of the address and the width. -/
theorem bankSelection : Obligations.BankSelection := by
  refine ⟨rfl, rfl, rfl, rfl, fun pa => ⟨fun h => ⟨?_, ?_⟩, fun h => ?_⟩⟩ <;> simp [bheLevel, h]

/-! ### Stores and reads -/

/-- The two addresses of a word are different (R54). -/
theorem toNat_succ_ne (pa : Addr) : pa.toNat ≠ (pa + 1#20).toNat := fun h => by
  have := BitVec.eq_of_toNat_eq h
  bv_omega

/-- A byte stored where memory is declared is what a read there takes (R54). -/
theorem State.byteAt_storeByte_same {s : State} {a : Addr} {v : Byte} (hp : s.isAbsent a = false)
    (hw : Memory.wf s.mem = true) (k : Nat) : (s.storeByte a v).byteAt a k = v := by
  rw [State.byteAt_present (by rwa [State.isAbsent_congr (s := s) (by simp)]), State.storeByte_read_same v hp hw]

/-- A byte store is not seen by a read at another address of declared memory. -/
theorem State.byteAt_storeByte_other {s : State} {a b : Addr} {v : Byte} (hp : s.isAbsent b = false)
    (hne : b.toNat ≠ a.toNat) (k : Nat) : (s.storeByte a v).byteAt b k = s.byteAt b k := by
  rw [State.byteAt_present (by rwa [State.isAbsent_congr (s := s) (by simp)]), State.byteAt_present hp,
    State.storeByte_read_other v hne]

/-- A store leaves every address outside its targets alone (R54). -/
theorem State.sameOutside_storeBytes (s : State) (pa : Addr) (w : Nat) (d : Word) :
    s.SameOutside (s.storeBytes pa w d) (targets pa w) := fun _ ha =>
  State.storeBytes_read_other d fun _ hb e => ha (BitVec.eq_of_toNat_eq e ▸ hb)

/-- Settles O16: a word store is the store of its low byte and then that of its high byte. -/
theorem wordWriteIsLittleEndian : Obligations.WordWriteIsLittleEndian := by
  intro s pa w hw h0 h1
  have h0' : (s.storeByte pa (loByte w)).isAbsent pa = false := by rwa [State.isAbsent_congr (s := s) (by simp)]
  have h1' : (s.storeByte pa (loByte w)).isAbsent (pa + 1#20) = false := by
    rwa [State.isAbsent_congr (s := s) (by simp)]
  refine ⟨fun k => ?_, fun k => ?_, State.wordAt_storeBytes w hw h0 h1, s.sameOutside_storeBytes pa 16 w,
    State.storeBytes_wf pa 16 w hw⟩ <;> rw [State.storeBytes_word]
  · exact (State.byteAt_storeByte_other h0' (toNat_succ_ne pa) k).trans (State.byteAt_storeByte_same h0 hw k)
  · exact State.byteAt_storeByte_same h1' (State.storeByte_wf _ _ hw) k

/-- Settles O24: with the bus free the read completes at once, with the byte of undeclared memory. -/
theorem undeclaredReadIsFree : Obligations.UndeclaredReadIsFree := by
  intro s pa hf ha
  refine ⟨_, State.runCycle_of_busFree hf _, ?_, rfl⟩
  simp [State.readBytes, State.byteAt, ha]

/-! ### The records of a word access -/

namespace State.ShowsAll

variable {s : State} {l : Bool} {cs : List (Bool × Cycle)} {rs : List BusRecord}

/-- Every record is that of one of the cycles. -/
theorem exists_cycle (h : s.ShowsAll l cs rs) {r : BusRecord} (hr : r ∈ rs) : ∃ c ∈ cs, s.Shows c.1 l c.2 r := by
  induction cs generalizing rs with
  | nil =>
    cases rs with
    | nil => cases hr
    | cons _ _ => exact h.elim
  | cons c cs ih =>
    cases rs with
    | nil => exact h.elim
    | cons q rs =>
      obtain rfl | hr := List.mem_cons.1 hr
      · exact ⟨c, List.mem_cons_self, h.1⟩
      · obtain ⟨d, hd, hshow⟩ := ih h.2 hr
        exact ⟨d, List.mem_cons_of_mem _ hd, hshow⟩

/-- What each record shows of its cycle, the list of records shows of the list of cycles. -/
theorem map_eq {α : Type} {f : BusRecord → α} {g : Cycle → α} (h : s.ShowsAll l cs rs)
    (hfg : ∀ b c r, s.Shows b l c r → f r = g c) : rs.map f = cs.map fun c => g c.2 := by
  induction cs generalizing rs with
  | nil =>
    cases rs with
    | nil => rfl
    | cons _ _ => exact h.elim
  | cons c cs ih =>
    cases rs with
    | nil => exact h.elim
    | cons q rs => exact congrArg₂ List.cons (hfg _ _ _ h.1) (ih h.2)

end State.ShowsAll

/-- Every cycle of a word access uses the access's segment (R44). -/
theorem wordCycles_seg {chip : Chip} {kind : CycleKind} {pa : Addr} {v : Word} {g : Option Seg} {c : Cycle}
    (h : c ∈ wordCycles chip kind pa v g) : c.seg = g := by
  unfold wordCycles at h
  split at h <;> simp only [List.mem_cons, List.not_mem_nil, or_false] at h
  · rw [h]
  · rcases h with rfl | rfl <;> rfl

/-- The records of a word access are the processor's and show the segment of the access (R47 g, R96, R97, R120). -/
theorem State.ShowsAll.of_wordCycles {s : State} {f l : Bool} {kind : CycleKind} {pa : Addr} {v : Word}
    {g : Option Seg} {rs : List BusRecord} (h : s.ShowsAll l (under f (wordCycles s.cfg.chip kind pa v g)) rs) :
    ∀ r ∈ rs, r.master = .cpu ∧ r.ifl = f ∧ r.locked = l ∧ ∀ sg, g = some sg → r.seg = sg.code := by
  intro r hr
  obtain ⟨fc, hfc, hmaster, -, -, -, -, -, hseg, hifl, hlocked⟩ := h.exists_cycle hr
  obtain ⟨c, hc, rfl⟩ := List.mem_map.1 hfc
  rw [wordCycles_seg hc] at hseg
  exact ⟨hmaster, hifl, hlocked, hseg⟩

/-- Settles O17: `State.runMicros_wordWrite`, with its records read off the cycles of each part and parity. -/
theorem wordWriteCycles : Obligations.WordWriteCycles := by
  intro s pa v g hf _ hq
  obtain ⟨hist, draws, ⟨recs, hh, hshow⟩, he⟩ := State.runMicros_wordWrite hf pa v g hq []
  rw [List.append_nil] at he
  refine ⟨_, recs, he, rfl, hh, hshow.of_wordCycles, ?_⟩
  rw [hshow.map_eq (g := fun c => (c.kind, c.pa, s.bheOf c.kind c.pa c.width, c.width,
    some (if c.kind = .memWrite then c.data else wordOfBytes (s.readBytes c.pa c.width))))
    fun _ _ _ ⟨_, hk, hp, hb, hw, hd, _⟩ => by rw [hk, hp, hb, hw, hd]]
  cases hc : s.cfg.chip <;> cases ho : isOdd pa <;>
    simp [wordCycles, under, State.bheOf, bheLevel, hc, ho, isOdd_succ]

/-- Settles O18: `State.runMicros_wordRead`, with its records read off the cycles of each part and parity. -/
theorem wordReadCycles : Obligations.WordReadCycles := by
  intro s pa v g hf _ h0 h1
  obtain ⟨hist, draws, ⟨recs, hh, hshow⟩, he⟩ := State.runMicros_wordRead hf pa v g ⟨h0, h1⟩ []
  rw [List.append_nil] at he
  refine ⟨_, recs, he, rfl, rfl, hh, hshow.of_wordCycles, ?_⟩
  rw [hshow.map_eq (g := fun c => (c.kind, c.pa, s.bheOf c.kind c.pa c.width, c.width))
    fun _ _ _ ⟨_, hk, hp, hb, hw, _⟩ => by rw [hk, hp, hb, hw]]
  cases hc : s.cfg.chip <;> cases ho : isOdd pa <;>
    simp [wordCycles, under, State.bheOf, bheLevel, hc, ho, isOdd_succ]

end Sys2Proof.Machine

/-! A byte write of another bus master (42_bus_control.md R124; 20_memory.md R58, R62). -/

namespace Sys2Proof.Machine

/-- A step in which the master that owns the bus writes a byte: refused onto a queued byte, else stored and
recorded (R62, R124). -/
theorem step_masterWriteByte {s : State} {rest : List Act} {pa : Addr} {d : Word} (ho : s.busOwner ≠ .cpu)
    (hs : s.script = .env (.master .memWrite pa 8 d) :: rest) :
    step s = if s.inQueue [pa] then .refused .staleQueue
      else .next (({ s with script := rest }.storeBytes pa 8 d).logMaster .memWrite pa 8 ((loByte d).setWidth 16)) := by
  have hmay : ({ s with script := rest } : State).masterMay .memWrite pa 8 = true := by simp [State.masterMay, ho]
  simp only [step, hs, State.envAct, State.masterCycle, hmay, if_true]
  rfl

/-- A cycle of another master adds one record, under its name (R47 g, R124). -/
theorem State.logMaster_record (s : State) (k : CycleKind) (pa : Addr) (w : Nat) (d : Word) :
    ∃ r, (s.logMaster k pa w d).history = s.history ++ [r] ∧ r.master = s.busOwner ∧ r.kind = k ∧ r.pa = pa ∧
      r.width = w ∧ r.data = some d ∧ r.locked = false :=
  ⟨_, rfl, rfl, rfl, rfl, rfl, rfl, rfl⟩

/-- Settles O28: the step is `step_masterWriteByte`, and the store is that of one byte. -/
theorem otherMasterWrite : Obligations.OtherMasterWrite := by
  intro s rest pa d hw ho hs
  have hstep := step_masterWriteByte ho hs
  refine ⟨fun hq => by rw [hstep, hq, if_pos rfl], fun hq ha => ?_⟩
  rw [hq, if_neg Bool.false_ne_true] at hstep
  set u := { s with script := rest }.storeBytes pa 8 d with hu
  have hread : Memory.read u.mem pa.toNat = loByte d :=
    State.storeByte_read_same (s := { s with script := rest }) (loByte d) ha hw
  have hother : s.SameOutside u [pa] := State.sameOutside_storeBytes { s with script := rest } pa 8 d
  obtain ⟨r, hh, hm, hk, hp, hwidth, hd, hl⟩ := u.logMaster_record .memWrite pa 8 ((loByte d).setWidth 16)
  refine ⟨_, r, hstep, hread, hother, ?_, ?_, hk, hp, hwidth, hd, hl, ?_⟩
  · rw [hh, hu, State.storeBytes_history]
  · rw [hm, hu, State.storeBytes_busOwner]
  · simp [hu]

end Sys2Proof.Machine

/-! While `READY = 0` (20_memory.md R47; 42_bus_control.md R110) no bus cycle ends: the processor waits at the first
one it needs, and what the other agents record is not the processor's. -/

namespace Sys2Proof.Machine

/-- With `READY = 0` a bus cycle has to wait, started or not (R110, R115). -/
theorem State.runCycle_of_not_ready {s : State} (hr : s.pins.ready = false) (c : Cycle) :
    ∃ turn busy, s.runCycle c = .parked { s with turn := turn, busy := busy } := by
  unfold State.runCycle
  split
  · unfold State.startData
    split
    · exact ⟨_, _, by simp only [State.endData, State.spend_pins, hr, Bool.false_eq_true, if_false]; rfl⟩
    · exact ⟨_, _, rfl⟩
  · exact ⟨_, _, by simp only [State.endData, hr, Bool.false_eq_true, if_false]; rfl⟩
  · exact ⟨_, _, by simp only [State.endFetch, hr, Bool.false_eq_true, if_false]; rfl⟩

/-- No bus cycle has ended: the history, memory and the level of `READY` are as before, and the queue may have lost
bytes at most. -/
structure State.EndsNoCycle (s t : State) : Prop where
  history : t.history = s.history
  mem : t.mem = s.mem
  queue : t.queue <:+ s.queue
  ready : t.pins.ready = s.pins.ready

namespace State.EndsNoCycle

theorem of_same {s t : State} (hh : t.history = s.history) (hm : t.mem = s.mem) (hq : t.queue = s.queue)
    (hp : t.pins = s.pins) : s.EndsNoCycle t :=
  ⟨hh, hm, hq ▸ List.suffix_refl _, by rw [hp]⟩

theorem trans {a b c : State} (hab : a.EndsNoCycle b) (hbc : b.EndsNoCycle c) : a.EndsNoCycle c :=
  ⟨hbc.history.trans hab.history, hbc.mem.trans hab.mem, hbc.queue.trans hab.queue, hbc.ready.trans hab.ready⟩

/-- Every primitive change of the processor that ends a bus cycle asks for `READY = 1` (R110). -/
theorem procClosed : ProcClosed fun s t => s.pins.ready = false → s.EndsNoCycle t where
  refl _ _ := .of_same rfl rfl rfl rfl
  trans hab hbc hr := (hab hr).trans (hbc ((hab hr).ready.trans hr))
  control _ _ _ _ _ _ _ _ _ _ _ _ _ := .of_same rfl rfl rfl rfl
  holdData _ _ _ := .of_same rfl rfl rfl rfl
  freeBus _ _ := .of_same rfl rfl rfl rfl
  holdFetch _ _ _ := .of_same rfl rfl rfl rfl
  fetchEnds _ _ h hr := absurd (h.symm.trans hr) (by decide)
  logs _ _ _ _ h hr := absurd (h.symm.trans hr) (by decide)
  writes _ _ _ _ h hr := absurd (h.symm.trans hr) (by decide)
  setsSp _ _ _ := .of_same rfl rfl rfl rfl
  setsFlags _ _ _ := .of_same rfl rfl rfl rfl
  jumps _ _ _ _ := ⟨by simp, by simp, by simp, by simp⟩
  takes _ _ _ _ hq _ := ⟨by simp, by simp, by simp [hq], by simp⟩

end State.EndsNoCycle

/-! ### An instruction does not touch the queue -/

/-- Parts whose first bus cycle comes before their first jump leave the queue alone while `READY = 0`. -/
theorem runMicros_queue_of_not_ready {ms : List Micro} {s t : State} (hr : s.pins.ready = false)
    (hw : WaitsBeforeJump ms) (h : (runMicros ms s).Leaves t) : t.queue = s.queue := by
  induction ms generalizing s with
  | nil =>
    rw [runMicros, MicroRes.leaves_ok] at h
    rw [h]
  | cons m ms ih =>
    cases m <;> simp only [runMicros, State.doMicro] at h
    case cycle c =>
      obtain ⟨turn, busy, hc⟩ := State.runCycle_of_not_ready hr c
      rw [hc, MicroRes.leaves_parked] at h
      rw [← h]
    case enterHandler => exact hw.elim
    case leaveHandler => exact hw.elim
    case refuse r => exact absurd h MicroRes.leaves_refused
    all_goals exact (ih (by exact hr) hw h).trans rfl

/-- A return jumps only after its first bus cycle or refusal. -/
theorem State.interruptReturn_waits (s : State) (ms : List Micro) : WaitsBeforeJump (s.interruptReturn ++ ms) := by
  simp only [State.interruptReturn, State.popOps, List.append_assoc]
  exact s.stackWord_waits ..

/-- An instruction leaves the queue alone, or starts parts whose first bus cycle or refusal comes before their first
jump. -/
theorem exec_starts_or_keeps_queue (i : Instr) (s : State) :
    (∃ ms, WaitsBeforeJump ms ∧ exec i s = s.start ms) ∨ ∀ t, exec i s = .next t → t.queue = s.queue := by
  cases i
  case lock =>
    refine .inr fun t h => ?_
    simp only [exec, execLock] at h
    split at h <;> cases h
    rfl
  case wait =>
    refine .inr fun t h => ?_
    simp only [exec, execWait] at h
    split at h <;> cases h <;> rfl
  case int3 => exact .inl ⟨_, s.interruptEntry_waits .., rfl⟩
  case intN n => exact .inl ⟨_, s.interruptEntry_waits .., rfl⟩
  case into =>
    simp only [exec, execInto]
    split
    · exact .inl ⟨_, s.interruptEntry_waits .., rfl⟩
    · refine .inr fun t h => ?_
      cases h
      rfl
  case iret => exact .inl ⟨_, s.interruptReturn_waits _, rfl⟩
  case hlt => exact .inl ⟨[.cycle haltCycle, .enterHalt], trivial, rfl⟩
  all_goals
    refine .inr fun t h => ?_
    cases h
    rfl

/-- While `READY = 0` no instruction touches the queue. -/
theorem exec_queue_of_not_ready {i : Instr} {s t : State} (hr : s.pins.ready = false) (h : exec i s = .next t) :
    t.queue = s.queue := by
  obtain ⟨ms, hw, he⟩ | hkeeps := exec_starts_or_keeps_queue i s
  · rw [he] at h
    exact runMicros_queue_of_not_ready (s := { s with latch := [] }) hr hw (MicroRes.toOutcome_next.1 h)
  · exact hkeeps t h

/-! ### A step of any agent -/

/-- While `READY = 0` the bus interface ends no code access. -/
theorem State.busStep_history_of_not_ready {s t : State} {b : BusAct} (hr : s.pins.ready = false)
    (h : s.busStep b = some (.next t)) : t.history = s.history := by
  obtain ⟨hf, he⟩ | ⟨-, rfl⟩ | ⟨-, rfl⟩ | ⟨l, -, rfl⟩ := busStep_cases h
  · exact (State.EndsNoCycle.procClosed.endFetch hf he hr).history
  · rfl
  · rfl
  · cases l <;> rfl

/-- Another master runs a bus cycle only while the bus is not the processor's (R124). -/
theorem State.busOwner_of_masterMay {s : State} {k : CycleKind} {pa : Addr} {w : Nat}
    (h : s.masterMay k pa w = true) : s.busOwner ≠ .cpu := by
  simp only [State.masterMay, Bool.and_eq_true, decide_eq_true_eq] at h
  exact h.1.1

/-- The environment records no bus cycle of the processor (R124). -/
theorem State.envAct_history {s t : State} {e : EnvAct} (hn : ∀ level, e ≠ .pin .reset level)
    (h : s.envAct e = .next t) : ∃ recs, t.history = s.history ++ recs ∧ ∀ r ∈ recs, r.master ≠ .cpu := by
  have none_added : ∀ {u : State}, u.history = s.history →
      ∃ recs, u.history = s.history ++ recs ∧ ∀ r ∈ recs, r.master ≠ .cpu :=
    fun hu => ⟨[], by simpa using hu, by simp⟩
  obtain ⟨level, hr, -⟩ | ⟨p, level, -, -, pins, nmi, rfl⟩ | ⟨b, -, rfl⟩ | ⟨l, -, -, -, rfl⟩ | ⟨l, -, -, rfl⟩ |
    ⟨k, pa, w, d, -, hm, ⟨-, -, rfl⟩ | ⟨-, rfl⟩⟩ := envAct_cases h
  · exact absurd hr (hn level)
  · exact none_added rfl
  · exact none_added rfl
  · cases l <;> exact none_added rfl
  · exact none_added rfl
  · exact ⟨[_], by rw [State.logMaster, State.storeBytes_history],
      by simpa using State.busOwner_of_masterMay hm⟩
  · exact ⟨[_], rfl, by simpa using State.busOwner_of_masterMay hm⟩

/-- Settles O20: `State.EndsNoCycle` for the processor and its bus interface, `exec_queue_of_not_ready` for the queue
of an instruction, and the environment by its own steps. -/
theorem noCycleEndsWhileNotReady : Obligations.NoCycleEndsWhileNotReady := by
  refine ⟨fun i s t hr h => ?instruction, fun s t hr h => ?move, fun s t hr hn h => ?step⟩
  case instruction =>
    have he := State.EndsNoCycle.procClosed.exec h hr
    exact ⟨he.history, he.mem, exec_queue_of_not_ready hr h⟩
  case move =>
    have he := State.EndsNoCycle.procClosed.turnOf h hr
    exact ⟨he.history, he.mem, he.queue⟩
  case step =>
    obtain ⟨rest, tn, ht, -⟩ | ⟨b, rest, hbus, -⟩ | ⟨e, rest, hs, he⟩ := step_cases h
    · exact ⟨[], by simpa using (State.EndsNoCycle.procClosed.turnOf ht hr).history, by simp⟩
    · have hh := State.busStep_history_of_not_ready (s := { s with script := rest }) hr hbus
      exact ⟨[], by simpa using hh, by simp⟩
    · refine State.envAct_history (s := { s with script := rest }) (fun level hl => ?_) he
      exact hn level rest (by rw [hs, hl])

end Sys2Proof.Machine

/-! The word accesses of an entry and of a return that have no meaning (20_memory.md R55, R62; 60_exceptions.md R147):
whether one is refused can be read off the parts in order, since until the first jump no part changes what the
refusals depend on. -/

namespace Sys2Proof.Machine

/-! ### The first refusal of a list of parts -/

/-- With the bus free, what a part decides for good: `some (some r)` if it is refused with `r` (R55, R62, R147),
`some none` if it empties the queue, on which later refusals depend (R29); `none` if it decides nothing. -/
def State.decides (s : State) : Micro → Option (Option Refusal)
  | .cycle c => if c.kind = .memWrite ∧ s.inQueue (targets c.pa c.width) = true then some (some .staleQueue) else none
  | .refuse r => some (some r)
  | .enterHandler => some none
  | .leaveHandler => some none
  | _ => none

/-- With the bus free and the queue as in `s`. -/
structure State.FreeWithQueueOf (s u : State) : Prop where
  free : u.BusFree
  queue : u.queue = s.queue

/-- With the bus free a bus cycle is a write onto a queued byte, or it ends and keeps the queue (R47, R62). -/
theorem State.FreeWithQueueOf.runCycle {s u : State} (h : s.FreeWithQueueOf u) (c : Cycle) :
    (s.decides (.cycle c) = some (some .staleQueue) ∧ u.runCycle c = .refused .staleQueue) ∨
      (s.decides (.cycle c) = none ∧ ∃ v, u.runCycle c = .ok v ∧ s.FreeWithQueueOf v) := by
  rw [State.runCycle_of_busFree h.free]
  unfold State.completeData
  split
  next hk => exact .inr ⟨by simp [State.decides, hk], _, rfl, h.free, h.queue⟩
  next hk =>
    rw [State.inQueue_congr h.queue]
    split
    next hq => exact .inl ⟨by simp [State.decides, hk, hq], rfl⟩
    next hq =>
      exact .inr ⟨by simp [State.decides, hq], _, rfl, by simpa [State.BusFree] using h.free, by simpa using h.queue⟩
  next hk => split <;> exact .inr ⟨by simp [State.decides, hk], _, rfl, h.free, h.queue⟩
  next hk _ => exact .inr ⟨if_neg fun hw => hk hw.1, _, rfl, h.free, h.queue⟩

/-- With the bus free, parts the first decision of which is a refusal are refused. -/
theorem runMicros_refused {s u : State} {ms : List Micro} {r : Refusal} (h : s.FreeWithQueueOf u)
    (hd : ms.findSome? s.decides = some (some r)) : runMicros ms u = .refused r := by
  induction ms generalizing u with
  | nil => cases hd
  | cons m ms ih =>
    rw [List.findSome?_cons] at hd
    cases m
    case cycle c =>
      obtain ⟨hs, he⟩ | ⟨hs, v, he, hv⟩ := h.runCycle c <;> rw [hs] at hd
      · cases hd
        simp only [runMicros, State.doMicro, he]
      · exact (runMicros_cons_ok (m := .cycle c) he).trans (ih hv hd)
    case refuse q =>
      cases hd
      rfl
    case enterHandler => cases hd
    case leaveHandler => cases hd
    all_goals exact ih ⟨h.free, h.queue⟩ hd

/-! ### The word accesses of an entry and of a return -/

/-- What a word access to the stack segment decides (R55, R62). -/
def State.stackDecides (s : State) (kind : CycleKind) (off : Word) : Option (Option Refusal) :=
  if wordAtEnd s.cfg s.ss off then some (some .wordAtSegmentEnd)
  else if kind = .memWrite ∧ s.inQueue [phys s.cfg s.ss off, phys s.cfg s.ss off + 1#20] = true then
    some (some .staleQueue)
  else none

/-- A word access decides nothing but the refusal of a write one of whose two bytes is in the queue, in one cycle or
in two (R50, R51, R53, R62). -/
theorem State.wordCycles_decides (s : State) (chip : Chip) (kind : CycleKind) (pa : Addr) (v : Word)
    (g : Option Seg) :
    ((wordCycles chip kind pa v g).map Micro.cycle).findSome? s.decides =
      if kind = .memWrite ∧ s.inQueue [pa, pa + 1#20] = true then some (some .staleQueue) else none := by
  by_cases hk : kind = .memWrite
  · unfold wordCycles
    split
    · simp [State.decides, targets, hk]
    · have hq : s.inQueue [pa, pa + 1#20] = (s.inQueue [pa] || s.inQueue [pa + 1#20]) := by simp [State.inQueue]
      rw [hq]
      cases h0 : s.inQueue [pa] <;> cases h1 : s.inQueue [pa + 1#20] <;>
        simp [State.decides, targets, hk, h0, h1]
  · unfold wordCycles
    split <;> simp [State.decides, hk]

theorem State.stackWord_decides (s : State) (kind : CycleKind) (off v : Word) :
    (s.stackWord kind off v).findSome? s.decides = s.stackDecides kind off := by
  unfold State.stackWord State.stackDecides
  split
  · rfl
  · exact s.wordCycles_decides ..

theorem State.pushOps_decides (s : State) (sp v : Word) :
    (s.pushOps sp v).findSome? s.decides = s.stackDecides .memWrite (sp - 2#16) :=
  s.stackWord_decides ..

theorem State.popOps_decides (s : State) (sp : Word) :
    (s.popOps sp).findSome? s.decides = s.stackDecides .memRead sp := by
  rw [State.popOps, List.findSome?_append, State.stackWord_decides]
  exact Option.or_none

/-- A read of the vector decides nothing: no rule refuses it. -/
theorem State.vectorRead_decides (s : State) (pa : Addr) : (s.vectorRead pa).findSome? s.decides = none :=
  s.wordCycles_decides ..

/-- Whatever order the turn gives, the writes of an entry keep theirs (R147, U19). -/
theorem EntryOrder.writes_in_order {α : Type} (o : EntryOrder) (ws : List α) :
    ws.take o.first ++ ((ws.take o.second).drop o.first ++ ws.drop (max o.first o.second)) = ws := by
  obtain h | h := Nat.le_total o.first o.second
  · rw [Nat.max_eq_right h, ← List.append_assoc]
    conv_rhs => rw [← List.take_append_drop o.second ws, ← List.take_append_drop o.first (ws.take o.second),
      List.take_take, Nat.min_eq_left h]
  · rw [Nat.max_eq_left h, List.drop_eq_nil_of_le ((List.length_take_le _ _).trans h), List.nil_append,
      List.take_append_drop]

/-- Reads that decide nothing leave the decision to the writes, wherever they stand among them. -/
theorem mergeEntry_findSome? {α β : Type} {f : α → Option β} {readIp readCs : List α} (o : EntryOrder)
    (writes : List (List α)) (hip : readIp.findSome? f = none) (hcs : readCs.findSome? f = none) :
    (mergeEntry o writes readIp readCs).findSome? f = writes.flatten.findSome? f := by
  conv_rhs => rw [← o.writes_in_order writes]
  simp only [mergeEntry, List.flatten_append, List.findSome?_append, hip, hcs, Option.or_none, Option.or_assoc]

/-- Off its vector an entry is decided by its three pushes, in their order. -/
theorem State.interruptEntry_decides {s : State} {n : Nat} (hv : s.overVector n = false) (ip : Word)
    (ms : List Micro) :
    (s.interruptEntry n ip ++ ms).findSome? s.decides =
      (s.stackDecides .memWrite (s.pushSlot 0)).or ((s.stackDecides .memWrite (s.pushSlot 1)).or
        ((s.stackDecides .memWrite (s.pushSlot 2)).or (some none))) := by
  have e1 : s.gen.sp - 2#16 - 2#16 = s.gen.sp - 4#16 := by bv_omega
  have e2 : s.gen.sp - 4#16 - 2#16 = s.gen.sp - 6#16 := by bv_omega
  rw [State.interruptEntry, hv, if_neg Bool.false_ne_true]
  simp only [List.append_assoc, List.findSome?_append, mergeEntry_findSome? _ _ (s.vectorRead_decides _)
    (s.vectorRead_decides _), List.flatten_cons, List.flatten_nil, State.pushOps_decides, e1, e2, Option.or_assoc]
  rfl

/-- A return is decided by its three pops, in their order. -/
theorem State.interruptReturn_decides (s : State) (ms : List Micro) :
    (s.interruptReturn ++ ms).findSome? s.decides =
      (s.stackDecides .memRead (s.popSlot 0)).or ((s.stackDecides .memRead (s.popSlot 1)).or
        ((s.stackDecides .memRead (s.popSlot 2)).or (some none))) := by
  simp only [State.interruptReturn, List.append_assoc, List.findSome?_append, State.popOps_decides]
  rw [show s.popSlot 0 = s.gen.sp from BitVec.add_zero _]
  rfl

/-- Of three decisions the `k`-th stands, when the earlier ones are none or the same. -/
theorem or_eq_of_first_three {α : Type} {f : Nat → Option α} {a : α} {k : Nat} (hk : k < 3) (ha : f k = some a)
    (hb : ∀ j, j < k → f j = none ∨ f j = some a) (d : Option α) :
    (f 0).or ((f 1).or ((f 2).or d)) = some a := by
  obtain rfl | rfl | rfl : k = 0 ∨ k = 1 ∨ k = 2 := by omega
  · simp [ha]
  · obtain h0 | h0 := hb 0 (by omega) <;> simp [ha, h0]
  · obtain h0 | h0 := hb 0 (by omega) <;> obtain h1 | h1 := hb 1 (by omega) <;> simp [ha, h0, h1]

/-- An entry, whatever begins it, is refused by the first of its pushes that is (R55, R62, R147). -/
theorem EntryBegins.refused {s : State} {o : Host.Outcome State Fault Refusal} {n k : Nat} {r : Refusal}
    (he : EntryBegins n s o) (hf : s.BusFree) (hv : s.overVector n = false) (hk : k < 3)
    (hr : s.stackDecides .memWrite (s.pushSlot k) = some (some r))
    (hb : ∀ j, j < k → s.stackDecides .memWrite (s.pushSlot j) = none ∨
      s.stackDecides .memWrite (s.pushSlot j) = some (some r)) : o = .refused r := by
  obtain ⟨u, ip, ms, hu, rfl⟩ := he.runs
  rw [runMicros_refused (s := s) (r := r) ⟨hu.free hf, hu.queue⟩]
  · rfl
  · rw [State.interruptEntry_decides hv]
    exact or_eq_of_first_three (f := fun k => s.stackDecides .memWrite (s.pushSlot k)) hk hr hb _

/-- Settles O23: the earlier pushes decide nothing, or are refused for the same reason. -/
theorem staleStackWriteRefused : Obligations.StaleStackWriteRefused := by
  intro s o n k he hf hv hk hend hq
  refine he.refused hf hv hk ?_ fun j hj => ?_
  · simp [State.stackDecides, hend k le_rfl, hq]
  · cases h : s.inQueue [phys s.cfg s.ss (s.pushSlot j), phys s.cfg s.ss (s.pushSlot j) + 1#20] <;>
      simp [State.stackDecides, hend j hj.le, h]

/-- Settles O41: the earlier pushes and pops decide nothing. -/
theorem wordAtSegmentEndRefused : Obligations.WordAtSegmentEndRefused := by
  intro s k hf hk
  refine ⟨fun n o he hv hend hb => ?push, fun hend hb => ?pop⟩
  case push =>
    refine he.refused hf hv hk (by simp [State.stackDecides, hend]) fun j hj => .inl ?_
    obtain ⟨h0, h1⟩ := hb j hj
    simp [State.stackDecides, h0, h1]
  case pop =>
    rw [exec, execIret, State.start,
      runMicros_refused (s := s) (u := { s with latch := [] }) (r := .wordAtSegmentEnd) ⟨hf, rfl⟩]
    · rfl
    · rw [State.interruptReturn_decides]
      refine or_eq_of_first_three (f := fun k => s.stackDecides .memRead (s.popSlot k)) hk ?_ (fun j hj => .inl ?_) _
      · simp [State.stackDecides, hend]
      · simp [State.stackDecides, hb j hj]

end Sys2Proof.Machine

/-! Bytes that are no instruction (30_encoding.md R71, R75), and the two forms of the type 3 interrupt (R74). -/

namespace Sys2Proof

/-- R69, R72: the one-byte table and `INT n` together know exactly the opcode bytes of the map. -/
theorem OpcodeMap.not_mem_bytes_iff (o : OpcodeMap) (b : Byte) :
    b ∉ o.bytes ↔ b ≠ o.intN ∧ decodeOp1 o b = none := by
  unfold decodeOp1
  split_ifs <;> simp_all [OpcodeMap.bytes]

/-- R75: a first byte outside the map is out of scope, whatever follows it. -/
theorem decode_outOfScope {o : OpcodeMap} {b : Byte} (h : b ∉ o.bytes) (rest : List Byte) :
    decode o (b :: rest) = .error (.outOfScope b) := by
  obtain ⟨hn, hd⟩ := (o.not_mem_bytes_iff b).1 h
  simp only [decode, hn, if_false, hd]

/-- R8, R72: well-formed parameters have a well-formed map. -/
theorem Params.opc_wf {p : Params} (h : p.wf = true) : p.opc.wf = true := by
  simp only [Params.wf, Bool.and_eq_true] at h
  exact h.2

/-- Of the 256 byte values, `l.length` are in a list `l` of different bytes, and the others are not. -/
theorem length_bytesOutside {l : List Byte} (h : l.Nodup) :
    ((List.range 256).filter fun k => decide (BitVec.ofNat 8 k ∉ l)).length = 256 - l.length := by
  have hin : ((List.range 256).filter fun k => decide (BitVec.ofNat 8 k ∈ l)).Perm (l.map BitVec.toNat) := by
    rw [List.perm_ext_iff_of_nodup (List.nodup_range.filter _) (h.map fun _ _ => BitVec.eq_of_toNat_eq)]
    intro k
    simp only [List.mem_filter, List.mem_range, decide_eq_true_eq, List.mem_map]
    constructor
    · rintro ⟨hk, hm⟩
      exact ⟨_, hm, BitVec.toNat_ofNat .. |>.trans (Nat.mod_eq_of_lt hk)⟩
    · rintro ⟨b, hb, rfl⟩
      exact ⟨b.isLt, by rwa [BitVec.ofNat_toNat, BitVec.setWidth_eq]⟩
  have hall := List.length_eq_length_filter_add (l := List.range 256) fun k => decide (BitVec.ofNat 8 k ∈ l)
  rw [hin.length_eq, List.length_map, List.length_range] at hall
  simp only [decide_not]
  omega

/-- Settles O3: each word is evaluated. -/
theorem specWordsDecode : Obligations.SpecWordsDecode :=
  ⟨rfl, rfl, rfl, rfl, rfl, rfl, rfl⟩

end Sys2Proof

namespace Sys2Proof.Machine

/-- Settles O34: the two branches of `execLock`. -/
theorem lockResult : Obligations.LockResult := by
  intro s
  constructor <;> intro h <;> simp only [exec, execLock, h, if_true, Bool.false_eq_true, if_false]

/-! ### The first byte of an instruction -/

/-- Once the bytes taken are out of scope, the fetch is refused with the offending byte (R75). -/
theorem fetchInstr_of_outOfScope {k : Nat} {s t : State} {b : Byte} (ht : s.takeNext = .ok t)
    (hd : decode t.cfg.opc t.opbuf = .error (.outOfScope b)) :
    fetchInstr (k + 1) s = .done (.refused (.opcodeOutOfScope b)) := by
  simp only [fetchInstr, ht, hd]

/-- The invariant does not speak of the turn. -/
theorem State.Inv.withTurn {s : State} (hi : s.Inv) (tn : Turn) : ({ s with turn := tn } : State).Inv := by
  obtain ⟨hq, ho⟩ := s.inv_iff.1 hi
  exact (State.inv_iff _).2 ⟨hq.of_same rfl rfl rfl rfl rfl rfl .inl rfl, ho.min, ho.max⟩

/-- A processor about to take the first byte of an instruction takes the byte at `CS:IP` (R19, R28). -/
theorem State.AtFetch.takesFirst {s : State} (hf : s.AtFetch) (hi : s.Inv) (hc : s.cfg.wf = true)
    (ha : s.isAbsent (phys s.cfg s.cs s.ip) = false) :
    ∃ t, ({ s with turn := .free } : State).takeNext = .ok t ∧ t.opbuf = [s.codeByte s.ip] ∧ t.cfg = s.cfg ∧
      t.lockActive = s.lockActive := by
  obtain ⟨⟨-, -, hown, hbusy, hready, -⟩, -, -, hop, -⟩ := hf
  obtain ⟨t, ht, htaken⟩ := State.HasTaken.first (s := { s with turn := .free }) ⟨hown, hbusy, hready, rfl⟩ hc
    (hi.withTurn .free) hop ha
  exact ⟨t, ht, htaken.opbuf, by rw [htaken.frame], by rw [htaken.frame]⟩

/-- Settles O2: a byte outside the map is refused by the fetch, a second `LOCK` code by `LOCK` itself. -/
theorem bytesOutsideTheMapAreRefused : Obligations.BytesOutsideTheMapAreRefused := by
  refine ⟨length_bytesOutside (l := gkOpcodes.bytes) (by decide), fun s b hf hi hc ha hb hout => ?_⟩
  obtain ⟨t, ht, hop, hcfg, hlock⟩ := hf.takesFirst hi hc ha
  rw [State.codeByte, hb] at hop
  rw [step_of_atFetch hf, maxInstrBytes]
  obtain hout | ⟨rfl, hl⟩ := hout
  · have hd : decode t.cfg.opc t.opbuf = .error (.outOfScope b) := by
      rw [hcfg, hop]
      exact decode_outOfScope hout []
    rw [fetchInstr_of_outOfScope ht hd]
  · have hd : decode t.cfg.opc t.opbuf = .ok (.lock, []) := by
      rw [hcfg, hop]
      exact decode_encode (i := .lock) (Params.opc_wf hc) rfl []
    rw [fetchInstr_of_complete ht hd]
    exact ((lockResult { t with opbuf := [] }).2 (hlock.trans hl)).trans (by rw [← hcfg])

/-! ### The two forms of the type 3 interrupt -/

/-- R148: an instruction of `len` bytes that enters a handler saves the offset it was fetched from plus `len`. -/
theorem exec_entry_of_fetchedFrom {i : Instr} {n len : Nat} {s s' : State} (hr : s'.EntryRuns n)
    (hw : Memory.wf s'.mem = true) (he : Enters i n s') (hf : s'.FetchedFrom s len) :
    ∃ t, exec i s' = .next t ∧ s'.EntryDone n (s.ip + BitVec.ofNat 16 len) t := by
  obtain ⟨t, hx, hd, -⟩ := softwareInterruptResult s' i n hr hw he
  obtain ⟨hip, -⟩ := hf
  exact ⟨t, hx, hip ▸ hd⟩

/-- Settles O38: both forms are the entry of type 3, after one byte or two. -/
theorem bothFormsOfInt3 : Obligations.BothFormsOfInt3 :=
  ⟨rfl, rfl, rfl, rfl, fun _ => rfl, fun _ _ hr hw =>
    ⟨exec_entry_of_fetchedFrom hr hw (.inr (.inl ⟨rfl, rfl⟩)), exec_entry_of_fetchedFrom hr hw (.inl rfl)⟩⟩

end Sys2Proof.Machine

/-! The pins of the package (40_pins_and_modes.md R80 to R89): which pin carries which signal on each part and in
each mode, what a signal without a pin shows, and the strap. -/

namespace Sys2Proof.Machine

/-- R80 to R83: pins 24 to 31 are those of the strap. -/
theorem pinSignal_strapped {pin : Nat} (h : 24 ≤ pin ∧ pin ≤ 31) (chip : Chip) (mode : Mode) :
    pinSignal chip mode pin = strappedPin chip mode pin := by
  unfold pinSignal
  simp (disch := omega) only [if_neg, if_pos]

/-- R82, R83: no other pin depends on the mode. -/
theorem pinSignal_not_strapped {pin : Nat} (h : ¬(24 ≤ pin ∧ pin ≤ 31)) (chip : Chip) (mode mode' : Mode) :
    pinSignal chip mode pin = pinSignal chip mode' pin := by
  simp only [pinSignal, if_neg h]

/-- R82, R83: in maximum mode the strapped pins are the same on both parts. -/
theorem strappedPin_max {pin : Nat} (h : 24 ≤ pin ∧ pin ≤ 31) (chip chip' : Chip) :
    strappedPin chip .max pin = strappedPin chip' .max pin := by
  obtain ⟨hlo, hhi⟩ := h
  interval_cases pin <;> rfl

/-- R82, R89: the strap gives each of pins 24 to 31 another signal in the other mode. -/
theorem strappedPin_max_ne_min {pin : Nat} (h : 24 ≤ pin ∧ pin ≤ 31) :
    strappedPin .i8086 .max pin ≠ strappedPin .i8086 .min pin := by
  obtain ⟨hlo, hhi⟩ := h
  interval_cases pin <;> decide

/-- The package has no other pins than 1 to 40 (R1). -/
theorem pinSignal_eq_none {pin : Nat} (h : ¬(1 ≤ pin ∧ pin ≤ 40)) (chip : Chip) (mode : Mode) :
    pinSignal chip mode pin = none :=
  Option.eq_none_iff_forall_ne_some.2 fun _ hg => h (pinSignal_range hg)

/-- R81: the pins in which the two parts differ in minimum mode. -/
theorem pinSignal_min_ne_iff (pin : Nat) :
    pinSignal .i8088 .min pin ≠ pinSignal .i8086 .min pin ↔ pin ∈ [2, 3, 4, 5, 6, 7, 8, 28, 34, 39] := by
  by_cases h : 1 ≤ pin ∧ pin ≤ 40
  · have hall : ∀ pin ∈ List.range' 1 40, (pinSignal .i8088 .min pin ≠ pinSignal .i8086 .min pin ↔
        pin ∈ [2, 3, 4, 5, 6, 7, 8, 28, 34, 39]) := by decide
    exact hall pin (List.mem_range'_1.2 (by omega))
  · refine iff_of_false (fun hne => hne ?_) fun hp => h ?_
    · rw [pinSignal_eq_none h, pinSignal_eq_none h]
    · have hrange : ∀ pin ∈ [2, 3, 4, 5, 6, 7, 8, 28, 34, 39], 1 ≤ pin ∧ pin ≤ 40 := by decide
      exact hrange pin hp

/-- R80: each of the forty pins carries a signal. -/
theorem pinSignal_isSome_iff (pin : Nat) : (pinSignal .i8086 .min pin).isSome ↔ 1 ≤ pin ∧ pin ≤ 40 := by
  refine ⟨fun h => ?_, fun h => ?_⟩
  · obtain ⟨g, hg⟩ := Option.isSome_iff_exists.1 h
    exact pinSignal_range hg
  · have hall : ∀ pin ∈ List.range' 1 40, (pinSignal .i8086 .min pin).isSome := by decide
    exact hall pin (List.mem_range'_1.2 (by omega))

/-- A signal without a pin is on none. -/
theorem pinSignal_ne_of_hasPin {chip : Chip} {mode : Mode} {g : Signal} (h : hasPin chip mode g = false)
    (pin : Nat) : pinSignal chip mode pin ≠ some g := fun hp =>
  Bool.false_ne_true (h.symm.trans (hasPin_iff.2 ⟨pin, hp⟩))

/-- R89: the signals of minimum mode have no pin in maximum mode. -/
theorem hasPin_max (chip : Chip) :
    ∀ g ∈ [Signal.inta, .ale, .den, .dtr, .mio, .iom, .wr, .hlda, .hold], hasPin chip .max g = false := by
  cases chip <;> decide

/-- R89: the signals of maximum mode have no pin in minimum mode. -/
theorem hasPin_min (chip : Chip) :
    ∀ g ∈ [Signal.rqgt0, .rqgt1, .lock, .s2, .s1, .s0, .qs0, .qs1], hasPin chip .min g = false := by
  cases chip <;> decide

/-- R89: a signal that is on no pin shows no level. -/
theorem State.outputLevel_of_no_pin {s : State} {g : Signal}
    (h : ∀ pin, pinSignal s.cfg.chip s.cfg.mode pin ≠ some g) (m : Moment) (q : Option QueueOp) :
    s.outputLevel m q g = .noPin :=
  if_neg fun hg => (hasPin_iff.1 hg).elim h

/-- R83: pin 34 of the 8088 in maximum mode. -/
theorem State.outputLevel_ss0_max {s : State} (hc : s.cfg.chip = .i8088) (hm : s.cfg.mode = .max) (m : Moment)
    (q : Option QueueOp) : s.outputLevel m q .ss0 = .one := by
  have hpin : pinSignal s.cfg.chip s.cfg.mode 34 = some .ss0 := by
    rw [hc]
    rfl
  rw [State.outputLevel_of_pin hpin, State.drivenLevel, hm]

/-- Settles O56: the three maps are evaluated; the pins that differ between the modes are those of the strap. -/
theorem pinMaps : Obligations.PinMaps := by
  refine ⟨by decide, by decide, by decide, pinSignal_min_ne_iff, fun pin => ⟨fun hne => ?_, fun hp => ?_⟩,
    fun pin hp => ?_, fun pin hp => pinSignal_not_strapped hp .., fun s m q hc hm => s.outputLevel_ss0_max hc hm m q,
    fun chip pin g hg => pinSignal_ne_of_hasPin (hasPin_max chip g hg) pin,
    fun chip pin g hg => pinSignal_ne_of_hasPin (hasPin_min chip g hg) pin,
    fun s m q g hg => State.outputLevel_of_no_pin hg m q, fun s level rest hs => ?_, pinSignal_isSome_iff, rfl, rfl⟩
  · by_contra hp
    exact hne (pinSignal_not_strapped hp ..)
  · rw [pinSignal_strapped hp, pinSignal_strapped hp]
    exact strappedPin_max_ne_min hp
  · rw [pinSignal_strapped hp, pinSignal_strapped hp]
    exact strappedPin_max hp ..
  · simp only [step, hs]
    rfl

/-! ### Status codes -/

/-- R82: where the queue status has its pins. -/
theorem pinSignal_queueStatus (chip : Chip) :
    pinSignal chip .max 24 = some .qs1 ∧ pinSignal chip .max 25 = some .qs0 := ⟨rfl, rfl⟩

/-- R101: what the pins of the queue status show outside RESET, whoever owns the bus (R108). -/
theorem State.outputLevel_queueStatus {s : State} (hm : s.cfg.mode = .max) (hr : s.pins.reset = false) (m : Moment)
    (q : Option QueueOp) :
    s.outputLevel m q .qs1 = .ofBool ((queueCode q).getLsbD 1) ∧
      s.outputLevel m q .qs0 = .ofBool ((queueCode q).getLsbD 0) := by
  obtain ⟨h1, h0⟩ := pinSignal_queueStatus s.cfg.chip
  rw [← hm] at h1 h0
  simp only [State.outputLevel_of_pin h1, State.outputLevel_of_pin h0, State.drivenLevel, hr, Bool.false_eq_true,
    if_false, and_self]

/-- R96: reading the code of a segment gives the segment. -/
theorem segOfCode_code (g : Seg) : segOfCode g.code = g := by cases g <;> rfl

/-- R96: every code of two bits is that of a segment. -/
theorem code_segOfCode : ∀ c : BitVec 2, (segOfCode c).code = c := by decide

/-- R101: reading the code of a queue operation gives the operation. -/
theorem queueOfCode_queueCode (q : Option QueueOp) : queueOfCode (queueCode q) = q := by
  cases q with
  | none => rfl
  | some op => cases op <;> rfl

/-- R101: every code of two bits is that of a queue operation or of none. -/
theorem queueCode_queueOfCode : ∀ c : BitVec 2, queueCode (queueOfCode c) = c := by decide

/-- Settles O55: the codes one by one, then the two pins. -/
theorem segmentAndQueueCodes : Obligations.SegmentAndQueueCodes :=
  ⟨segOfCode_code, code_segOfCode, queueOfCode_queueCode, queueCode_queueOfCode, rfl, rfl, rfl, rfl, rfl, rfl, rfl,
    rfl, pinSignal_queueStatus, rfl, rfl, fun _ m q hm hr => State.outputLevel_queueStatus hm hr m q⟩

/-! ### The bus given away -/

/-- R98, R108, R115: with the bus given away the processor drives no signal but `HLDA`, `ALE`, the queue status, the
request lines and, in maximum mode, pin 34 of the 8088. -/
theorem State.drivenLevel_of_away {s : State} (ho : s.busOwner ≠ .cpu) {g : Signal}
    (hg : g ∉ [Signal.hlda, .qs0, .qs1, .ale, .rqgt0, .rqgt1]) (h34 : g = .ss0 → s.cfg.mode = .min) (m : Moment)
    (q : Option QueueOp) : s.drivenLevel m q g = .hiZ := by
  have hbus (g : Signal) : s.busLevel m g = .hiZ := if_pos ho
  cases g
  case hlda | qs0 | qs1 | ale | rqgt0 | rqgt1 => exact absurd (by decide) hg
  case ss0 => simp only [State.drivenLevel, h34 rfl, hbus]
  case lock => exact if_pos ho
  all_goals simp only [State.drivenLevel, hbus, ite_self]

/-- Settles O58: none of the pins named is among those driven without the bus. -/
theorem pinsFloatWithoutTheBus : Obligations.PinsFloatWithoutTheBus := by
  intro s m q pin g ho hpin hg
  rw [State.outputLevel_of_pin hpin]
  obtain ⟨i, rfl | rfl | rfl⟩ | hg | ⟨rfl, hm⟩ := hg
  case inr.inl =>
    have hdisjoint : ∀ g ∈ [Signal.bheS7, .rd, .wr, .mio, .iom, .dtr, .den, .inta, .s2, .s1, .s0, .lock],
        g ∉ [Signal.hlda, .qs0, .qs1, .ale, .rqgt0, .rqgt1] ∧ g ≠ .ss0 := by decide
    obtain ⟨hnot, hne⟩ := hdisjoint g hg
    exact s.drivenLevel_of_away ho hnot (fun h => absurd h hne) m q
  case inr.inr => exact s.drivenLevel_of_away ho (by decide) (fun _ => hm) m q
  all_goals exact s.drivenLevel_of_away ho (by simp) (fun h => by cases h) m q

end Sys2Proof.Machine

/-! What a bus cycle shows on the status pins (41_status_signals.md R94 to R98): the code of its kind on `S2 S1 S0`, and
`S3` to `S6` in its status part. -/

namespace Sys2Proof.Machine

/-- The pins of the bus-cycle code, each with its bit of the code (R94). -/
def codePins : List (Signal × Nat) := [(.s0, 0), (.s1, 1), (.s2, 2)]

/-- R94: reading the code of a kind gives the kind. -/
theorem kindOfCode_code (k : CycleKind) : kindOfCode k.code = k := by cases k <;> rfl

/-- R94: every code of three bits is that of a kind. -/
theorem code_kindOfCode : ∀ c : BitVec 3, (kindOfCode c).code = c := by decide

/-- R82, R83: where the bus-cycle code has its pins in maximum mode, on both parts. -/
theorem pinSignal_codePins (chip : Chip) : ∀ g ∈ codePins, pinSignal chip .max (26 + g.2) = some g.1 := by
  cases chip <;> decide

/-- R89: in minimum mode no pin carries the bus-cycle code. -/
theorem hasPin_codePins_min (chip : Chip) : ∀ g ∈ codePins, hasPin chip .min g.1 = false := by
  have hlost : ∀ g ∈ codePins, g.1 ∈ [Signal.rqgt0, .rqgt1, .lock, .s2, .s1, .s0, .qs0, .qs1] := by decide
  exact fun g hg => hasPin_min chip g.1 (hlost g hg)

/-- R80 to R83: the address and status pins are the same on both parts and in both modes. -/
theorem pinSignal_addrStatus {i : Nat} (h : 16 ≤ i ∧ i ≤ 19) (chip : Chip) (mode : Mode) :
    pinSignal chip mode (54 - i) = some (.addrStatus i) := by
  obtain ⟨hlo, hhi⟩ := h
  interval_cases i <;> rfl

/-- The outputs that depend on the bus cycle alone show what the bus shows. -/
theorem State.drivenLevel_of_output {g : Signal} (hd : g.direction = .output)
    (hg : g ∉ [Signal.hlda, .qs0, .qs1, .ale, .ss0, .lock]) (s : State) (m : Moment) (q : Option QueueOp) :
    s.drivenLevel m q g = s.busLevel m g := by
  cases g
  case hlda | qs0 | qs1 | ale | ss0 | lock => exact absurd (by decide) hg
  case rqgt0 | rqgt1 => cases hd
  all_goals simp only [State.drivenLevel, hd, reduceCtorEq, or_self, if_false]

section OwnsTheBus

variable {s : State} (ho : s.busOwner = .cpu) (hr : s.pins.reset = false)
include ho hr

/-- Outside RESET a processor that owns the bus shows its own cycle. -/
theorem State.busLevel_cycle (r : BusRecord) (part : Part) (g : Signal) :
    s.busLevel (.cycle r part) g = cycleLevel s.cfg.chip r part g := by
  simp [State.busLevel, ho, hr]

/-- Outside RESET a processor that owns the bus shows no cycle between cycles. -/
theorem State.busLevel_between (g : Signal) : s.busLevel .between g = passiveLevel s.cfg.chip g := by
  simp [State.busLevel, ho, hr]

/-- R94: what the pins of the bus-cycle code show. -/
theorem State.outputLevel_codePins (hm : s.cfg.mode = .max) (q : Option QueueOp) :
    ∀ g ∈ codePins,
      (∀ r part, s.outputLevel (.cycle r part) q g.1 = .ofBool (r.kind.code.getLsbD g.2)) ∧
      s.outputLevel .between q g.1 = .ofBool (CycleKind.passive.code.getLsbD g.2) := by
  intro g hg
  have hout : ∀ g ∈ codePins, g.1.direction = .output ∧ g.1 ∉ [Signal.hlda, .qs0, .qs1, .ale, .ss0, .lock] := by
    decide
  have hcycle : ∀ g ∈ codePins, ∀ chip r part,
      cycleLevel chip r part g.1 = .ofBool (r.kind.code.getLsbD g.2) := by
    simp [codePins, cycleLevel]
  have hpassive : ∀ g ∈ codePins, ∀ chip,
      passiveLevel chip g.1 = .ofBool (CycleKind.passive.code.getLsbD g.2) := by
    simp [codePins, passiveLevel, CycleKind.code, Level.ofBool]
  obtain ⟨hd, hn⟩ := hout g hg
  have hpin := pinSignal_codePins s.cfg.chip g hg
  rw [← hm] at hpin
  refine ⟨fun r part => ?_, ?_⟩
  · rw [State.outputLevel_of_pin hpin, State.drivenLevel_of_output hd hn, State.busLevel_cycle ho hr,
      hcycle g hg]
  · rw [State.outputLevel_of_pin hpin, State.drivenLevel_of_output hd hn, State.busLevel_between ho hr,
      hpassive g hg]

/-- R100: what the address and status pins show during a cycle. -/
theorem State.outputLevel_addrStatus {i : Nat} (hi : 16 ≤ i ∧ i ≤ 19) (r : BusRecord) (part : Part)
    (q : Option QueueOp) :
    s.outputLevel (.cycle r part) q (.addrStatus i) = cycleLevel s.cfg.chip r part (.addrStatus i) := by
  rw [State.outputLevel_of_pin (pinSignal_addrStatus hi ..), State.drivenLevel_of_output rfl (by simp),
    State.busLevel_cycle ho hr]

end OwnsTheBus

/-- Settles O54: the table both ways, then the three pins. -/
theorem cycleKindCodes : Obligations.CycleKindCodes := by
  refine ⟨kindOfCode_code, code_kindOfCode, rfl, fun g hg => ⟨?_, ?_, ?_, ?_, ?_⟩⟩
  · have hout : ∀ g ∈ codePins, g.1.direction = .output := by decide
    exact hout g hg
  · exact fun chip pin => pinSignal_ne_of_hasPin (hasPin_codePins_min chip g hg) pin
  · exact fun chip => ⟨26 + g.2, pinSignal_codePins chip g hg⟩
  · intro s m q hm
    refine State.outputLevel_of_no_pin (pinSignal_ne_of_hasPin ?_) m q
    rw [hm]
    exact hasPin_codePins_min s.cfg.chip g hg
  · exact fun s q hm ho hr => State.outputLevel_codePins ho hr hm q g hg

/-- Settles O59: the four pins, each with its case of `cycleLevel`. -/
theorem statusPartLevels : Obligations.StatusPartLevels := by
  intro s r q ho hr
  have hlevel (i : Nat) (hi : 16 ≤ i ∧ i ≤ 19) := State.outputLevel_addrStatus ho hr hi r .status q
  exact ⟨hlevel 16 (by decide), hlevel 17 (by decide), hlevel 18 (by decide), hlevel 19 (by decide)⟩

end Sys2Proof.Machine

/-! The bus cycle of `HLT` (44_sync_instructions.md R130), and which bus cycles a step records: without a due `INTR` no
acknowledge cycle is among them (60_exceptions.md R137, R143; 41_status_signals.md R104). -/

namespace Sys2Proof.Machine

/-- R130: with the bus free `HLT` runs its one cycle and halts. -/
theorem exec_hlt_of_busFree {s : State} (h : s.BusFree) :
    exec .hlt s = .next ({ s with latch := [] }.logCycle haltCycle none).enterHalt := by
  have hcycle : ({ s with latch := [] } : State).doMicro (.cycle haltCycle) =
      .ok ({ s with latch := [] }.logCycle haltCycle none) :=
    State.runCycle_of_busFree (s := { s with latch := [] }) h haltCycle
  exact congrArg MicroRes.toOutcome (runMicros_cons_ok hcycle)

/-- Settles O35: the record is that of the cycle `HLT` runs. -/
theorem hltResult : Obligations.HltResult := by
  intro s h
  obtain ⟨r, hh, hk, hm, hw, hd, -, hl⟩ := ({ s with latch := [] } : State).logCycle_history haltCycle none
  exact ⟨_, r, exec_hlt_of_busFree h, hh, hm, hk, hw, hd, hl, rfl⟩

/-! ### Records of bus cycles -/

/-- The records added from `s` to `t` are of no acknowledge cycle. -/
def State.AddsNoAck (s t : State) : Prop :=
  ∃ recs, t.history = s.history ++ recs ∧ ∀ r ∈ recs, r.kind ≠ .intAck

namespace State.AddsNoAck

theorem of_same {s t : State} (h : t.history = s.history) : s.AddsNoAck t := ⟨[], by simpa using h, by simp⟩

theorem of_record {s t : State} {r : BusRecord} (h : t.history = s.history ++ [r]) (hk : r.kind ≠ .intAck) :
    s.AddsNoAck t :=
  ⟨[r], h, by simpa using hk⟩

theorem trans {a b c : State} (hab : a.AddsNoAck b) (hbc : b.AddsNoAck c) : a.AddsNoAck c := by
  obtain ⟨rs, hh, hk⟩ := hab
  obtain ⟨rs', hh', hk'⟩ := hbc
  refine ⟨rs ++ rs', by rw [hh', hh, List.append_assoc], fun r hr => ?_⟩
  exact (List.mem_append.1 hr).elim (hk r) (hk' r)

end State.AddsNoAck

/-- A data cycle that ends adds one record, of its kind (R47 g). -/
theorem State.completeData_history {s t : State} {c : Cycle} (h : (s.completeData c).Leaves t) :
    ∃ r, t.history = s.history ++ [r] ∧ r.kind = c.kind := by
  unfold State.completeData at h
  split at h
  · rw [MicroRes.leaves_ok] at h
    subst h
    exact ⟨_, rfl, rfl⟩
  · split at h
    · exact absurd h MicroRes.leaves_refused
    · rw [MicroRes.leaves_ok] at h
      subst h
      exact ⟨_, by rw [State.logCycle, State.storeBytes_history], rfl⟩
  · split at h <;> rw [MicroRes.leaves_ok] at h <;> subst h <;> exact ⟨_, rfl, rfl⟩
  · rw [MicroRes.leaves_ok] at h
    subst h
    exact ⟨_, rfl, rfl⟩

/-- What making a byte available can do: nothing, or a code access, begun before or now (R28). -/
theorem State.fillQueue_cases {s t : State} (h : s.fillQueue.Leaves t) :
    t = s ∨ s.endFetch.Leaves t ∨ s.spend.endFetch.Leaves t := by
  unfold State.fillQueue at h
  split at h
  · exact .inl (MicroRes.leaves_ok.1 h).symm
  · split at h
    · exact .inr (.inl h)
    · exact .inl (MicroRes.leaves_parked.1 h).symm
    · split at h
      · exact .inr (.inr h)
      · exact .inl (MicroRes.leaves_parked.1 h).symm

/-- What taking a byte can do: make one available and take it or wait (R67). -/
theorem State.takeNext_cases {s t : State} (h : s.takeNext.Leaves t) :
    ∃ u, s.fillQueue.Leaves u ∧ (t = u ∨ ∃ b rest, t = u.takeByte b rest) := by
  unfold State.takeNext at h
  split at h
  · rename_i u hu
    split at h
    · exact ⟨u, .inl hu, .inr ⟨_, _, (MicroRes.leaves_ok.1 h).symm⟩⟩
    · exact ⟨u, .inl hu, .inl (MicroRes.leaves_parked.1 h).symm⟩
  · rename_i u hu
    exact ⟨u, .inr hu, .inl (MicroRes.leaves_parked.1 h).symm⟩
  · exact absurd h MicroRes.leaves_refused

/-! ### Parts without an acknowledge -/

/-- None of the parts is an acknowledge cycle (R140). -/
def HasNoAck (ms : List Micro) : Prop := ∀ c, .cycle c ∈ ms → c.kind ≠ .intAck

theorem HasNoAck.append {as bs : List Micro} (ha : HasNoAck as) (hb : HasNoAck bs) : HasNoAck (as ++ bs) :=
  fun c hc => (List.mem_append.1 hc).elim (ha c) (hb c)

/-- A word access to memory or a port has none. -/
theorem wordCycles_hasNoAck {kind : CycleKind} (hk : kind ≠ .intAck) (chip : Chip) (pa : Addr) (v : Word)
    (g : Option Seg) : HasNoAck ((wordCycles chip kind pa v g).map .cycle) := by
  intro c hc
  obtain ⟨c', hc', rfl⟩ : ∃ c' ∈ wordCycles chip kind pa v g, c' = c := by simpa using hc
  rw [show c'.kind = kind from wordCycles_kind (f := false) (c := (false, c')) (List.mem_map_of_mem hc')]
  exact hk

theorem State.stackWord_hasNoAck {kind : CycleKind} (hk : kind ≠ .intAck) (s : State) (off v : Word) :
    HasNoAck (s.stackWord kind off v) := by
  unfold State.stackWord
  split
  · simp [HasNoAck]
  · exact wordCycles_hasNoAck hk _ _ _ _

theorem State.pushOps_hasNoAck (s : State) (sp v : Word) : HasNoAck (s.pushOps sp v) :=
  HasNoAck.append (as := [.setSp (sp - 2#16)]) (by simp [HasNoAck])
    (State.stackWord_hasNoAck (by decide) s _ _)

theorem State.popOps_hasNoAck (s : State) (sp : Word) : HasNoAck (s.popOps sp) :=
  (State.stackWord_hasNoAck (by decide) s _ _).append (by simp [HasNoAck])

/-- Whatever order the turn gives, an entry's accesses are its writes and its reads (R147, U19). -/
theorem mem_of_mem_mergeEntry {α : Type} {o : EntryOrder} {writes : List (List α)} {readIp readCs : List α} {a : α}
    (h : a ∈ mergeEntry o writes readIp readCs) : (∃ w ∈ writes, a ∈ w) ∨ a ∈ readIp ∨ a ∈ readCs := by
  simp only [mergeEntry, List.mem_append, List.mem_flatten] at h
  obtain (((⟨w, hw, ha⟩ | ha) | ⟨w, hw, ha⟩) | ha) | ⟨w, hw, ha⟩ := h
  · exact .inl ⟨w, List.mem_of_mem_take hw, ha⟩
  · exact .inr (.inl ha)
  · exact .inl ⟨w, List.mem_of_mem_take (List.mem_of_mem_drop hw), ha⟩
  · exact .inr (.inr ha)
  · exact .inl ⟨w, List.mem_of_mem_drop hw, ha⟩

/-- An entry has none: its accesses are pushes and reads of the vector (R147). -/
theorem State.interruptEntry_hasNoAck (s : State) (n : Nat) (ip : Word) : HasNoAck (s.interruptEntry n ip) := by
  unfold State.interruptEntry
  split
  · simp [HasNoAck]
  · refine HasNoAck.append (fun c hc => ?_) (by simp [HasNoAck])
    obtain ⟨w, hw, hc⟩ | hc | hc := mem_of_mem_mergeEntry hc
    · simp only [List.mem_cons, List.not_mem_nil, or_false] at hw
      obtain rfl | rfl | rfl := hw
      · exact (s.pushOps_hasNoAck _ _).append (by simp [HasNoAck]) c hc
      · exact s.pushOps_hasNoAck _ _ c hc
      · exact s.pushOps_hasNoAck _ _ c hc
    · exact wordCycles_hasNoAck (by decide) _ _ _ _ c hc
    · exact wordCycles_hasNoAck (by decide) _ _ _ _ c hc

theorem State.interruptReturn_hasNoAck (s : State) : HasNoAck s.interruptReturn :=
  ((s.popOps_hasNoAck _).append (s.popOps_hasNoAck _)).append (s.popOps_hasNoAck _) |>.append (by simp [HasNoAck])

/-! ### What adds no acknowledge -/

/-- A boundary leads to an acknowledge only for a due `INTR` (R137, R138). -/
theorem State.examine_ne_acknowledge {s : State} (h : s.dueIntr = false) (tfb : Bool) :
    s.examine tfb ≠ .acknowledge := by
  have hnot : s.takesIntr = false := by simp [State.takesIntr, h]
  simp only [State.examine, h, hnot, Bool.or_false, Bool.false_eq_true, if_false]
  split
  · nofun
  · split
    · nofun
    · split <;> nofun

namespace State.AddsNoAck

/-- A code access that ends adds its own record, one that is held none. -/
theorem endFetch {s t : State} (h : s.endFetch.Leaves t) : s.AddsNoAck t := by
  unfold State.endFetch at h
  split at h
  · rw [MicroRes.leaves_ok] at h
    subst h
    exact of_record rfl (by simp [State.codeCycle])
  · rw [MicroRes.leaves_parked] at h
    subst h
    exact of_same rfl

theorem endData {s t : State} {c : Cycle} (hc : c.kind ≠ .intAck) (h : (s.endData c).Leaves t) :
    s.AddsNoAck t := by
  unfold State.endData at h
  split at h
  · obtain ⟨r, hh, hk⟩ := State.completeData_history h
    exact of_record hh (hk ▸ hc)
  · rw [MicroRes.leaves_parked] at h
    subst h
    exact of_same rfl

theorem startData {s t : State} {c : Cycle} (hc : c.kind ≠ .intAck) (h : (s.startData c).Leaves t) :
    s.AddsNoAck t := by
  unfold State.startData at h
  split at h
  · exact trans (b := s.spend) (of_same rfl) (endData hc h)
  · rw [MicroRes.leaves_parked] at h
    subst h
    exact of_same rfl

theorem runCycle {s t : State} {c : Cycle} (hc : c.kind ≠ .intAck) (h : (s.runCycle c).Leaves t) :
    s.AddsNoAck t := by
  unfold State.runCycle at h
  split at h
  · exact startData hc h
  · exact endData hc h
  · split at h
    · rename_i u hu
      exact (endFetch (.inl hu)).trans (startData hc h)
    · rename_i u hu
      rw [MicroRes.leaves_parked] at h
      subst h
      exact endFetch (.inr hu)
    · exact absurd h MicroRes.leaves_refused

/-- A part that is no bus cycle adds no record. -/
theorem doMicro {s t : State} {m : Micro} (hm : HasNoAck [m]) (h : (s.doMicro m).Leaves t) : s.AddsNoAck t := by
  cases m <;> simp only [State.doMicro, MicroRes.leaves_ok, MicroRes.leaves_refused] at h
  case cycle c => exact runCycle (hm c (List.mem_singleton_self _)) h
  case enterHandler => subst h; exact of_same (by simp)
  case leaveHandler => subst h; exact of_same (by simp)
  all_goals subst h; exact of_same rfl

theorem runMicros {ms : List Micro} {s t : State} (hn : HasNoAck ms) (h : (runMicros ms s).Leaves t) :
    s.AddsNoAck t := by
  induction ms generalizing s with
  | nil =>
    rw [Sys2Proof.Machine.runMicros, MicroRes.leaves_ok] at h
    subst h
    exact of_same rfl
  | cons m ms ih =>
    have hm : HasNoAck [m] := fun c hc => hn c (List.mem_cons.2 (.inl (List.mem_singleton.1 hc)))
    have hms : HasNoAck ms := fun c hc => hn c (List.mem_cons_of_mem _ hc)
    rw [Sys2Proof.Machine.runMicros] at h
    split at h
    · exact (doMicro hm (.inl ‹_›)).trans (ih hms h)
    · rename_i u hu
      rw [MicroRes.leaves_parked] at h
      subst h
      exact trans (b := u) (doMicro hm (.inr hu)) (of_same rfl)
    · exact absurd h MicroRes.leaves_refused

theorem start {ms : List Micro} {s t : State} (hn : HasNoAck ms) (h : s.start ms = .next t) : s.AddsNoAck t :=
  trans (b := { s with latch := [] }) (of_same rfl) (runMicros hn (MicroRes.toOutcome_next.1 h))

theorem startEntry {s t : State} {n : Nat} {ip : Word} {m : Micro} (hm : HasNoAck [m])
    (h : s.start (s.interruptEntry n ip ++ [m]) = .next t) : s.AddsNoAck t :=
  start ((s.interruptEntry_hasNoAck n ip).append hm) h

/-- No instruction acknowledges anything: none of its parts is an acknowledge cycle. -/
theorem exec {i : Instr} {s t : State} (h : exec i s = .next t) : s.AddsNoAck t := by
  cases i <;> simp only [Sys2Proof.Machine.exec] at h
  case lock =>
    unfold execLock at h
    split at h <;> cases h
    exact of_same rfl
  case wait =>
    unfold execWait at h
    split at h <;> cases h <;> exact of_same rfl
  case int3 => exact startEntry (by simp [HasNoAck]) h
  case intN n => exact startEntry (by simp [HasNoAck]) h
  case into =>
    unfold execInto at h
    split at h
    · exact startEntry (by simp [HasNoAck]) h
    · cases h
      exact of_same rfl
  case iret => exact start (s.interruptReturn_hasNoAck.append (by simp [HasNoAck])) h
  case hlt => exact start (by simp [HasNoAck, haltCycle]) h
  all_goals cases h; exact of_same rfl

theorem takeInterrupt {n : Nat} {ip : Word} {s t : State} (h : s.takeInterrupt n ip = .next t) : s.AddsNoAck t := by
  unfold State.takeInterrupt at h
  exact trans (of_same (by split <;> rfl)) (startEntry (by simp [HasNoAck]) h)

theorem takeNext {s t : State} (h : s.takeNext.Leaves t) : s.AddsNoAck t := by
  obtain ⟨u, hu, ht⟩ := State.takeNext_cases h
  have hfilled : s.AddsNoAck u := by
    obtain rfl | hu | hu := State.fillQueue_cases hu
    · exact of_same rfl
    · exact endFetch hu
    · exact trans (b := s.spend) (of_same rfl) (endFetch hu)
  obtain rfl | ⟨b, rest, rfl⟩ := ht
  · exact hfilled
  · exact hfilled.trans (of_same (by simp))

theorem fetches {k : Nat} {s t : State} (h : s.Fetches k t) : s.AddsNoAck t := by
  induction k generalizing s with
  | zero => exact of_same (by rw [h.eq_of_zero])
  | succ k ih =>
    obtain hwaits | ⟨u, hu, rfl | hrest⟩ := h.cases_succ
    · exact takeNext (.inr hwaits)
    · exact (takeNext (.inl hu)).trans (of_same rfl)
    · exact (takeNext (.inl hu)).trans (ih hrest)

/-- Taking an instruction and running it. -/
theorem fetched {s t : State} (h : (fetchInstr maxInstrBytes s).outcome = .next t) : s.AddsNoAck t := by
  generalize hp : fetchInstr maxInstrBytes s = p at h
  cases p with
  | run i u => exact (fetches (.inr ⟨i, hp⟩)).trans (exec h)
  | done o =>
    obtain rfl : o = .next t := h
    exact fetches (.inl hp)

/-- An idle processor acknowledges only a due `INTR` (R151). -/
theorem idleTurn {s t : State} (hd : s.dueIntr = false) (h : s.idleTurn = .next t) : s.AddsNoAck t := by
  have left : s.leaveIdle.1.history = s.history := by
    unfold State.leaveIdle
    split <;> rfl
  have hnot : s.takesIntr = false := by simp [State.takesIntr, hd]
  unfold State.idleTurn at h
  split at h
  · cases h
    exact of_same rfl
  · split at h
    · exact trans (of_same left) (takeInterrupt h)
    · rw [hnot] at h
      cases h
      exact of_same rfl

/-- At a boundary the processor acknowledges only a due `INTR` (R137, R138). -/
theorem proceed {s t : State} (hm : s.micro = []) (hd : s.dueIntr = false) (h : s.proceed.outcome = .next t) :
    s.AddsNoAck t := by
  have hpassed : s.AddsNoAck { s with boundary := none } := of_same rfl
  unfold State.proceed at h
  split at h
  · rename_i hwaits
    rw [hm] at hwaits
    cases hwaits
  · split at h
    · exact idleTurn hd h
    · split at h
      · exact fetched h
      · rename_i tfb _
        dsimp only at h
        split at h
        · cases h
        · exact hpassed.trans (takeInterrupt h)
        · exact absurd ‹_› (State.examine_ne_acknowledge hd tfb)
        · exact hpassed.trans (fetched h)

/-- A code access that was held ends first, and changes nothing of what is due or waits (R110). -/
theorem afterWait {s u : State} (h : s.afterWait = some u) :
    s.AddsNoAck u ∧ u.micro = s.micro ∧ u.dueIntr = s.dueIntr := by
  unfold State.afterWait at h
  split at h
  · cases h
    exact ⟨of_same rfl, rfl, rfl⟩
  · split at h <;> cases h
    exact ⟨of_same rfl, rfl, rfl⟩
  · split at h <;> cases h
    exact ⟨of_record rfl (by simp [State.codeCycle]), rfl, rfl⟩

/-- A move of a processor with nothing waiting. -/
theorem turnOf {s t : State} (hm : s.micro = []) (hd : s.dueIntr = false) (h : turnOf s = .next t) :
    s.AddsNoAck t := by
  rw [turnOf_eq_outcome, State.prepare] at h
  split at h
  · cases h
    exact of_same rfl
  · split at h
    · cases h
      exact of_same rfl
    · rename_i u hu
      obtain ⟨hadds, hmicro, hdue⟩ := afterWait hu
      exact hadds.trans (proceed (hmicro.trans hm) (hdue.trans hd) h)

/-- The bus interface runs code accesses only (R10). -/
theorem busStep {s t : State} {b : BusAct} (h : s.busStep b = some (.next t)) : s.AddsNoAck t := by
  obtain ⟨-, he⟩ | ⟨-, rfl⟩ | ⟨-, rfl⟩ | ⟨l, -, rfl⟩ := busStep_cases h
  · exact endFetch he
  · exact of_same rfl
  · exact of_same rfl
  · cases l <;> exact of_same rfl

/-- Another master runs memory and port accesses only (R124). -/
theorem envAct {s t : State} {e : EnvAct} (hn : ∀ level, e ≠ .pin .reset level) (h : s.envAct e = .next t) :
    s.AddsNoAck t := by
  have hkind : ∀ {k pa w}, s.masterMay k pa w = true → k ≠ .intAck := by
    rintro k pa w hm rfl
    simp [State.masterMay] at hm
  obtain ⟨level, hr, -⟩ | ⟨p, level, -, -, pins, nmi, rfl⟩ | ⟨b, -, rfl⟩ | ⟨l, -, -, -, rfl⟩ | ⟨l, -, -, rfl⟩ |
    ⟨k, pa, w, d, -, hm, ⟨rfl, -, rfl⟩ | ⟨-, rfl⟩⟩ := envAct_cases h
  · exact absurd hr (hn level)
  · exact of_same rfl
  · exact of_same rfl
  · cases l <;> exact of_same rfl
  · exact of_same rfl
  · exact of_record (by rw [State.logMaster, State.storeBytes_history]) (by simp)
  · exact of_record rfl (hkind hm)

end State.AddsNoAck

/-- Settles O48: `State.AddsNoAck` for the move of each agent. -/
theorem acknowledgeOnlyForIntr : Obligations.AcknowledgeOnlyForIntr := by
  intro s t hm hd hn h
  obtain ⟨rest, tn, ht, -⟩ | ⟨b, rest, hb, -⟩ | ⟨e, rest, hs, he⟩ := step_cases h
  · exact State.AddsNoAck.turnOf (s := { s with script := rest, turn := tn }) hm hd ht
  · exact State.AddsNoAck.busStep (s := { s with script := rest }) hb
  · refine State.AddsNoAck.envAct (s := { s with script := rest }) (fun level hl => hn level rest ?_) he
    rw [hs, hl]

end Sys2Proof.Machine

/-! Bus control (42_bus_control.md): the hold handshake and `HLDA` (R113, R114), the request lines under `LOCK` (R118,
R120); and the two instructions that change nothing (44_sync_instructions.md R127, R128). -/

namespace Sys2Proof.Machine

/-! ### The hold handshake -/

/-- R114: when `grant_hold` is enabled. -/
theorem State.canGrantHold_iff (s : State) :
    s.canGrantHold = true ↔ s.cfg.mode = .min ∧ s.busOwner = .cpu ∧ s.pins.hold = true ∧ s.busy = none := by
  simp [State.canGrantHold, and_assoc]

/-- R114: when `release_hold` is enabled. -/
theorem State.canReleaseHold_iff (s : State) :
    s.canReleaseHold = true ↔ s.busOwner = .hold ∧ s.pins.hold = false := by
  simp [State.canReleaseHold]

/-- R114: a grant of `HOLD` that a script names, outside RESET. -/
theorem State.busAct_grantHold {s : State} (hr : s.pins.reset = false) :
    s.busAct .grantHold =
      if s.cfg.mode = .min ∧ s.busOwner = .cpu ∧ s.pins.hold = true ∧ s.busy = none
      then .next { s with busOwner := .hold } else .fault (.notEnabled (.bus .grantHold)) := by
  simp only [← State.canGrantHold_iff, State.busAct, State.busStep, hr]
  cases s.canGrantHold <;> rfl

/-- R114: taking the bus back from `HOLD`, where a script names it, outside RESET. -/
theorem State.busAct_releaseHold {s : State} (hr : s.pins.reset = false) :
    s.busAct .releaseHold =
      if s.busOwner = .hold ∧ s.pins.hold = false
      then .next { s with busOwner := .cpu } else .fault (.notEnabled (.bus .releaseHold)) := by
  simp only [← State.canReleaseHold_iff, State.busAct, State.busStep, hr]
  cases s.canReleaseHold <;> rfl

/-- Settles O25: each step of the bus interface in the state with the rest of the script. -/
theorem holdHandshake : Obligations.HoldHandshake := by
  intro s rest hr
  refine ⟨fun hs => ?grant, fun hs => ?release⟩ <;> simp only [step, hs]
  case grant => exact State.busAct_grantHold (s := { s with script := rest }) hr
  case release => exact State.busAct_releaseHold (s := { s with script := rest }) hr

/-- Settles O57: `HLDA` has its pin in minimum mode, and shows what the processor drives. -/
theorem hldaShowsHold : Obligations.HldaShowsHold := by
  refine ⟨fun _ => rfl, rfl, fun s m q hm => ?_⟩
  have hpin : pinSignal s.cfg.chip s.cfg.mode 30 = some .hlda := by
    rw [hm]
    rfl
  rw [State.outputLevel_of_pin hpin, State.drivenLevel]
  by_cases ho : s.busOwner = .hold <;> simp [ho, Level.ofBool]

/-! ### The request lines under `LOCK` -/

/-- A move of the RESET pin does not take the bus from the processor (R39, R162). -/
theorem State.resetPin_busOwner {s : State} (ho : s.busOwner = .cpu) (level : Bool) :
    (s.resetPin level).busOwner = .cpu := by
  unfold State.resetPin
  dsimp only
  split
  · exact ho
  · split <;> rfl

/-- The environment does not take the bus from the processor: a request waits for its grant (R118). -/
theorem State.envAct_busOwner {s t : State} {e : EnvAct} (ho : s.busOwner = .cpu) (h : s.envAct e = .next t) :
    t.busOwner = .cpu := by
  obtain ⟨level, -, rfl⟩ | ⟨p, level, -, -, pins, nmi, rfl⟩ | ⟨b, -, rfl⟩ | ⟨l, -, -, -, rfl⟩ | ⟨l, -, -, rfl⟩ |
    ⟨k, pa, w, d, -, hm, -⟩ := envAct_cases h
  · exact State.resetPin_busOwner ho level
  · exact ho
  · exact ho
  · cases l <;> exact ho
  · rfl
  · exact absurd ho (State.busOwner_of_masterMay hm)

/-- While `lock_active` is 1 the bus interface grants no line (R118). -/
theorem State.busStep_busOwner_of_locked {s t : State} {b : BusAct} (hl : s.lockActive = true)
    (ho : s.busOwner = .cpu) (h : s.busStep b = some (.next t)) : t.busOwner = .cpu ∨ t.busOwner = .hold := by
  obtain ⟨hf, he⟩ | ⟨-, rfl⟩ | ⟨-, rfl⟩ | ⟨l, hg, -⟩ := busStep_cases h
  · exact .inl ((State.KeepsOwner.procClosed.endFetch hf he).busOwner.trans ho)
  · exact .inr rfl
  · exact .inl rfl
  · obtain ⟨-, -, -, hnot, -⟩ := (s.canGrantLine_iff l).1 hg
    exact absurd (hl.symm.trans hnot) (by decide)

/-- Settles O27: the processor and the environment leave the bus where it is, the bus interface gives it to `HOLD` at
most. -/
theorem lockKeepsTheBus : Obligations.LockKeepsTheBus := by
  intro s t hl ho h
  have howner : t.busOwner = .cpu ∨ t.busOwner = .hold := by
    obtain ⟨rest, tn, ht, -⟩ | ⟨b, rest, hb, -⟩ | ⟨e, rest, -, he⟩ := step_cases h
    · exact .inl ((State.KeepsOwner.procClosed.turnOf ht).busOwner.trans ho)
    · exact State.busStep_busOwner_of_locked (s := { s with script := rest }) hl ho hb
    · exact .inl (State.envAct_busOwner (s := { s with script := rest }) ho he)
  obtain hc | hc := howner <;> rw [hc] <;> decide

/-! ### Instructions that change nothing -/

/-- Settles O31: `NOP`, and the branch of `WAIT` with `TEST = 0`, only end. -/
theorem nopAndReleasedWaitResult : Obligations.NopAndReleasedWaitResult := by
  refine fun s => ⟨rfl, fun ht => ?_⟩
  rw [exec, execWait, if_neg (by simp [ht])]
  rfl

end Sys2Proof.Machine

/-! Wait states (42_bus_control.md R110): a part of an instruction that waits for `READY` at its first bus cycle goes on
from there as it would have run. -/

namespace Sys2Proof.Machine

/-- The same state with the pin `READY` at the level `b` (R110). -/
def State.withReady (s : State) (b : Bool) : State := { s with pins := { s.pins with ready := b } }

/-- A bus cycle that `READY = 0` holds, or that may not start, waits in a state from which it goes on, once `READY` is
1, as it would have run (R110). -/
theorem State.runCycle_resumes {s : State} (hb : s.busy = none) (c : Cycle) :
    ∃ turn busy,
      (s.withReady false).runCycle c = .parked { s.withReady false with turn := turn, busy := busy } ∧
      ({ s.withReady true with turn := turn, busy := busy } : State).runCycle c = (s.withReady true).runCycle c := by
  have hstart (b : Bool) : (s.withReady b).runCycle c =
      if s.mayStart then (s.spend.withReady b).endData c else .parked (s.withReady b) := by
    simp only [State.runCycle, show (s.withReady b).busy = none from hb]
    rfl
  by_cases hm : s.mayStart = true
  · exact ⟨s.spend.turn, some (.data c), by rw [hstart, if_pos hm]; rfl, by rw [hstart, if_pos hm]; rfl⟩
  · exact ⟨s.turn, none, by rw [hstart, if_neg hm, ← hb]; rfl, by rw [← hb]; rfl⟩

/-- No part starts the entry of an acknowledged interrupt (R140). -/
def HasNoEntry (ms : List Micro) : Prop := ∀ ip, .enterType ip ∉ ms

theorem State.enterHandler_withReady (s : State) (b : Bool) :
    (s.withReady b).enterHandler = s.enterHandler.withReady b := by
  simp only [State.enterHandler, State.flushQueue, State.reportQueue_eq]
  rfl

theorem State.leaveHandler_withReady (s : State) (b : Bool) :
    (s.withReady b).leaveHandler = s.leaveHandler.withReady b := by
  simp only [State.leaveHandler, State.flushQueue, State.reportQueue_eq]
  rfl

/-- A part that is no bus cycle does the same at either level of `READY`. -/
theorem State.doMicro_withReady {s : State} {m : Micro} (hb : s.busy = none) (hm : s.micro = [])
    (hc : ∀ c, m ≠ .cycle c) (hn : HasNoEntry [m]) :
    (∃ r, ∀ b, (s.withReady b).doMicro m = .refused r) ∨
      ∃ t : State, t.busy = none ∧ t.micro = [] ∧ ∀ b, (s.withReady b).doMicro m = .ok (t.withReady b) := by
  cases m
  case cycle c => exact absurd rfl (hc c)
  case enterType ip => exact absurd (List.mem_singleton_self _) (hn ip)
  case refuse r => exact .inl ⟨r, fun _ => rfl⟩
  case enterHandler =>
    exact .inr ⟨s.enterHandler, by simp, by simpa using hm, fun b => congrArg MicroRes.ok (s.enterHandler_withReady b)⟩
  case leaveHandler =>
    exact .inr ⟨s.leaveHandler, by simp, by simpa using hm, fun b => congrArg MicroRes.ok (s.leaveHandler_withReady b)⟩
  case setSp v => exact .inr ⟨s.setSp v, hb, hm, fun _ => rfl⟩
  case clearIfTf => exact .inr ⟨s.clearIfTf, hb, hm, fun _ => rfl⟩
  case enterHalt => exact .inr ⟨s.enterHalt, hb, hm, fun _ => rfl⟩
  case endInstr tfb => exact .inr ⟨s.endInstr tfb, hb, hm, fun _ => rfl⟩
  case endEntry => exact .inr ⟨s.endEntry, hb, hm, fun _ => rfl⟩

/-- Parts that have to wait at their first bus cycle go on from there, once `READY` is 1, as they would have run. -/
theorem runMicros_resumes {ms : List Micro} {s p : State} (hb : s.busy = none) (hm : s.micro = [])
    (hn : HasNoEntry ms) (h : (runMicros ms (s.withReady false)).Leaves p) (hp : p.micro ≠ []) :
    runMicros p.micro (({ p with micro := [] } : State).withReady true) = runMicros ms (s.withReady true) := by
  induction ms generalizing s with
  | nil =>
    rw [runMicros, MicroRes.leaves_ok] at h
    subst h
    exact absurd hm hp
  | cons m ms ih =>
    have hnm : HasNoEntry [m] := fun ip hi => hn ip (List.mem_cons.2 (.inl (List.mem_singleton.1 hi)))
    have hns : HasNoEntry ms := fun ip hi => hn ip (List.mem_cons_of_mem _ hi)
    by_cases hc : ∃ c, m = .cycle c
    · obtain ⟨c, rfl⟩ := hc
      obtain ⟨turn, busy, hwaits, hgoes⟩ := State.runCycle_resumes hb c
      rw [runMicros, State.doMicro, hwaits, MicroRes.leaves_parked] at h
      subst h
      rw [runMicros, runMicros, State.doMicro, State.doMicro, ← hgoes, ← hm]
      rfl
    · obtain ⟨r, hr⟩ | ⟨t, htb, htm, ht⟩ := State.doMicro_withReady hb hm (fun c e => hc ⟨c, e⟩) hnm
      · rw [runMicros, hr] at h
        exact absurd h MicroRes.leaves_refused
      · rw [runMicros_cons_ok (ht _)] at h ⊢
        exact ih htb htm hns h

/-- A word access to the stack starts no entry. -/
theorem State.stackWord_hasNoEntry (s : State) (kind : CycleKind) (off v : Word) :
    HasNoEntry (s.stackWord kind off v) := by
  unfold State.stackWord
  split <;> simp [HasNoEntry]

/-- The pushes of an entry and its reads of the vector start no other (R147). -/
theorem State.interruptEntry_hasNoEntry (s : State) (n : Nat) (ip : Word) : HasNoEntry (s.interruptEntry n ip) := by
  have hpush (sp v : Word) : HasNoEntry (s.pushOps sp v) := fun i hi =>
    s.stackWord_hasNoEntry .memWrite (sp - 2#16) v i (by simpa [State.pushOps] using hi)
  intro i hi
  unfold State.interruptEntry at hi
  split at hi
  · simp at hi
  · obtain ⟨w, hw, hi⟩ | hi | hi := mem_of_mem_mergeEntry (by simpa using hi)
    · simp only [List.mem_cons, List.not_mem_nil, or_false] at hw
      obtain rfl | rfl | rfl := hw
      · exact hpush _ _ i (by simpa using hi)
      · exact hpush _ _ i hi
      · exact hpush _ _ i hi
    · simp [State.vectorRead] at hi
    · simp [State.vectorRead] at hi

/-- A return starts none (R134). -/
theorem State.interruptReturn_hasNoEntry (s : State) : HasNoEntry s.interruptReturn := by
  have hpop (sp : Word) : HasNoEntry (s.popOps sp) := fun i hi =>
    s.stackWord_hasNoEntry .memRead sp 0#16 i (by simpa [State.popOps] using hi)
  intro i hi
  simp only [State.interruptReturn, List.mem_append, List.mem_singleton, reduceCtorEq, or_false] at hi
  obtain (hi | hi) | hi := hi <;> exact hpop _ i hi

/-- The end of an instruction starts none. -/
theorem HasNoEntry.endInstr {ms : List Micro} (h : HasNoEntry ms) (tfb : Bool) :
    HasNoEntry (ms ++ [.endInstr tfb]) :=
  fun i hi => h i (by simpa using hi)

/-- Whatever the level of `READY`, an instruction starts the same parts, or it needs no bus cycle and leaves nothing to
run. -/
theorem exec_starts_or_needs_no_bus (i : Instr) (s : State) :
    (∃ ms, HasNoEntry ms ∧ ∀ b, exec i (s.withReady b) = (s.withReady b).start ms) ∨
      ∀ b p, exec i (s.withReady b) = .next p → p.micro = s.micro := by
  cases i
  case lock =>
    refine .inr fun b p h => ?_
    simp only [exec, execLock] at h
    split at h <;> cases h
    rfl
  case wait =>
    refine .inr fun b p h => ?_
    simp only [exec, execWait] at h
    split at h <;> cases h <;> rfl
  case int3 => exact .inl ⟨_, (s.interruptEntry_hasNoEntry 3 s.ip).endInstr s.flags.tf, fun _ => rfl⟩
  case intN n => exact .inl ⟨_, (s.interruptEntry_hasNoEntry n s.ip).endInstr s.flags.tf, fun _ => rfl⟩
  case into =>
    by_cases ho : s.flags.of = true
    · exact .inl ⟨_, (s.interruptEntry_hasNoEntry 4 s.ip).endInstr s.flags.tf, fun _ => if_pos ho⟩
    · refine .inr fun b p h => ?_
      cases (if_neg ho).symm.trans h
      rfl
  case iret => exact .inl ⟨_, s.interruptReturn_hasNoEntry.endInstr s.flags.tf, fun _ => rfl⟩
  case hlt => exact .inl ⟨[.cycle haltCycle, .enterHalt], by simp [HasNoEntry], fun _ => rfl⟩
  all_goals
    refine .inr fun b p h => ?_
    cases h
    rfl

/-- Settles O22: an instruction that has to wait has started parts, and these go on as `runMicros_resumes` says. -/
theorem waitStatesOnlyDelay : Obligations.WaitStatesOnlyDelay := by
  intro i s p hm hb h hp
  change exec i (s.withReady false) = .next p at h
  change (p.withReady true).resume = exec i (s.withReady true)
  obtain ⟨ms, hn, hstart⟩ | hkeeps := exec_starts_or_needs_no_bus i s
  · rw [hstart] at h ⊢
    exact congrArg MicroRes.toOutcome
      (runMicros_resumes (s := { s with latch := [] }) (p := p) hb hm hn (MicroRes.toOutcome_next.1 h) hp)
  · exact absurd ((hkeeps false p h).trans hm) hp

end Sys2Proof.Machine

/-! The idle processor (44_sync_instructions.md R127, R130; 60_exceptions.md R151): how `WAIT` begins to idle, how it
is released, what idles on, and which entry an interrupt taken while idle leads to (R138, R140, R147, R148). -/

namespace Sys2Proof.Machine

/-! ### The turn of an idle processor -/

/-- With nothing waiting, a halted or waiting processor takes its default turn as an idle one (R151). -/
theorem step_of_idle {s : State} (hq : s.Quiet) (hi : (s.halted || s.waiting) = true) :
    step s = ({ s with turn := .free } : State).idleTurn := by
  have hstep := step_of_quiet hq
  obtain ⟨-, hreset, -, hbusy, -, hmicro, -, -⟩ := hq
  rw [hstep, turnOf, State.prepare_of_free (s := { s with turn := .free }) hreset hbusy]
  simp [State.proceed, hmicro, hi]

/-- Only a `WAIT`, and only with `TEST = 0`, is released (R127). -/
theorem State.releases_eq_false {s : State} (h : s.halted = true ∨ s.pins.test = true) : s.releases = false := by
  obtain h | h := h <;> simp [State.releases, h]

/-- A halted processor goes on after the `HLT` (R130, R151). -/
theorem State.leaveIdle_of_halted {s : State} (h : s.halted = true) :
    s.leaveIdle = ({ s with halted := false }, s.ip) := if_pos h

/-- A waiting processor goes back to its `WAIT`, whose `LOCK` ends (R127, R151). -/
theorem State.leaveIdle_of_waiting {s : State} (h : s.halted = false) :
    s.leaveIdle = ({ s with lockActive := false }, s.insnStart) := if_neg (by simp [h])

/-- With nothing due an idle processor that is not released idles on (R151). -/
theorem State.idleTurn_of_nothing_due {s : State} (hr : s.releases = false) (hn : s.nmiPending = false)
    (hd : s.dueIntr = false) : s.idleTurn = .next s := by
  simp [State.idleTurn, hr, hn, State.takesIntr, hd]

/-- A pending `NMI` is taken from the state the idle processor leaves (R151). -/
theorem State.idleTurn_of_nmi {s : State} (hr : s.releases = false) (hn : s.nmiPending = true) :
    s.idleTurn = s.leaveIdle.1.takeInterrupt 2 s.leaveIdle.2 := by
  simp [State.idleTurn, hr, hn]

/-- A due `INTR` that no `STI` inhibits is acknowledged from the state the idle processor leaves (R138, R151). -/
theorem State.idleTurn_of_intr {s : State} (hr : s.releases = false) (hn : s.nmiPending = false)
    (hd : s.dueIntr = true) (hi : s.intInhibit = false) :
    s.idleTurn = s.leaveIdle.1.acknowledge s.leaveIdle.2 := by
  simp [State.idleTurn, hr, hn, State.takesIntr, hd, hi]

/-! ### An entry and what comes before it -/

/-- The entry of an `NMI` taken where its premises hold; the request is forgotten (R138, R147). -/
theorem State.takeInterrupt_nmi {s : State} (ip : Word) (hr : s.EntryRuns 2) (hw : Memory.wf s.mem = true) :
    ∃ t, s.takeInterrupt 2 ip = .next t ∧ s.EntryDone 2 ip t ∧ s.EntryRecords 2 ip s.lockActive t ∧
      t.nmiPending = false ∧ t.lockActive = s.lockActive ∧ t.boundary = some false := by
  obtain ⟨t, he, hdone, hrec, hnmi, hlock⟩ := State.start_entry (s := { s with nmiPending := false }) (ip := ip)
    (m := .endEntry) hr hw fun _ => rfl
  exact ⟨t.endEntry, he, hdone, State.Ran.congr (s := s) hrec rfl rfl rfl rfl rfl, hnmi, hlock, rfl⟩

/-- A quiet processor whose turn sets no limit ends its bus cycles at once (R154). -/
theorem State.Quiet.busFree {s : State} (h : s.Quiet) (ht : s.turn.cycles = none) : s.BusFree := by
  obtain ⟨-, -, howner, hbusy, hready, -⟩ := h
  exact ⟨howner, hbusy, hready, ht⟩

/-- After an acknowledge the next step is the entry of the type the controller has answered (R140, R147). -/
theorem State.Acknowledged.step_entry {s t : State} {b : Byte} {ip : Word} (ha : s.Acknowledged b ip t)
    (hq : s.Quiet) (ht : s.turn = .free) (hr : s.EntryRuns b.toNat) (hw : Memory.wf s.mem = true) :
    ∃ u, step t = .next u ∧ s.EntryDone b.toNat ip u ∧ t.EntryRecords b.toNat ip s.lockActive u ∧
      u.lockActive = s.lockActive ∧ u.boundary = some false := by
  obtain ⟨hscript, hreset, howner, hbusy, -, -, hhold, hreq⟩ := hq
  obtain ⟨recs, -, -, -, hframe⟩ := ha
  generalize t.history = hist, t.draws = draws at hframe
  subst hframe
  obtain ⟨u, he, hdone, hrec, -, hlock⟩ := State.start_entry
    (s := { s with history := hist, draws := draws, latch := [], micro := [] }) (ip := ip) (m := .endEntry) hr hw
    fun _ => rfl
  refine ⟨u.endEntry, ?_, hdone, State.Ran.congr hrec rfl rfl rfl rfl rfl, hlock, rfl⟩
  rw [step_of_pending, ← ht]
  · exact he
  · exact hscript
  · exact State.settle_none hreset howner hbusy hhold hreq
  · exact hreset
  · exact hbusy
  · simp

/-! ### An interrupt taken while idle -/

/-- With only the processor to move, an idle processor that no `TEST` releases leaves `u` when it takes an interrupt,
and saves the offset `ip` (R151). -/
structure State.IdlesTo (s u : State) (ip : Word) : Prop where
  quiet : s.Quiet
  idle : (s.halted || s.waiting) = true
  kept : s.halted = true ∨ s.pins.test = true
  leaves : ({ s with turn := .free } : State).leaveIdle = (u, ip)

theorem State.idlesTo_of_halted {s : State} (hq : s.Quiet) (hh : s.halted = true) :
    s.IdlesTo { s with turn := .free, halted := false } s.ip :=
  ⟨hq, by rw [hh, Bool.true_or], .inl hh, State.leaveIdle_of_halted (s := { s with turn := .free }) hh⟩

theorem State.idlesTo_of_waiting {s : State} (hq : s.Quiet) (hw : s.waiting = true) (hh : s.halted = false)
    (ht : s.pins.test = true) : s.IdlesTo { s with turn := .free, lockActive := false } s.insnStart :=
  ⟨hq, by rw [hw, Bool.or_true], .inr ht, State.leaveIdle_of_waiting (s := { s with turn := .free }) hh⟩

namespace State.IdlesTo

variable {s u : State} {ip : Word} (h : s.IdlesTo u ip)
include h

/-- The default turn of `s` is an idle one, and releases nothing. -/
theorem step_eq :
    step s = ({ s with turn := .free } : State).idleTurn ∧ ({ s with turn := .free } : State).releases = false :=
  ⟨step_of_idle h.quiet h.idle, State.releases_eq_false h.kept⟩

/-- In the state left, too, only the processor is to move, by its default turn. -/
theorem quiet_left : u.Quiet ∧ u.turn = .free := by
  have hu : u = ({ s with turn := .free } : State).leaveIdle.1 := (congrArg Prod.fst h.leaves).symm
  rw [hu, State.leaveIdle]
  split <;> exact ⟨h.quiet, rfl⟩

/-- A pending `NMI` is entered from the state left (R138, R147, R151). -/
theorem nmi_entered (hn : s.nmiPending = true) (hr : u.EntryRuns 2) (hw : Memory.wf u.mem = true) :
    ∃ t, step s = .next t ∧ u.EntryDone 2 ip t ∧ u.EntryRecords 2 ip u.lockActive t ∧
      t.nmiPending = false ∧ t.lockActive = u.lockActive ∧ t.boundary = some false := by
  obtain ⟨hstep, hrel⟩ := h.step_eq
  rw [hstep, State.idleTurn_of_nmi hrel hn, h.leaves]
  exact u.takeInterrupt_nmi ip hr hw

/-- A due `INTR` is acknowledged from the state left, and its entry is the next step (R138, R140, R147, R151). -/
theorem intr_acknowledged {b : Byte} (hn : s.nmiPending = false) (hd : s.dueIntr = true)
    (hi : s.intInhibit = false) (hc : u.cfg.wf = true) (hv : u.pins.vector = some b) :
    ∃ t, step s = .next t ∧ u.Acknowledged b ip t ∧
      (u.EntryRuns b.toNat → Memory.wf u.mem = true →
        ∃ v, step t = .next v ∧ u.EntryDone b.toNat ip v ∧ t.EntryRecords b.toNat ip u.lockActive v ∧
          v.lockActive = u.lockActive ∧ v.boundary = some false) := by
  obtain ⟨hstep, hrel⟩ := h.step_eq
  obtain ⟨hq, hturn⟩ := h.quiet_left
  obtain ⟨t, he, hack⟩ := u.acknowledge_spec ip (hq.busFree (by rw [hturn]; rfl)) hv hc
  refine ⟨t, ?_, hack, hack.step_entry hq hturn⟩
  rw [hstep, State.idleTurn_of_intr hrel hn hd hi, h.leaves]
  exact he

end State.IdlesTo

/-! ### The instructions -/

/-- Settles O32: the branch of `WAIT` with `TEST = 1`. -/
theorem waitIdles : Obligations.WaitIdles := fun _ ht => if_pos ht

/-- Settles O33: with `TEST = 0` the default turn releases the `WAIT`, else nothing is due. -/
theorem idleWaitGoesOn : Obligations.IdleWaitGoesOn := by
  intro s hq hw hh
  have hstep := step_of_idle hq (by rw [hw, Bool.or_true])
  refine ⟨fun ht => ?released, fun ht hn hd => ?idles⟩
  case released =>
    have hr : ({ s with turn := .free } : State).releases = true := by
      simp [State.releases, hw, hh, ht, Turn.free]
    rw [hstep, State.idleTurn, if_pos hr]
    rfl
  case idles =>
    rw [hstep]
    exact State.idleTurn_of_nothing_due (State.releases_eq_false (.inr ht)) hn hd

/-- Settles O53: the end of a run is an idle processor for which nothing is due. -/
theorem endOfRunStays : Obligations.EndOfRunStays := by
  rintro s ⟨hh, -, -, hn, hd⟩ hq
  rw [step_of_idle hq (by rw [hh, Bool.true_or])]
  exact State.idleTurn_of_nothing_due (State.releases_eq_false (.inl hh)) hn hd

/-- Settles O51: the halted processor leaves its halt and saves the offset it stands at. -/
theorem interruptEndsHalt : Obligations.InterruptEndsHalt := by
  refine ⟨fun s hq hh hn hr hw => ?nmi, fun s b hq hh hn hd hi hc hv => ?intr⟩
  case nmi =>
    obtain ⟨t, he, hdone, hrec, hnmi, -, hb⟩ := (State.idlesTo_of_halted hq hh).nmi_entered hn hr hw
    exact ⟨t, he, hdone, State.Ran.congr (s := { s with turn := .free }) hrec rfl rfl rfl rfl rfl, hnmi, hb⟩
  case intr =>
    obtain ⟨t, he, hack, hentry⟩ := (State.idlesTo_of_halted hq hh).intr_acknowledged hn hd hi hc hv
    refine ⟨t, he, hack, fun hr hw => ?_⟩
    obtain ⟨u, hu, hdone, hrec, -, hb⟩ := hentry hr hw
    exact ⟨u, hu, hdone, hrec, hb⟩

/-- Settles O52: the waiting processor goes back to the start of its `WAIT`, with the `LOCK` ended. -/
theorem interruptEndsWait : Obligations.InterruptEndsWait := by
  refine ⟨fun s hq hw hh ht hn hr hm => ?nmi, fun s b hq hw hh ht hn hd hi hc hv => ?intr⟩
  case nmi =>
    obtain ⟨t, he, hdone, hrec, hend⟩ := (State.idlesTo_of_waiting hq hw hh ht).nmi_entered hn hr hm
    exact ⟨t, he, hdone, State.Ran.congr (s := { s with turn := .free }) hrec rfl rfl rfl rfl rfl, hend⟩
  case intr =>
    exact (State.idlesTo_of_waiting hq hw hh ht).intr_acknowledged hn hd hi hc hv

end Sys2Proof.Machine

/-! The end of an interrupt handler (45_interrupt_instructions.md R133, R134; 60_exceptions.md R150): `IRET` from the
stack an entry has left, and the `INTO` that enters none. -/

namespace Sys2Proof.Machine

/-! ### `INTO` without overflow -/

/-- Settles O37: the branch of `INTO` with `OF = 0`. -/
theorem intoWithoutOverflow : Obligations.IntoWithoutOverflow := fun _ ho => if_neg (by simp [ho])

/-! ### The stack an entry leaves -/

/-- A physical address depends on the configuration by the rule that forms it alone (R43). -/
theorem phys_congr {p q : Params} (h : p.physRule = q.physRule) : phys p = phys q := by
  funext seg off
  rw [phys, phys, h]

/-- Well-formed parameters read 0 wherever the image holds a flag (R8, R23). -/
theorem Params.flagsFixed_masked {p : Params} (h : p.wf = true) : p.flagsFixed &&& 0x0FD5#16 = 0#16 := by
  simp only [Params.wf, Bool.and_eq_true, beq_iff_eq] at h
  exact h.1.2

/-- `u` has its stack where an entry from `s` has left it: `SP` below the three words, in the same segment, platform
and address formation (R147). -/
structure State.StackLeftBy (s u : State) : Prop where
  ss : u.ss = s.ss
  sp : u.gen.sp = s.gen.sp - 6#16
  absent : u.absent = s.absent
  addr : phys u.cfg = phys s.cfg

namespace State.StackLeftBy

variable {s u : State}

/-- The offsets of the second and third pop, and `SP` after the last one (R134). -/
theorem popOffsets (h : s.StackLeftBy u) :
    u.gen.sp + 2#16 = s.gen.sp - 4#16 ∧ u.gen.sp + 4#16 = s.gen.sp - 2#16 ∧ u.gen.sp + 6#16 = s.gen.sp := by
  have hsp := h.sp
  refine ⟨?_, ?_, ?_⟩ <;> bv_omega

/-- Where an entry runs to its end, a return from its stack does (R55, R64). -/
theorem returnRuns {n : Nat} (h : s.StackLeftBy u) (hr : s.EntryRuns n) (hf : u.BusFree) : u.ReturnRuns := by
  obtain ⟨-, -, -, h2, h4, h6, -, hp, -⟩ := hr
  obtain ⟨e2, e4, -⟩ := h.popOffsets
  have hend (off : Word) : wordAtEnd u.cfg u.ss off = wordAtEnd s.cfg s.ss off := by
    rw [wordAtEnd, wordAtEnd, h.addr, h.ss]
  refine ⟨hf, by rw [hend, h.sp, h6], by rw [hend, e2, h4], by rw [hend, e4, h2], fun off ho => ?_⟩
  rw [e2, e4, h.sp] at ho
  rw [h.addr, h.ss, State.isAbsent_congr h.absent, State.isAbsent_congr h.absent]
  have hmem : phys s.cfg s.ss off ∈ s.entryStack s.gen.sp ∧
      phys s.cfg s.ss off + 1#20 ∈ s.entryStack s.gen.sp := by
    simp only [List.mem_cons, List.not_mem_nil, or_false] at ho
    obtain rfl | rfl | rfl := ho <;> simp [State.entryStack]
  exact ⟨hp _ (List.mem_append_left _ hmem.1), hp _ (List.mem_append_left _ hmem.2)⟩

end State.StackLeftBy

/-- Settles O40: the words `IRET` pops are those the entry has pushed, and the flags are read back from their image. -/
theorem returnUndoesEntry : Obligations.ReturnUndoesEntry := by
  intro s t u n hr hc hw ht hf hss hsp hm ha hp
  obtain ⟨t', ht', ⟨hgen, -, -, -, hflags, hcs, hip, -, -, -, -, -, hsame, -⟩, -⟩ :=
    softwareInterruptResult s (.intN n) n hr hw (.inl rfl)
  obtain rfl : t' = t := by simpa [ht] using ht'.symm
  obtain ⟨-, hss', -, -, hcfg, habs, -⟩ := hsame
  have hstack : s.StackLeftBy u :=
    ⟨hss.trans hss', by rw [hsp, hgen], ha.trans habs, phys_congr (hp.trans (by rw [hcfg]))⟩
  obtain ⟨e2, e4, e6⟩ := hstack.popOffsets
  obtain ⟨v, hv, vip, vcs, vflags, vgen, -, -, vmem, -⟩ := iretResult u (hstack.returnRuns hr hf)
  simp only [hstack.addr, hstack.ss, State.wordAt_congr hm] at vip vcs vflags
  refine ⟨v, hv, ?_, ?_, ?_, ?_, vmem⟩
  · rw [vip, hstack.sp, hip]
  · rw [vcs, e2, hcs]
  · rw [vflags, e4, hflags, Flags.ofImage_image _ (Params.flagsFixed_masked hc)]
  · rw [vgen, e6]

end Sys2Proof.Machine

/-! The refusals and the interrupts of an instruction boundary (60_exceptions.md R138, R141, R143, R146), and the
entry refused because its stack lies on its vector (R147). -/

namespace Sys2Proof.Machine

/-! ### A stack on the vector -/

/-- R147: an entry is over its vector when a byte is both a stack byte and a vector byte. -/
theorem State.overVector_of_mem {s : State} {n : Nat} {a : Addr} (hs : a ∈ s.entryStack s.gen.sp)
    (hv : a ∈ vectorBytes n) : s.overVector n = true :=
  List.any_eq_true.2 ⟨a, hs, List.contains_iff_mem.2 hv⟩

/-- R147: over its vector an entry has one part, its refusal. -/
theorem State.interruptEntry_of_overVector {s : State} {n : Nat} (h : s.overVector n = true) (ip : Word) :
    s.interruptEntry n ip = [.refuse .stackOverVector] := if_pos h

/-- Settles O42: whatever begins the entry, its first part is the refusal. -/
theorem stackOverVectorRefused : Obligations.StackOverVectorRefused := by
  intro s o n a he hs hv
  obtain ⟨u, ip, ms, -, rfl⟩ := he.runs
  rw [State.interruptEntry_of_overVector (State.overVector_of_mem hs hv)]
  rfl

/-! ### What a boundary leads to -/

/-- A single step due together with `NMI` or `INTR` (R138, R146). -/
theorem State.examine_of_simultaneous {s : State} (h : s.nmiPending = true ∨ s.dueIntr = true) :
    s.examine true = .refuse := if_pos (by simpa using h)

/-- Without a single step a pending `NMI` comes first, whatever `IF` is (R138, R143). -/
theorem State.examine_of_nmi {s : State} (h : s.nmiPending = true) : s.examine false = .enter 2 := by
  simp [State.examine, h]

/-- A due `INTR` that no `STI` inhibits comes after `NMI` (R138). -/
theorem State.examine_of_intr {s : State} (hn : s.nmiPending = false) (hd : s.dueIntr = true)
    (hi : s.intInhibit = false) : s.examine false = .acknowledge := by
  simp [State.examine, State.takesIntr, hn, hd, hi]

/-- A boundary that leads to the refusal refuses the move (R138, R146). -/
theorem turnOf_atBoundary_refuse {s : State} {tfb : Bool} (h : s.AtBoundary tfb)
    (hx : s.examine tfb = .refuse) : turnOf s = .refused .simultaneousWithSingleStep := by
  obtain ⟨hp, hm, hi, hb⟩ := State.running_atBoundary h
  simp [turnOf, hp, State.proceed, hm, hi, hb, hx]

/-- Settles O45: the step is the default turn at the boundary, which refuses. -/
theorem simultaneousRefused : Obligations.SimultaneousRefused := by
  intro s hb h
  obtain ⟨hstep, hb'⟩ := step_of_atBoundary hb
  exact hstep.trans (turnOf_atBoundary_refuse hb' (State.examine_of_simultaneous h))

/-- Settles O43: the boundary leads to type 2, whose entry is `State.takeInterrupt_nmi` and runs no acknowledge
cycle. -/
theorem nmiTakenAtBoundary : Obligations.NmiTakenAtBoundary := by
  intro s hb hn hr hw
  obtain ⟨hstep, hb'⟩ := step_of_atBoundary hb
  have hturn := hstep.trans (turnOf_atBoundary_enter hb' (State.examine_of_nmi hn))
  obtain ⟨t, he, hdone, hrec, hnmi, hlock, hbound⟩ :=
    State.takeInterrupt_nmi (s := { s with turn := .free, boundary := none }) s.ip hr hw
  obtain ⟨recs, hh, hkind⟩ := State.AddsNoAck.takeInterrupt he
  exact ⟨t, recs, hturn.trans he, hdone,
    State.Ran.congr (s := { s with turn := .free }) hrec rfl rfl rfl rfl rfl, hnmi, hlock, hbound, hh, hkind⟩

/-- Settles O46: the boundary leads to the acknowledge, and the step after it is the entry of the type answered. -/
theorem intrAcknowledged : Obligations.IntrAcknowledged := by
  intro s b hb hn hd hi hc hv
  obtain ⟨hstep, hb'⟩ := step_of_atBoundary hb
  have hturn := hstep.trans (turnOf_atBoundary_acknowledge hb' (State.examine_of_intr hn hd hi))
  have hq : ({ s with turn := .free, boundary := none } : State).Quiet := hb.1
  obtain ⟨t, he, hack⟩ := State.acknowledge_spec s.ip (hq.busFree rfl) hv hc
  refine ⟨t, hturn.trans he, hack, fun hr hw => ?_⟩
  obtain ⟨u, hu, hdone, hrec, hlock, hbound⟩ := hack.step_entry hq rfl hr hw
  exact ⟨u, hu, hdone, hrec, hbound, hlock⟩

end Sys2Proof.Machine

/-! RESET goes to 1, and the steps while it stays there (70_reset_and_hazards.md R161, R162, R165). -/

namespace Sys2Proof.Machine

/-! ### RESET goes to 1 -/

/-- A write cut short by RESET leaves the pins alone. -/
theorem State.cutShort_pins (s : State) : s.cutShort.pins = s.pins := by
  unfold State.cutShort
  split
  · split
    · simp
    · rfl
  · rfl
  · rfl

/-- RESET changes memory at most at the targets of the write it cuts short (R162, U12). -/
theorem State.cutShort_read_other {s : State} {a : Addr}
    (h : ∀ c, s.busy = some (.data c) → c.kind = .memWrite → a ∉ targets c.pa c.width) :
    Memory.read s.cutShort.mem a.toNat = Memory.read s.mem a.toNat := by
  unfold State.cutShort
  split
  case h_1 c hb =>
    split
    case isTrue hk => exact State.sameOutside_storeBytes s c.pa c.width _ a (h c hb hk)
    case isFalse => rfl
  case h_2 => rfl
  case h_3 => rfl

/-- The rise of RESET cuts a write short and abandons the run (R161, R162). -/
theorem State.resetPin_assert {s : State} (h : s.pins.reset = false) :
    s.resetPin true = { s with pins := { s.pins with reset := true } }.cutShort.applyReset := by
  simp [State.resetPin, h]

/-- Settles O12: `State.applyReset` keeps memory and the pins alone, and only the write cut short before it has changed
memory. -/
theorem resetAbandonsEverything : Obligations.ResetAbandonsEverything := by
  intro s rest hs hr
  refine ⟨_, (step_reset hs).trans (congrArg _ (State.resetPin_assert (s := { s with script := rest }) hr)), ?_⟩
  exact ⟨State.applyReset_hasResetValues _, congrArg InPins.reset (State.cutShort_pins _), rfl, rfl, rfl, rfl, rfl,
    fun _ ha => State.cutShort_read_other ha⟩

/-! ### While RESET is 1 -/

/-- While RESET is 1 a move of the processor changes nothing (R161). -/
theorem turnOf_of_reset {s : State} (h : s.pins.reset = true) : turnOf s = .next s := by
  have hp : s.prepare = .done (.next s) := if_pos h
  rw [turnOf, hp]

/-- While RESET is 1 the bus interface owes nothing (R165). -/
theorem State.settle_of_reset {s : State} (h : s.pins.reset = true) : s.settle = none := if_pos h

/-- Settles O13: nothing is owed by the bus interface, and the turn it leaves to the processor changes nothing. -/
theorem nothingRunsDuringReset : Obligations.NothingRunsDuringReset := by
  refine fun s hr => ⟨fun hs => ?_, fun tn rest hs => ?_⟩
  · simp only [step, hs, State.settle_of_reset hr]
    exact turnOf_of_reset hr
  · simp only [step, hs]
    exact turnOf_of_reset hr

end Sys2Proof.Machine
